-- ==== Sys2Proof/Word.lean ====
section
/-!
DEFINITION. The types of the quantities the spec treats as bits or as byte strings.
00_scope.md R9 (bus widths), R12 (byte strings), R5 and R6 (16-byte blocks and keys).
-/

namespace Sys2Proof

/-- One byte. -/
abbrev Byte := BitVec 8

/-- One 32-bit bus word, register or MT19937 state word. -/
abbrev Word := BitVec 32

/-- A 16-bit host bus byte address (00_scope.md R9). -/
abbrev Addr := BitVec 16

/-- `Bytes16`: a block, a key or an IV, with byte 0 first (00_scope.md R5, R6, R12). -/
abbrev Block := Vector Byte 16

/-- The 8-byte CTR nonce, byte 0 first (00_scope.md R9). -/
abbrev Nonce := Vector Byte 8

/-- The MT19937 state array, 624 words (10_state.md R33). -/
abbrev MtArray := Vector Word 624

end Sys2Proof
end

