-- ==== Sys2Proof/Syntax.lean ====
section
/-!
DEFINITION. The command set: one constructor for each row of the opcode map (30_encoding.md R65).
-/

namespace Sys2Proof

/-- The thirteen commands of BCM-IF 1.0 (00_scope.md R2). Every operand but INIT and BS is an
implicit register (30_encoding.md R64). -/
inductive Instr where
  /-- NOP (40_command_cycle.md R80). -/
  | nop
  /-- ECB_ENC (41_ecb_cbc.md R83). -/
  | ecbEnc
  /-- ECB_DEC (41_ecb_cbc.md R84). -/
  | ecbDec
  /-- CBC_ENC with its INIT bit (41_ecb_cbc.md R85, 30_encoding.md R62). -/
  | cbcEnc (init : Bool)
  /-- CBC_DEC with its INIT bit (41_ecb_cbc.md R86, 30_encoding.md R62). -/
  | cbcDec (init : Bool)
  /-- CTR_XF with its INIT bit (42_ctr.md R92, 30_encoding.md R62). -/
  | ctrXf (init : Bool)
  /-- PAD with its block size BS (43_pkcs7.md R97, 30_encoding.md R63). -/
  | pad (bs : Nat)
  /-- STRIP (43_pkcs7.md R98). -/
  | strip
  /-- MT_SEED (44_mt19937.md R106). -/
  | mtSeed
  /-- MT_EXTRACT (44_mt19937.md R107). -/
  | mtExtract
  /-- MT_TEMPER (44_mt19937.md R108). -/
  | mtTemper
  /-- MT_UNTEMPER (44_mt19937.md R109). -/
  | mtUntemper
  /-- MT_CLONE (44_mt19937.md R110). -/
  | mtClone
  deriving DecidableEq, Repr

end Sys2Proof
end

