-- ==== Sys2Proof/Decode.lean ====
section
/-!
DEFINITION. Decoding and encoding of command words (30_encoding.md R61 to R67).
-/

namespace Sys2Proof

/-- Why a command word is illegal: the four conditions of 30_encoding.md R66, by name. -/
inductive Illegal where
  /-- OPC is none of the thirteen values of R65. -/
  | unassignedOpcode
  /-- A bit of `CMD[15:9]` or `CMD[31:24]` is 1. -/
  | reservedBits
  /-- INIT = 1 on a command other than CBC_ENC, CBC_DEC and CTR_XF. -/
  | initNotAllowed
  /-- BS is not 0 on a command other than PAD. -/
  | bsNotAllowed
  deriving DecidableEq, Repr

/-- OPC = `CMD[7:0]` (30_encoding.md R61). -/
def opcField (w : Word) : Nat := (w.extractLsb' 0 8).toNat

/-- INIT = `CMD[8]` (30_encoding.md R62). -/
def initField (w : Word) : Bool := w.getLsbD 8

/-- BS = `CMD[23:16]` (30_encoding.md R63). -/
def bsField (w : Word) : Nat := (w.extractLsb' 16 8).toNat

/-- The reserved bits `CMD[15:9]` and `CMD[31:24]` are all 0 (30_encoding.md R61). -/
def reservedZero (w : Word) : Bool :=
  w.extractLsb' 9 7 == 0#7 && w.extractLsb' 24 8 == 0#8

/-- A row of R65 whose INIT and BS fields must both be 0. -/
def decodePlain (w : Word) (i : Instr) : Except Illegal Instr :=
  if initField w then .error .initNotAllowed
  else if bsField w ≠ 0 then .error .bsNotAllowed
  else .ok i

/-- A row of R65 with INIT free and BS = 0. -/
def decodeInit (w : Word) (i : Bool → Instr) : Except Illegal Instr :=
  if bsField w ≠ 0 then .error .bsNotAllowed else .ok (i (initField w))

/-- A row of R65 with BS free and INIT = 0. -/
def decodeBs (w : Word) (i : Nat → Instr) : Except Illegal Instr :=
  if initField w then .error .initNotAllowed else .ok (i (bsField w))

/-- The decoder: every 32-bit word is one of the thirteen commands or illegal (30_encoding.md R66). -/
def decode (w : Word) : Except Illegal Instr :=
  if reservedZero w then
    match opcField w with
    | 0x00 => decodePlain w .nop
    | 0x01 => decodePlain w .ecbEnc
    | 0x02 => decodePlain w .ecbDec
    | 0x03 => decodeInit w .cbcEnc
    | 0x04 => decodeInit w .cbcDec
    | 0x05 => decodeInit w .ctrXf
    | 0x06 => decodeBs w .pad
    | 0x07 => decodePlain w .strip
    | 0x10 => decodePlain w .mtSeed
    | 0x11 => decodePlain w .mtExtract
    | 0x12 => decodePlain w .mtTemper
    | 0x13 => decodePlain w .mtUntemper
    | 0x14 => decodePlain w .mtClone
    | _ => .error .unassignedOpcode
  else .error .reservedBits

/-- `OPC | INIT << 8 | BS << 16` (30_encoding.md R61, R68). -/
def encodeFields (opc : Nat) (init : Bool) (bs : Nat) : Word :=
  BitVec.ofNat 32 opc ||| (BitVec.ofNat 32 init.toNat <<< 8) ||| (BitVec.ofNat 32 bs <<< 16)

/-- The command word of a command (30_encoding.md R65). -/
def encode : Instr → Word
  | .nop => encodeFields 0x00 false 0
  | .ecbEnc => encodeFields 0x01 false 0
  | .ecbDec => encodeFields 0x02 false 0
  | .cbcEnc init => encodeFields 0x03 init 0
  | .cbcDec init => encodeFields 0x04 init 0
  | .ctrXf init => encodeFields 0x05 init 0
  | .pad bs => encodeFields 0x06 false bs
  | .strip => encodeFields 0x07 false 0
  | .mtSeed => encodeFields 0x10 false 0
  | .mtExtract => encodeFields 0x11 false 0
  | .mtTemper => encodeFields 0x12 false 0
  | .mtUntemper => encodeFields 0x13 false 0
  | .mtClone => encodeFields 0x14 false 0

/-- What the decoder reads from an instruction of `nbits` bits whose bits are `w`, bit 0 the least
significant. A command is one 32-bit bus word (30_encoding.md R67), so bits above bit 31 make it no
command. -/
def decodeTableWord (nbits w : Nat) : Option Instr :=
  if w % 2 ^ nbits < 2 ^ 32 then (decode (BitVec.ofNat 32 (w % 2 ^ nbits))).toOption else none

end Sys2Proof
end

