-- ==== Sys2Proof/Config.lean ====
section
/-!
DEFINITION. What an implementation fixes, and the values the spec leaves free
(92_eei_decisions.md "Open parameters", 93_implementation_defined.md part 1).
An `opaque` constant has no body: no proof can see a value of it.
-/

namespace Sys2Proof.Config

/-- The cipher block size `BLK` (00_scope.md R5). -/
def blk : Nat := 16

/-- The legal values of the parameter `BUF_BYTES`, the multiples of 16 from 16 to 0xF000, numbered from 0
(00_scope.md R8). An instance's size is a field of State: notes/assumptions/8.md. -/
abbrev BufSize := Fin 3840

/-- The number of bytes of a buffer size: `16 * (n + 1)` (00_scope.md R8). -/
def bufBytesOf (n : BufSize) : Nat := blk * (n.val + 1)

/-- The hardware's default `BUF_BYTES`, 4096 (00_scope.md R8). -/
def defaultBufSize : BufSize := 255

/-- The ID register's constant (10_state.md R18). -/
def idValue : Word := 0x42434D31#32

/-- The VERSION register's constant (10_state.md R19). -/
def versionValue : Word := 0x00010000#32

/-- The single-block cipher (00_scope.md R7): for every key a permutation of the blocks.
A pair of total functions that are mutually inverse for every key is exactly this, and nothing else
is assumed of it. DEDUCED, safe: notes/assumptions/2.md. -/
opaque cipher : Block → Equiv.Perm Block

/-- `Enc(k, x)` (00_scope.md R7). -/
def enc (k x : Block) : Block := cipher k x

/-- `Dec(k, y)` (00_scope.md R7). -/
def dec (k y : Block) : Block := (cipher k).symm y

/-- The byte that the `n`-th hardware reset leaves at a buffer offset: one draw of the whole buffer
per hardware reset (70_reset_and_hazards.md R132). Free value, safe: notes/assumptions/4.md. -/
opaque powerOnByte : Nat → Nat → Byte

/-- The value of the `n`-th host read that is made while BUSY = 1 and is answered with a draw
(20_memory.md R50). Free value, safe: notes/assumptions/6.md. -/
opaque busyRead : Nat → Word

/-- `BCM_BASE`, the host address of bus address 0x0000 (20_memory.md R40). No rule depends on it:
notes/assumptions/10.md. -/
opaque bcmBase : Nat

/-- `BCM_IRQ_LINE`, where `irq` is connected (60_exceptions.md R117). No rule depends on it:
notes/assumptions/10.md. -/
opaque bcmIrqLine : Nat

end Sys2Proof.Config
end

