-- ==== Sys2Proof/Machine/State.lean ====
section
/-!
DEFINITION. The machine's state, its outcomes and its reset state (10_state.md, 70_reset_and_hazards.md R129).
-/

namespace Sys2Proof.Machine

open Sys2Proof

/-- The completion codes of STATUS.ERR (60_exceptions.md R112). Codes 8 to 15 are never produced. -/
inductive ErrCode where
  /-- Code 0, success. -/
  | ok
  /-- Code 1: `LEN mod 16` is not 0. -/
  | invalidLength
  /-- Code 2: PKCS#7 validation failure. -/
  | invalidPadding
  /-- Code 3: MT_EXTRACT while Unseeded. -/
  | notSeeded
  /-- Code 4: an illegal command word. -/
  | illegalCmd
  /-- Code 5: PAD with BS = 0. -/
  | badArg
  /-- Code 6: the input or output range leaves the buffer. -/
  | range
  /-- Code 7: the input and output ranges overlap without being equal. -/
  | overlap
  deriving DecidableEq, Repr

/-- What the outside of the block does next (20_memory.md R46 to R48, R53; 70_reset_and_hazards.md R129).
notes/assumptions/1.md. -/
inductive BusEvent where
  /-- The host reads a bus address. -/
  | read (a : Addr)
  /-- The host writes a value to a bus address. -/
  | write (a : Addr) (v : Word)
  /-- The schedule gives one turn to the engine. -/
  | engine
  /-- The platform pulses `RESET`. -/
  | reset
  deriving DecidableEq, Repr

/-- Why a step could stop. The block has no fault outcome (00_scope.md R11): there is no reason, and
nothing raises one. Safe: notes/assumptions/9.md. -/
inductive Fault where
  deriving DecidableEq, Repr

/-- Why an instruction could be refused. -/
inductive Refusal where
  /-- No meaning is written for the instruction. Raised by no arm of `exec`: every command has its
  meaning. Safe. -/
  | notModelled (mnemonic : String)
  deriving DecidableEq, Repr

/-- The data buffer: (buffer offset, byte) pairs for the bytes written since the last hardware reset
(20_memory.md R41). notes/assumptions/3.md. -/
abbrev Memory := List Host.Cell

/-- The canonical form: offsets strictly rising. An offset that is not listed holds no written byte, so
no entry can equal what an unlisted offset reads as. notes/assumptions/3.md. -/
abbrev Memory.wf (m : Memory) : Prop := m.Pairwise fun x y => x.1 < y.1

/-- Every piece of state the spec gives the block (10_state.md R15), then the model's own fields. -/
@[ext]
structure State where
  /-- CTRL.IE (10_state.md R20). -/
  ie : Bool
  /-- STATUS.BUSY: the word in CMD is accepted and not yet completed (10_state.md R21, R38). -/
  busy : Bool
  /-- STATUS.DONE (10_state.md R21). -/
  done : Bool
  /-- STATUS.BUSERR (10_state.md R21, 20_memory.md R49). -/
  buserr : Bool
  /-- STATUS.ERR (10_state.md R21, 60_exceptions.md R112). -/
  err : ErrCode
  /-- CMD, the last accepted command word (10_state.md R22). -/
  cmd : Word
  /-- SRC (10_state.md R23). -/
  src : Word
  /-- DST (10_state.md R23). -/
  dst : Word
  /-- LEN (10_state.md R23). -/
  len : Word
  /-- RLEN (10_state.md R24). -/
  rlen : Word
  /-- KEY[0..15] (10_state.md R25). -/
  key : Block
  /-- IV[0..15] (10_state.md R26). -/
  iv : Block
  /-- CHAIN[0..15] (10_state.md R27). -/
  chain : Block
  /-- NONCE[0..7] (10_state.md R28). -/
  nonce : Nonce
  /-- CTR, CTR_HI above CTR_LO (10_state.md R29). -/
  ctr : BitVec 64
  /-- MT_SEED, the seed operand (10_state.md R30). -/
  mtSeed : Word
  /-- MT_OUT (10_state.md R31). -/
  mtOut : Word
  /-- MT_TIN (10_state.md R32). -/
  mtTin : Word
  /-- MT_TOUT (10_state.md R32). -/
  mtTout : Word
  /-- The MT19937 state array (10_state.md R33). -/
  mt : MtArray
  /-- MT_CURSOR, 0..625; 625 is Unseeded (10_state.md R34). -/
  mtCursor : Fin 626
  /-- MT_CIDX, 0..623 (10_state.md R35). -/
  mtCidx : Fin 624
  /-- BUF, the data buffer (20_memory.md R41). -/
  buf : Memory
  /-- The instance's parameter BUF_BYTES, which no step changes (00_scope.md R8). notes/assumptions/8.md. -/
  bufSize : Config.BufSize
  /-- The model's own: what the host and the schedule do next. notes/assumptions/1.md. -/
  inputs : List BusEvent
  /-- The model's own: the value the last host read returned. notes/assumptions/7.md. -/
  rdata : Word
  /-- The model's own: how many busy reads have been answered with a draw. notes/assumptions/6.md. -/
  busyReads : Nat
  /-- The model's own: how many hardware resets have drawn a buffer before the present one.
  notes/assumptions/4.md. -/
  powerOns : Nat
  deriving DecidableEq, Repr

/-- The block with a buffer of the given size, right after a hardware reset (70_reset_and_hazards.md R129,
00_scope.md R8). The spec leaves `mt` and BUF
unspecified: `mt` is zeros (notes/assumptions/5.md), BUF has no byte written (notes/assumptions/4.md). -/
def State.resetWith (n : Config.BufSize) : State where
  ie := false
  busy := false
  done := false
  buserr := false
  err := .ok
  cmd := 0
  src := 0
  dst := 0
  len := 0
  rlen := 0
  key := Vector.replicate 16 0
  iv := Vector.replicate 16 0
  chain := Vector.replicate 16 0
  nonce := Vector.replicate 8 0
  ctr := 0
  mtSeed := 0
  mtOut := 0
  mtTin := 0
  mtTout := 0
  mt := Vector.replicate 624 0
  mtCursor := 625
  mtCidx := 0
  buf := []
  bufSize := n
  inputs := []
  rdata := 0
  busyReads := 0
  powerOns := 0

/-- The machine right after reset, with the hardware's default buffer size (00_scope.md R8). -/
def State.reset : State := State.resetWith Config.defaultBufSize

end Sys2Proof.Machine
end

