-- ==== Sys2Proof/Machine/Flags.lean ====
section
/-!
DEFINITION. The STATUS and CTRL words, the derived flag MT_SEEDED and the interrupt output
(10_state.md R20, R21, R36; 60_exceptions.md R112, R117).
-/

namespace Sys2Proof.Machine

open Sys2Proof

/-- The number of a completion code (60_exceptions.md R112). -/
def ErrCode.code : ErrCode → Nat
  | .ok => 0
  | .invalidLength => 1
  | .invalidPadding => 2
  | .notSeeded => 3
  | .illegalCmd => 4
  | .badArg => 5
  | .range => 6
  | .overlap => 7

/-- STATUS.MT_SEEDED: `MT_CURSOR <= 624` (10_state.md R36). -/
def State.mtSeeded (s : State) : Bool := decide (s.mtCursor.val ≤ 624)

/-- STATUS as the host reads it: BUSY, DONE, BUSERR and MT_SEEDED in bits 0 to 3, ERR in bits 11:8,
reserved bits 0 (10_state.md R21). -/
def State.statusWord (s : State) : Word :=
  BitVec.ofNat 32 (s.busy.toNat + 2 * s.done.toNat + 4 * s.buserr.toNat + 8 * s.mtSeeded.toNat
    + 256 * s.err.code)

/-- CTRL as the host reads it: IE in bit 0 and zero elsewhere (10_state.md R20). -/
def State.ctrlWord (s : State) : Word := BitVec.ofNat 32 s.ie.toNat

/-- The interrupt output: `CTRL.IE & STATUS.DONE` (60_exceptions.md R117). -/
def State.irq (s : State) : Bool := s.ie && s.done

end Sys2Proof.Machine
end

