-- ==== Sys2Proof/Machine/Bytes.lean ====
section
/-!
DEFINITION. Byte strings, byte order and the XOR datapath (00_scope.md R13, 20_memory.md R42, R43).
-/

namespace Sys2Proof.Machine

open Sys2Proof

/-- Byte `i` of the little-endian encoding of a `w`-bit value: bits `8i+7 .. 8i` (00_scope.md R13,
`LE32` and `LE64`). -/
def leByte {w : Nat} (v : BitVec w) (i : Nat) : Byte := v.extractLsb' (8 * i) 8

/-- `LE32(v)`, the byte at the lowest address first (20_memory.md R42). -/
def le32 (v : Word) : List Byte := [leByte v 0, leByte v 1, leByte v 2, leByte v 3]

/-- `W32` of four bytes, the byte at the lowest address in bits 7:0 (20_memory.md R42). -/
def w32 (b0 b1 b2 b3 : Byte) : Word := b3 ++ b2 ++ b1 ++ b0

/-- Word `w` of a wide register: `W32(R[4w .. 4w+3])` (20_memory.md R42). -/
def wordOfBytes {n : Nat} (r : Vector Byte n) (w : Nat) : Word :=
  w32 (r.getD (4 * w) 0) (r.getD (4 * w + 1) 0) (r.getD (4 * w + 2) 0) (r.getD (4 * w + 3) 0)

/-- `R[4w .. 4w+3] <- LE32(v)` (20_memory.md R42, R48). -/
def setWordOfBytes {n : Nat} (r : Vector Byte n) (w : Nat) (v : Word) : Vector Byte n :=
  Vector.ofFn fun i => if i.val / 4 = w then leByte v (i.val % 4) else r[i]

/-- The bytewise exclusive or of two blocks (00_scope.md R13). -/
def xorBlock (a b : Block) : Block := Vector.ofFn fun i => a[i] ^^^ b[i]

/-- The bytewise exclusive or of a byte string with the first bytes of another: `X XOR K[0:r]` with
`r = len(X)` (00_scope.md R13, 42_ctr.md R92). -/
def xorBytes : List Byte → List Byte → List Byte
  | x :: xs, k :: ks => (x ^^^ k) :: xorBytes xs ks
  | _, _ => []

/-- The input of a keystream block: `NONCE[0..7] || LE64(c)` (20_memory.md R44, 42_ctr.md R91). -/
def counterBlock (nonce : Nonce) (c : BitVec 64) : Block :=
  Vector.ofFn fun i => if i.val < 8 then nonce.getD i.val 0 else leByte c (i.val - 8)

end Sys2Proof.Machine
end

