-- ==== Sys2Proof/Machine/Ops.lean ====
section
/-!
DEFINITION. The named operations on the state: buffer bytes, issue, completion (the block's analogue
of taking an exception), bus errors and the two resets.
-/

namespace Sys2Proof.Machine

open Sys2Proof

/-! ### The data buffer as a canonical list -/

/-- `BUF_BYTES`, the size of the instance's data buffer (00_scope.md R8). -/
def State.bufBytes (s : State) : Nat := Config.bufBytesOf s.bufSize

/-- The written byte at an offset, if there is one. -/
def memLookup : Memory → Nat → Option Byte
  | [], _ => none
  | (a, b) :: m, o => if a = o then some b else memLookup m o

/-- The buffer with one byte written; the offsets stay strictly rising. -/
def memInsert : Memory → Nat → Byte → Memory
  | [], o, v => [(o, v)]
  | (a, b) :: m, o, v =>
    if o < a then (o, v) :: (a, b) :: m
    else if o = a then (o, v) :: m
    else (a, b) :: memInsert m o v

/-- The buffer with a byte string written at consecutive offsets from `o`. -/
def memInsertAll (m : Memory) (o : Nat) : List Byte → Memory
  | [] => m
  | v :: vs => memInsertAll (memInsert m o v) (o + 1) vs

/-- The byte at a buffer offset. A byte nothing has written since the last hardware reset reads as the
draw of that reset (70_reset_and_hazards.md R132). -/
def State.readByte (s : State) (o : Nat) : Byte :=
  match memLookup s.buf o with
  | some b => b
  | none => Config.powerOnByte s.powerOns o

/-- `MemRead(a, n)` (00_scope.md R14). -/
def State.memRead (s : State) (a : Nat) : Nat → List Byte
  | 0 => []
  | n + 1 => s.readByte a :: s.memRead (a + 1) n

/-- `MemWrite(a, len(v), v)` (00_scope.md R14). -/
def State.memWrite (s : State) (a : Nat) (v : List Byte) : State :=
  { s with buf := memInsertAll s.buf a v }

/-- `MemRead(a, 16)` as a block, byte 0 at the lowest offset (20_memory.md R43). -/
def State.readBlock (s : State) (a : Nat) : Block := Vector.ofFn fun i => s.readByte (a + i.val)

/-- `MemWrite(a, 16, x)` for a block (20_memory.md R43). -/
def State.writeBlock (s : State) (a : Nat) (x : Block) : State := s.memWrite a x.toList

/-! ### One register written (`R <- v`, 00_scope.md R12) -/

/-- `CTRL.IE <- v`. -/
def State.setIe (s : State) (v : Bool) : State := { s with ie := v }

/-- `SRC <- v`. -/
def State.setSrc (s : State) (v : Word) : State := { s with src := v }

/-- `DST <- v`. -/
def State.setDst (s : State) (v : Word) : State := { s with dst := v }

/-- `LEN <- v`. -/
def State.setLen (s : State) (v : Word) : State := { s with len := v }

/-- `RLEN <- v`. -/
def State.setRlen (s : State) (v : Word) : State := { s with rlen := v }

/-- `KEY <- v`. -/
def State.setKey (s : State) (v : Block) : State := { s with key := v }

/-- `IV <- v`. -/
def State.setIv (s : State) (v : Block) : State := { s with iv := v }

/-- `CHAIN <- v`. -/
def State.setChain (s : State) (v : Block) : State := { s with chain := v }

/-- `NONCE <- v`. -/
def State.setNonce (s : State) (v : Nonce) : State := { s with nonce := v }

/-- `CTR <- v`. -/
def State.setCtr (s : State) (v : BitVec 64) : State := { s with ctr := v }

/-- `MT_SEED <- v`. -/
def State.setMtSeed (s : State) (v : Word) : State := { s with mtSeed := v }

/-- `MT_OUT <- v`. -/
def State.setMtOut (s : State) (v : Word) : State := { s with mtOut := v }

/-- `MT_TIN <- v`. -/
def State.setMtTin (s : State) (v : Word) : State := { s with mtTin := v }

/-- `MT_TOUT <- v`. -/
def State.setMtTout (s : State) (v : Word) : State := { s with mtTout := v }

/-- `mt <- v`. -/
def State.setMt (s : State) (v : MtArray) : State := { s with mt := v }

/-- `MT_CURSOR <- v`. -/
def State.setMtCursor (s : State) (v : Fin 626) : State := { s with mtCursor := v }

/-- `MT_CIDX <- v`. -/
def State.setMtCidx (s : State) (v : Fin 624) : State := { s with mtCidx := v }

/-- `inputs <- v`. -/
def State.setInputs (s : State) (v : List BusEvent) : State := { s with inputs := v }

/-- `rdata <- v`. -/
def State.setRdata (s : State) (v : Word) : State := { s with rdata := v }

/-! ### The command handshake -/

/-- What an accepted CMD write does (40_command_cycle.md R70). -/
def State.issue (s : State) (v : Word) : State :=
  { s with cmd := v, busy := true, done := false, err := .ok }

/-- Completion with a code (40_command_cycle.md R78). With a nonzero code it is all a failing command
does (R79): the block's analogue of taking an exception (60_exceptions.md R119). Nothing returns from
it (R120). -/
def State.complete (s : State) (code : ErrCode) : State :=
  { s with busy := false, done := true, err := code }

/-- `Execute` once the checks have answered: the first error of the checks, else what `Perform` answers
(40_command_cycle.md R72). An error leaves the state from before the step (R79). -/
def State.finish (s : State) (check : ErrCode) (perform : State → Except ErrCode State) :
    Host.Outcome State Fault Refusal :=
  if check = .ok then
    match perform s with
    | .ok t => .next (t.complete .ok)
    | .error e => .next (s.complete e)
  else .next (s.complete check)

/-! ### Bus errors and resets -/

/-- An illegal host access (20_memory.md R49). -/
def State.busError (s : State) : State := { s with buserr := true }

/-- A soft reset: every piece of state takes its hardware-reset value except BUF
(70_reset_and_hazards.md R131). The buffer's size is a parameter and stays; the host's side (`inputs`, `rdata`) and the counters of the free values
are not the block's state and stay. -/
def State.softReset (s : State) : State :=
  { State.resetWith s.bufSize with
    buf := s.buf, inputs := s.inputs, rdata := s.rdata, busyReads := s.busyReads, powerOns := s.powerOns }

/-- A hardware reset: every piece of state takes its reset value, and the buffer is drawn anew
(70_reset_and_hazards.md R129, R132). -/
def State.hardReset (s : State) : State :=
  { State.resetWith s.bufSize with
    inputs := s.inputs, rdata := s.rdata, busyReads := s.busyReads, powerOns := s.powerOns + 1 }

end Sys2Proof.Machine
end

