-- ==== Sys2Proof/Machine/Bus.lean ====
section
/-!
DEFINITION. The host bus: the address map and the host's reads and writes
(20_memory.md R40, R46 to R52; 10_state.md R15).
-/

namespace Sys2Proof.Machine

open Sys2Proof

/-- What a mapped, aligned bus address names (10_state.md R15, 20_memory.md R40). Wide registers carry
the number of the word. -/
inductive BusTarget where
  | id | version | ctrl | status | cmd | src | dst | len | rlen
  | key (w : Fin 4) | iv (w : Fin 4) | chain (w : Fin 4) | nonce (w : Fin 2)
  | ctrLo | ctrHi | mtSeed | mtOut | mtTin | mtTout | mtCursor | mtCidx
  /-- The buffer word whose first byte is at this buffer offset. -/
  | buf (o : Nat)
  deriving DecidableEq, Repr

/-- The register window of 10_state.md R15, by bus address; the hole 0x024 to 0x02F is not in it. -/
def registerAt (a : Nat) : Option BusTarget :=
  match a with
  | 0x000 => some .id
  | 0x004 => some .version
  | 0x008 => some .ctrl
  | 0x00C => some .status
  | 0x010 => some .cmd
  | 0x014 => some .src
  | 0x018 => some .dst
  | 0x01C => some .len
  | 0x020 => some .rlen
  | 0x030 => some (.key 0)
  | 0x034 => some (.key 1)
  | 0x038 => some (.key 2)
  | 0x03C => some (.key 3)
  | 0x040 => some (.iv 0)
  | 0x044 => some (.iv 1)
  | 0x048 => some (.iv 2)
  | 0x04C => some (.iv 3)
  | 0x050 => some (.chain 0)
  | 0x054 => some (.chain 1)
  | 0x058 => some (.chain 2)
  | 0x05C => some (.chain 3)
  | 0x060 => some (.nonce 0)
  | 0x064 => some (.nonce 1)
  | 0x068 => some .ctrLo
  | 0x06C => some .ctrHi
  | 0x070 => some .mtSeed
  | 0x074 => some .mtOut
  | 0x078 => some .mtTin
  | 0x07C => some .mtTout
  | 0x080 => some .mtCursor
  | 0x084 => some .mtCidx
  | _ => none

/-- The address map (20_memory.md R40) of a block with `size` buffer bytes: none for a misaligned (R46) or an unmapped address. -/
def busTarget (size : Nat) (a : Addr) : Option BusTarget :=
  if a.toNat % 4 = 0 then
    if 0x1000 ≤ a.toNat ∧ a.toNat < 0x1000 + size then some (.buf (a.toNat - 0x1000))
    else registerAt a.toNat
  else none

/-- The RO registers (10_state.md R15): ID, VERSION, RLEN, MT_OUT, MT_TOUT, MT_CURSOR, MT_CIDX. -/
def BusTarget.readOnly : BusTarget → Bool
  | .id => true
  | .version => true
  | .rlen => true
  | .mtOut => true
  | .mtTout => true
  | .mtCursor => true
  | .mtCidx => true
  | _ => false

/-- The addresses a host read answers with their value even while BUSY = 1 (20_memory.md R47, R50; the
KEY words read 0 in every state, 10_state.md R25). -/
def BusTarget.readableBusy : BusTarget → Bool
  | .id => true
  | .version => true
  | .ctrl => true
  | .status => true
  | .cmd => true
  | .key _ => true
  | _ => false

/-- The buffer word at an offset: `W32(BUF[o .. o+3])` (20_memory.md R42). -/
def State.bufWord (s : State) (o : Nat) : Word :=
  w32 (s.readByte o) (s.readByte (o + 1)) (s.readByte (o + 2)) (s.readByte (o + 3))

/-- The value a mapped address holds for the host (10_state.md R15 to R36, 20_memory.md R42, R47). -/
def State.busValue (s : State) : BusTarget → Word
  | .id => Config.idValue
  | .version => Config.versionValue
  | .ctrl => s.ctrlWord
  | .status => s.statusWord
  | .cmd => s.cmd
  | .src => s.src
  | .dst => s.dst
  | .len => s.len
  | .rlen => s.rlen
  | .key _ => 0
  | .iv w => wordOfBytes s.iv w.val
  | .chain w => wordOfBytes s.chain w.val
  | .nonce w => wordOfBytes s.nonce w.val
  | .ctrLo => s.ctr.extractLsb' 0 32
  | .ctrHi => s.ctr.extractLsb' 32 32
  | .mtSeed => s.mtSeed
  | .mtOut => s.mtOut
  | .mtTin => s.mtTin
  | .mtTout => s.mtTout
  | .mtCursor => BitVec.ofNat 32 s.mtCursor.val
  | .mtCidx => BitVec.ofNat 32 s.mtCidx.val
  | .buf o => s.bufWord o

/-- A read answered with a fresh draw (20_memory.md R50). -/
def State.drawRead (s : State) : State :=
  { s with rdata := Config.busyRead s.busyReads, busyReads := s.busyReads + 1 }

/-- `HostRead(a)` (20_memory.md R47): the returned value stands in `rdata`. A read of an address that is
hidden while BUSY = 1 returns a fresh draw and sets no flag (R50). -/
def State.hostRead (s : State) (a : Addr) : State :=
  match busTarget s.bufBytes a with
  | none => s.busError.setRdata 0
  | some t =>
    if s.busy && !t.readableBusy then
      s.drawRead
    else s.setRdata (s.busValue t)

/-- A STATUS write clears DONE and BUSERR where it holds 1 (10_state.md R21). -/
def State.writeStatus (s : State) (v : Word) : State :=
  { s with done := s.done && !v.getLsbD 1, buserr := s.buserr && !v.getLsbD 2 }

/-- A CTRL write: SRST performs a soft reset and drops IE, else IE is stored (10_state.md R20). -/
def State.writeCtrl (s : State) (v : Word) : State :=
  if v.getLsbD 1 then s.softReset else s.setIe (v.getLsbD 0)

/-- A host write of an idle block to a mapped address (20_memory.md R48). A write to an RO register is a
bus error (R49). -/
def State.writeIdle (s : State) (v : Word) : BusTarget → State
  | .id => s.busError
  | .version => s.busError
  | .ctrl => s.writeCtrl v
  | .status => s.writeStatus v
  | .cmd => s.issue v
  | .src => s.setSrc v
  | .dst => s.setDst v
  | .len => s.setLen v
  | .rlen => s.busError
  | .key w => s.setKey (setWordOfBytes s.key w.val v)
  | .iv w => s.setIv (setWordOfBytes s.iv w.val v)
  | .chain w => s.setChain (setWordOfBytes s.chain w.val v)
  | .nonce w => s.setNonce (setWordOfBytes s.nonce w.val v)
  | .ctrLo => s.setCtr (s.ctr.extractLsb' 32 32 ++ v)
  | .ctrHi => s.setCtr (v ++ s.ctr.extractLsb' 0 32)
  | .mtSeed => s.setMtSeed v
  | .mtOut => s.busError
  | .mtTin => s.setMtTin v
  | .mtTout => s.busError
  | .mtCursor => s.busError
  | .mtCidx => s.busError
  | .buf o => s.memWrite o (le32 v)

/-- `HostWrite(a, v)` (20_memory.md R48). While BUSY = 1 only STATUS and CTRL are written; any other
write is dropped (R51). -/
def State.hostWrite (s : State) (a : Addr) (v : Word) : State :=
  match busTarget s.bufBytes a with
  | none => s.busError
  | some t =>
    if t.readOnly then s.busError
    else if t = .status then s.writeStatus v
    else if t = .ctrl then s.writeCtrl v
    else if s.busy then s.busError
    else s.writeIdle v t

end Sys2Proof.Machine
end

