-- ==== Sys2Proof/Machine/Operands.lean ====
section
/-!
DEFINITION. The operands of the buffer commands and the common checks, on mathematical integers
(20_memory.md R54; 40_command_cycle.md R73 to R77).
-/

namespace Sys2Proof.Machine

open Sys2Proof

/-- SRC as a buffer offset. -/
def State.srcOff (s : State) : Nat := s.src.toNat

/-- DST as a buffer offset. -/
def State.dstOff (s : State) : Nat := s.dst.toNat

/-- LEN as a number of bytes. -/
def State.lenBytes (s : State) : Nat := s.len.toNat

/-- PAD's padding value `p = bs - (LEN mod bs)` (40_command_cycle.md R73). -/
def padValue (bs len : Nat) : Nat := bs - len % bs

/-- `RangeOK(op)` (40_command_cycle.md R75). `out` is the output length OUTLEN, none for STRIP. -/
def State.rangeOk (s : State) (out : Option Nat) : Bool :=
  decide (s.srcOff + s.lenBytes ≤ s.bufBytes) &&
    match out with
    | none => true
    | some n => decide (s.dstOff + n ≤ s.bufBytes)

/-- `Overlaps(op)` (40_command_cycle.md R76). `out` is the output length OUTLEN, none for STRIP. -/
def State.overlaps (s : State) (out : Option Nat) : Bool :=
  match out with
  | none => false
  | some n =>
    decide (s.srcOff ≠ s.dstOff) && decide (0 < s.lenBytes) && decide (0 < n) &&
      decide (s.srcOff < s.dstOff + n) && decide (s.dstOff < s.srcOff + s.lenBytes)

/-- The checks of every buffer command, RANGE before OVERLAP (40_command_cycle.md R72, R77). -/
def State.bufferCheck (s : State) (out : Option Nat) : ErrCode :=
  if s.rangeOk out then (if s.overlaps out then .overlap else .ok) else .range

/-- The checks of the whole-block commands: INVALID_LENGTH before the buffer checks
(40_command_cycle.md R74, R77). -/
def State.blockCheck (s : State) : ErrCode :=
  if s.lenBytes % Config.blk = 0 then s.bufferCheck (some s.lenBytes) else .invalidLength

/-- The checks of PAD: BAD_ARG before the buffer checks (30_encoding.md R63, 40_command_cycle.md R77). -/
def State.padCheck (s : State) (bs : Nat) : ErrCode :=
  if bs = 0 then .badArg else s.bufferCheck (some (s.lenBytes + padValue bs s.lenBytes))

end Sys2Proof.Machine
end

