-- ==== Sys2Proof/Machine/Control.lean ====
section
/-!
DEFINITION. NOP (40_command_cycle.md R80).
-/

namespace Sys2Proof.Machine

open Sys2Proof

/-- NOP reads no operand and completes with OK (40_command_cycle.md R80). -/
def execNop (s : State) : Host.Outcome State Fault Refusal := s.finish .ok .ok

end Sys2Proof.Machine
end

