-- ==== Sys2Proof/Machine/Modes.lean ====
section
/-!
DEFINITION. The cipher modes ECB, CBC and CTR (41_ecb_cbc.md R83 to R86, 42_ctr.md R91, R92).
Each `Perform` takes the single-block function it applies as an argument (00_scope.md R7); the
meanings apply it to the configured cipher under KEY. A loop `xLoop f a b n s` is the pseudocode's loop
over the blocks 0 to n-1 in increasing order.
-/

namespace Sys2Proof.Machine

open Sys2Proof

/-! ### ECB -/

/-- One iteration of the ECB loops: block `i` read at `src`, transformed, written at `dst`. -/
def ecbStep (f : Block → Block) (src dst i : Nat) (s : State) : State :=
  s.writeBlock (dst + 16 * i) (f (s.readBlock (src + 16 * i)))

/-- The ECB loop over the blocks 0 to n-1. -/
def ecbLoop (f : Block → Block) (src dst : Nat) : Nat → State → State
  | 0, s => s
  | n + 1, s => ecbStep f src dst n (ecbLoop f src dst n s)

/-- `Perform_ECB_ENC` and `Perform_ECB_DEC` for the block function `f` (41_ecb_cbc.md R83, R84). -/
def performEcb (f : Block → Block) (s : State) : State :=
  (ecbLoop f s.srcOff s.dstOff (s.lenBytes / 16) s).setRlen s.len

/-- ECB_ENC (41_ecb_cbc.md R83). -/
def execEcbEnc (s : State) : Host.Outcome State Fault Refusal :=
  s.finish s.blockCheck fun s => .ok (performEcb (Config.enc s.key) s)

/-- ECB_DEC (41_ecb_cbc.md R84). -/
def execEcbDec (s : State) : Host.Outcome State Fault Refusal :=
  s.finish s.blockCheck fun s => .ok (performEcb (Config.dec s.key) s)

/-! ### CBC -/

/-- `if init = 1: CHAIN <- IV` (30_encoding.md R62). -/
def State.initChain (s : State) (init : Bool) : State :=
  if init then s.setChain s.iv else s

/-- One iteration of CBC_ENC: `C <- Enc(P XOR CHAIN)`, stored and kept in CHAIN (41_ecb_cbc.md R85). -/
def cbcEncStep (e : Block → Block) (src dst i : Nat) (s : State) : State :=
  let c := e (xorBlock (s.readBlock (src + 16 * i)) s.chain)
  (s.writeBlock (dst + 16 * i) c).setChain c

/-- The CBC_ENC loop over the blocks 0 to n-1. -/
def cbcEncLoop (e : Block → Block) (src dst : Nat) : Nat → State → State
  | 0, s => s
  | n + 1, s => cbcEncStep e src dst n (cbcEncLoop e src dst n s)

/-- `Perform_CBC_ENC(init)` (41_ecb_cbc.md R85). -/
def performCbcEnc (e : Block → Block) (init : Bool) (s : State) : State :=
  (cbcEncLoop e s.srcOff s.dstOff (s.lenBytes / 16) (s.initChain init)).setRlen s.len

/-- CBC_ENC (41_ecb_cbc.md R85). -/
def execCbcEnc (init : Bool) (s : State) : Host.Outcome State Fault Refusal :=
  s.finish s.blockCheck fun s => .ok (performCbcEnc (Config.enc s.key) init s)

/-- One iteration of CBC_DEC: `P <- Dec(C) XOR CHAIN`, with C captured into CHAIN before P is stored
(41_ecb_cbc.md R86). -/
def cbcDecStep (d : Block → Block) (src dst i : Nat) (s : State) : State :=
  let c := s.readBlock (src + 16 * i)
  (s.writeBlock (dst + 16 * i) (xorBlock (d c) s.chain)).setChain c

/-- The CBC_DEC loop over the blocks 0 to n-1. -/
def cbcDecLoop (d : Block → Block) (src dst : Nat) : Nat → State → State
  | 0, s => s
  | n + 1, s => cbcDecStep d src dst n (cbcDecLoop d src dst n s)

/-- `Perform_CBC_DEC(init)` (41_ecb_cbc.md R86). -/
def performCbcDec (d : Block → Block) (init : Bool) (s : State) : State :=
  (cbcDecLoop d s.srcOff s.dstOff (s.lenBytes / 16) (s.initChain init)).setRlen s.len

/-- CBC_DEC (41_ecb_cbc.md R86). -/
def execCbcDec (init : Bool) (s : State) : Host.Outcome State Fault Refusal :=
  s.finish s.blockCheck fun s => .ok (performCbcDec (Config.dec s.key) init s)

/-! ### CTR -/

/-- The keystream block `KS(c)` for the block function `e` (42_ctr.md R91). -/
def keystream (e : Block → Block) (nonce : Nonce) (c : BitVec 64) : Block := e (counterBlock nonce c)

/-- `if init = 1: CTR <- 0` (30_encoding.md R62). -/
def State.initCtr (s : State) (init : Bool) : State :=
  if init then s.setCtr 0 else s

/-- One iteration of CTR_XF on block `j` of a message of `len` bytes; the final block may be partial
(42_ctr.md R92). -/
def ctrStep (e : Block → Block) (src dst len j : Nat) (s : State) : State :=
  let r := min 16 (len - 16 * j)
  let x := s.memRead (src + 16 * j) r
  let k := keystream e s.nonce s.ctr
  (s.memWrite (dst + 16 * j) (xorBytes x k.toList)).setCtr (s.ctr + 1)

/-- The CTR_XF loop over the blocks 0 to n-1 of a message of `len` bytes. -/
def ctrLoop (e : Block → Block) (src dst len : Nat) : Nat → State → State
  | 0, s => s
  | n + 1, s => ctrStep e src dst len n (ctrLoop e src dst len n s)

/-- The number of blocks of a CTR message: `ceil(LEN / 16)` (42_ctr.md R92). -/
def ctrBlocks (len : Nat) : Nat := (len + 15) / 16

/-- `Perform_CTR_XF(init)` (42_ctr.md R92). -/
def performCtr (e : Block → Block) (init : Bool) (s : State) : State :=
  (ctrLoop e s.srcOff s.dstOff s.lenBytes (ctrBlocks s.lenBytes) (s.initCtr init)).setRlen s.len

/-- CTR_XF (42_ctr.md R92). -/
def execCtrXf (init : Bool) (s : State) : Host.Outcome State Fault Refusal :=
  s.finish (s.bufferCheck (some s.lenBytes)) fun s => .ok (performCtr (Config.enc s.key) init s)

end Sys2Proof.Machine
end

