-- ==== Sys2Proof/Machine/Mt19937.lean ====
section
/-!
DEFINITION. The MT19937 datapath and its five commands (44_mt19937.md R101 to R110).
-/

namespace Sys2Proof.Machine

open Sys2Proof

/-! ### Datapath -/

/-- One step of the seeding recurrence: word `i` from word `i-1` (44_mt19937.md R101). Multiplication
modulo 2^32 is `low32` of the integer product. -/
def seedNext (prev : Word) (i : Nat) : Word :=
  1812433253#32 * (prev ^^^ (prev >>> 30)) + BitVec.ofNat 32 i

/-- The `n` words after word `i-1 = prev` of the seeding recurrence. -/
def seedTail : Nat → Nat → Word → List Word
  | 0, _, _ => []
  | n + 1, i, prev => seedNext prev i :: seedTail n (i + 1) (seedNext prev i)

/-- The tail has the length it is asked for. -/
theorem seedTail_length (n i : Nat) (p : Word) : (seedTail n i p).length = n := by
  induction n generalizing i p with
  | zero => rfl
  | succ n ih => simp [seedTail, ih]

/-- `SeedWords(s)` (44_mt19937.md R101). -/
def seedWords (s : Word) : MtArray :=
  ⟨⟨s :: seedTail 623 1 s⟩, by simp [seedTail_length]⟩

/-- Iteration `i` of `Twist`, in place (44_mt19937.md R102). -/
def twistStep (mt : MtArray) (i : Nat) : MtArray :=
  let y := (mt.getD i 0 &&& 0x80000000#32) ||| (mt.getD ((i + 1) % 624) 0 &&& 0x7FFFFFFF#32)
  let v := mt.getD ((i + 397) % 624) 0 ^^^ (y >>> 1)
  mt.setIfInBounds i (if y.getLsbD 0 then v ^^^ 0x9908B0DF#32 else v)

/-- The iterations 0 to n-1 of `Twist`, in increasing order. -/
def twistLoop : Nat → MtArray → MtArray
  | 0, mt => mt
  | n + 1, mt => twistStep (twistLoop n mt) n

/-- `Twist(mt)` (44_mt19937.md R102). -/
def twist (mt : MtArray) : MtArray := twistLoop 624 mt

/-- `Temper(y)` (44_mt19937.md R103). -/
def temper (y : Word) : Word :=
  let y1 := y ^^^ (y >>> 11)
  let y2 := y1 ^^^ ((y1 <<< 7) &&& 0x9D2C5680#32)
  let y3 := y2 ^^^ ((y2 <<< 15) &&& 0xEFC60000#32)
  y3 ^^^ (y3 >>> 18)

/-- The number of stages of an inverse step: `ceil(32 / s) - 1` (44_mt19937.md R104). -/
def invStages (s : Nat) : Nat := (32 + s - 1) / s - 1

/-- `n` stages of `r <- y ^ (r >> s)`, from `r = y` (44_mt19937.md R104). -/
def invRStage (y : Word) (s : Nat) : Nat → Word
  | 0 => y
  | n + 1 => y ^^^ (invRStage y s n >>> s)

/-- `InvR(y, s)` (44_mt19937.md R104). -/
def invR (y : Word) (s : Nat) : Word := invRStage y s (invStages s)

/-- `n` stages of `r <- y ^ ((r << s) & m)`, from `r = y` (44_mt19937.md R104). -/
def invLStage (y : Word) (s : Nat) (m : Word) : Nat → Word
  | 0 => y
  | n + 1 => y ^^^ ((invLStage y s m n <<< s) &&& m)

/-- `InvL(y, s, m)` (44_mt19937.md R104). -/
def invL (y : Word) (s : Nat) (m : Word) : Word := invLStage y s m (invStages s)

/-- `Untemper(y)` (44_mt19937.md R104). -/
def untemper (y : Word) : Word :=
  let x3 := invR y 18
  let x2 := invL x3 15 0xEFC60000#32
  let x1 := invL x2 7 0x9D2C5680#32
  invR x1 11

/-! ### Commands -/

/-- `Perform_MT_SEED` (44_mt19937.md R106). -/
def performMtSeed (s : State) : State :=
  ((s.setMt (seedWords s.mtSeed)).setMtCursor 624).setMtCidx 0

/-- MT_SEED (44_mt19937.md R106). -/
def execMtSeed (s : State) : Host.Outcome State Fault Refusal :=
  s.finish .ok fun s => .ok (performMtSeed s)

/-- `if MT_CURSOR = 624: Twist(mt); MT_CURSOR <- 0` (44_mt19937.md R107). -/
def State.twistIfDue (s : State) : State :=
  if s.mtCursor.val = 624 then (s.setMt (twist s.mt)).setMtCursor 0 else s

/-- `Perform_MT_EXTRACT` (44_mt19937.md R107). The Unseeded test comes before the twist test. -/
def performMtExtract (s : State) : Except ErrCode State :=
  if 624 < s.mtCursor.val then .error .notSeeded
  else
    let t := s.twistIfDue
    .ok ((t.setMtOut (temper (t.mt.getD t.mtCursor.val 0))).setMtCursor (t.mtCursor + 1))

/-- MT_EXTRACT (44_mt19937.md R107). -/
def execMtExtract (s : State) : Host.Outcome State Fault Refusal := s.finish .ok performMtExtract

/-- MT_TEMPER (44_mt19937.md R108). -/
def execMtTemper (s : State) : Host.Outcome State Fault Refusal :=
  s.finish .ok fun s => .ok (s.setMtTout (temper s.mtTin))

/-- MT_UNTEMPER (44_mt19937.md R109). -/
def execMtUntemper (s : State) : Host.Outcome State Fault Refusal :=
  s.finish .ok fun s => .ok (s.setMtTout (untemper s.mtTin))

/-- `Perform_MT_CLONE` (44_mt19937.md R110): at index 0 a load begins and unseeds the engine; at index
623 it completes and seeds it. -/
def performMtClone (s : State) : State :=
  let w := untemper s.mtTin
  let t := if s.mtCidx.val = 0 then s.setMtCursor 625 else s
  let u := (t.setMt (t.mt.setIfInBounds t.mtCidx.val w)).setMtTout w
  if s.mtCidx.val = 623 then (u.setMtCidx 0).setMtCursor 624 else u.setMtCidx (u.mtCidx + 1)

/-- MT_CLONE (44_mt19937.md R110). -/
def execMtClone (s : State) : Host.Outcome State Fault Refusal :=
  s.finish .ok fun s => .ok (performMtClone s)

end Sys2Proof.Machine
end

