-- ==== Sys2Proof/Machine/Pkcs7.lean ====
section
/-!
DEFINITION. PKCS#7 pad and strip (43_pkcs7.md R97, R98).
-/

namespace Sys2Proof.Machine

open Sys2Proof

/-- `Perform_PAD(bs)` (43_pkcs7.md R97). -/
def performPad (bs : Nat) (s : State) : State :=
  let p := padValue bs s.lenBytes
  let d := s.memRead s.srcOff s.lenBytes
  (s.memWrite s.dstOff (d ++ List.replicate p (BitVec.ofNat 8 p))).setRlen (BitVec.ofNat 32 (s.lenBytes + p))

/-- PAD (43_pkcs7.md R97). -/
def execPad (bs : Nat) (s : State) : Host.Outcome State Fault Refusal :=
  s.finish (s.padCheck bs) fun s => .ok (performPad bs s)

/-- STRIP's loop: each of the last `n` bytes before offset `stop` is `p` (43_pkcs7.md R98). -/
def lastBytesAre (s : State) (stop : Nat) (p : Byte) : Nat → Bool
  | 0 => true
  | n + 1 => s.readByte (stop - (n + 1)) == p && lastBytesAre s stop p n

/-- `Perform_STRIP` (43_pkcs7.md R98). -/
def performStrip (s : State) : Except ErrCode State :=
  if s.lenBytes = 0 then .error .invalidPadding
  else
    let p := s.readByte (s.srcOff + s.lenBytes - 1)
    if p.toNat = 0 then .error .invalidPadding
    else if s.lenBytes < p.toNat then .error .invalidPadding
    else if lastBytesAre s (s.srcOff + s.lenBytes) p p.toNat then
      .ok (s.setRlen (BitVec.ofNat 32 (s.lenBytes - p.toNat)))
    else .error .invalidPadding

/-- STRIP makes only the range check of its input (40_command_cycle.md R75, 43_pkcs7.md R98). -/
def execStrip (s : State) : Host.Outcome State Fault Refusal :=
  s.finish (s.bufferCheck none) performStrip

end Sys2Proof.Machine
end

