-- ==== Sys2Proof/Machine/Dispatch.lean ====
section
/-!
DEFINITION. One arm per command: `Execute` after decoding, with its completion (40_command_cycle.md R71, R72).
-/

namespace Sys2Proof.Machine

open Sys2Proof

def exec (i : Instr) (s : State) : Host.Outcome State Fault Refusal :=
  match i with
  | .nop => Sys2Proof.Machine.execNop s
  | .ecbEnc => Sys2Proof.Machine.execEcbEnc s
  | .ecbDec => Sys2Proof.Machine.execEcbDec s
  | .cbcEnc init => Sys2Proof.Machine.execCbcEnc init s
  | .cbcDec init => Sys2Proof.Machine.execCbcDec init s
  | .ctrXf init => Sys2Proof.Machine.execCtrXf init s
  | .pad bs => Sys2Proof.Machine.execPad bs s
  | .strip => Sys2Proof.Machine.execStrip s
  | .mtSeed => Sys2Proof.Machine.execMtSeed s
  | .mtExtract => Sys2Proof.Machine.execMtExtract s
  | .mtTemper => Sys2Proof.Machine.execMtTemper s
  | .mtUntemper => Sys2Proof.Machine.execMtUntemper s
  | .mtClone => Sys2Proof.Machine.execMtClone s

end Sys2Proof.Machine
end

