-- ==== Sys2Proof/Machine/Engine.lean ====
section
/-!
DEFINITION. The agents' steps: the engine's, and what one entry of `inputs` does
(00_scope.md R10, 40_command_cycle.md R71, R72, 20_memory.md R53).
-/

namespace Sys2Proof.Machine

open Sys2Proof

/-- `EngineStep` with its guard: enabled exactly when BUSY = 1. An illegal word completes with
ILLEGAL_CMD and changes nothing else (40_command_cycle.md R71, R72, 30_encoding.md R66). -/
def State.engineStep (s : State) : Host.Outcome State Fault Refusal :=
  if s.busy then
    match decode s.cmd with
    | .ok i => exec i s
    | .error _ => .next (s.complete .illegalCmd)
  else .next s

/-- What one entry of `inputs` does to the block (20_memory.md R47, R48, 70_reset_and_hazards.md R129). -/
def State.applyEvent (s : State) : BusEvent → Host.Outcome State Fault Refusal
  | .read a => .next (s.hostRead a)
  | .write a v => .next (s.hostWrite a v)
  | .engine => s.engineStep
  | .reset => .next s.hardReset

/-- One turn of the schedule: the first entry of `inputs`, or the engine where there is none
(notes/assumptions/1.md). -/
def State.turn (s : State) : Host.Outcome State Fault Refusal :=
  match s.inputs with
  | [] => s.engineStep
  | e :: rest => (s.setInputs rest).applyEvent e

/-- A command word placed in the command latch as an accepted CMD write places it (40_command_cycle.md
R70), with the next turn the engine's. notes/assumptions/11.md. -/
def State.latchCommand (s : State) (v : Word) : State := (s.setInputs []).issue v

end Sys2Proof.Machine
end

