-- ==== Sys2Proof/Machine/Step.lean ====
section
/-!
DEFINITION. One step of the machine, and the placing of a command for it.
-/

namespace Sys2Proof.Machine

open Sys2Proof

/-- One step: one turn of one agent (20_memory.md R53). -/
def step (s : State) : Host.Outcome State Fault Refusal := s.turn

/-- The state whose next step runs the command of `nbits` bits `w`. The block fetches nothing
(10_state.md R17): a command stands in the latch (BUSY, CMD). notes/assumptions/11.md. -/
def State.withFetchWord (s : State) (nbits w : Nat) : State :=
  s.latchCommand (BitVec.ofNat 32 (w % 2 ^ nbits))

end Sys2Proof.Machine
end

