-- ==== Sys2Proof/Safety.lean ====
section
/-!
DEFINITION. The terms in which claims about runs are stated.
-/

namespace Sys2Proof.Machine

open Sys2Proof

/-- The invariant of every reachable state. The buffer's list is canonical and lies inside the buffer
(20_memory.md R41, R54). A clone load in progress is Unseeded (44_mt19937.md R110). A pending command has
DONE and ERR cleared by its issue (40_command_cycle.md R70). -/
structure StateInv (s : State) : Prop where
  bufCanonical : s.buf.wf
  bufInside : ∀ c ∈ s.buf, c.1 < s.bufBytes
  cloneUnseeded : s.mtCidx ≠ 0 → s.mtCursor = 625
  pendingClean : s.busy = true → s.done = false ∧ s.err = .ok

/-- `k` steps from `s` give `t`. -/
def Runs (s : State) (k : Nat) (t : State) : Prop := Sys2Proof.core.run k s = .next t

/-- Input and output of `n` bytes are the same range or disjoint (40_command_cycle.md R76). -/
def Apart (src dst n : Nat) : Prop := src = dst ∨ src + n ≤ dst ∨ dst + n ≤ src

/-- An offset outside the `n` bytes from `lo`. -/
def Outside (lo n o : Nat) : Prop := o < lo ∨ lo + n ≤ o

/-- A whole-block or CTR command's operands pass the range and overlap checks of output length LEN
(40_command_cycle.md R75, R76). -/
def CopyOperandsOk (s : State) : Prop :=
  s.src.toNat + s.len.toNat ≤ s.bufBytes ∧ s.dst.toNat + s.len.toNat ≤ s.bufBytes ∧
    Apart s.src.toNat s.dst.toNat s.len.toNat

/-- `s` after a command that completes with code `e` and has no other effect (40_command_cycle.md R78,
R79). -/
def completedWith (s : State) (e : ErrCode) : State := { s with busy := false, done := true, err := e }

/-- The state after a command that answers a next state. -/
def afterExec (i : Instr) (s : State) : State :=
  match exec i s with
  | .next t => t
  | _ => s

/-- `n` MT_EXTRACT commands: the outputs in order, and the state after them. -/
def extractMany : Nat → State → List Word × State
  | 0, s => ([], s)
  | n + 1, s =>
    let t := afterExec .mtExtract s
    (t.mtOut :: (extractMany n t).1, (extractMany n t).2)

/-- One MT_CLONE command for each given output, in order, with the output written to MT_TIN. -/
def cloneMany : List Word → State → State
  | [], s => s
  | o :: os, s => cloneMany os (afterExec .mtClone { s with mtTin := o })

/-- PKCS#7 padding at the end of the `len` bytes from `src` (43_pkcs7.md R98): the last byte `p` is not 0
and at most `len`, and each of the last `p` bytes is `p`. -/
def ValidPadding (s : State) (src len : Nat) : Prop :=
  0 < len ∧ 0 < (s.readByte (src + len - 1)).toNat ∧ (s.readByte (src + len - 1)).toNat ≤ len ∧
    ∀ k, 1 ≤ k → k ≤ (s.readByte (src + len - 1)).toNat →
      s.readByte (src + len - k) = s.readByte (src + len - 1)

/-- The unmapped part of the host bus space of a block with `size` buffer bytes (20_memory.md R40). -/
def Unmapped (size : Nat) (a : Addr) : Prop :=
  (0x24 ≤ a.toNat ∧ a.toNat ≤ 0x2F) ∨ (0x88 ≤ a.toNat ∧ a.toNat ≤ 0xFFF) ∨
    0x1000 + size ≤ a.toNat

/-- The addresses of the RO registers (10_state.md R15): ID, VERSION, RLEN, MT_OUT, MT_TOUT, MT_CURSOR,
MT_CIDX. -/
def readOnlyAddrs : List Addr := [0x000, 0x004, 0x020, 0x074, 0x07C, 0x080, 0x084]

/-- The accesses that set BUSERR (20_memory.md R49). -/
def IllegalAccess (s : State) : BusEvent → Prop
  | .read a => a.toNat % 4 ≠ 0 ∨ Unmapped s.bufBytes a
  | .write a _ =>
    a.toNat % 4 ≠ 0 ∨ Unmapped s.bufBytes a ∨ a ∈ readOnlyAddrs ∨ (s.busy = true ∧ a ≠ 0x00C ∧ a ≠ 0x008)
  | .engine => False
  | .reset => False

/-- An event that clears BUSERR (20_memory.md R49): a STATUS write with bit 2, or a reset. -/
def ClearsBuserr : BusEvent → Prop
  | .write a v => (a = 0x00C ∧ v.getLsbD 2 = true) ∨ (a = 0x008 ∧ v.getLsbD 1 = true)
  | .reset => True
  | .read _ => False
  | .engine => False

/-- The word whose value is the sum of four bytes, the byte at the lowest address weighing 1 (20_memory.md
R42). -/
def wordSum (b0 b1 b2 b3 : Byte) : Word :=
  BitVec.ofNat 32 (b0.toNat + 2 ^ 8 * b1.toNat + 2 ^ 16 * b2.toNat + 2 ^ 24 * b3.toNat)

/-- Byte `i` of a number, byte 0 weighing 1: `(v >> 8i) mod 256` (00_scope.md R13). -/
def byteDigit (v i : Nat) : Byte := BitVec.ofNat 8 (v / 2 ^ (8 * i))

/-- The 16 bytes of the input of keystream block `c`: the nonce at bytes 0 to 7, then the bytes of the
counter, lowest first, at bytes 8 to 15 (20_memory.md R44, 42_ctr.md R91). -/
def keystreamInput (nonce : Nonce) (c : Nat) : Block :=
  #v[nonce[0], nonce[1], nonce[2], nonce[3], nonce[4], nonce[5], nonce[6], nonce[7],
    byteDigit c 0, byteDigit c 1, byteDigit c 2, byteDigit c 3, byteDigit c 4, byteDigit c 5, byteDigit c 6, byteDigit c 7]

/-- What the host reads at each register address while the block is idle (10_state.md R15 to R36,
20_memory.md R42). -/
def registerReads (s : State) : List (Addr × Word) :=
  [(0x000, 0x42434D31), (0x004, 0x00010000), (0x008, if s.ie then 1 else 0), (0x00C, s.statusWord),
   (0x010, s.cmd), (0x014, s.src), (0x018, s.dst), (0x01C, s.len), (0x020, s.rlen),
   (0x030, 0), (0x034, 0), (0x038, 0), (0x03C, 0),
   (0x040, wordSum s.iv[0] s.iv[1] s.iv[2] s.iv[3]), (0x044, wordSum s.iv[4] s.iv[5] s.iv[6] s.iv[7]),
   (0x048, wordSum s.iv[8] s.iv[9] s.iv[10] s.iv[11]), (0x04C, wordSum s.iv[12] s.iv[13] s.iv[14] s.iv[15]),
   (0x050, wordSum s.chain[0] s.chain[1] s.chain[2] s.chain[3]),
   (0x054, wordSum s.chain[4] s.chain[5] s.chain[6] s.chain[7]),
   (0x058, wordSum s.chain[8] s.chain[9] s.chain[10] s.chain[11]),
   (0x05C, wordSum s.chain[12] s.chain[13] s.chain[14] s.chain[15]),
   (0x060, wordSum s.nonce[0] s.nonce[1] s.nonce[2] s.nonce[3]),
   (0x064, wordSum s.nonce[4] s.nonce[5] s.nonce[6] s.nonce[7]),
   (0x068, BitVec.ofNat 32 (s.ctr.toNat % 2 ^ 32)), (0x06C, BitVec.ofNat 32 (s.ctr.toNat / 2 ^ 32)),
   (0x070, s.mtSeed), (0x074, s.mtOut), (0x078, s.mtTin), (0x07C, s.mtTout),
   (0x080, BitVec.ofNat 32 s.mtCursor.val), (0x084, BitVec.ofNat 32 s.mtCidx.val)]

/-- What an idle block does with a host write of `v` to each writable register address but STATUS and
CTRL (20_memory.md R48): the wide registers take the four bytes of `v`, lowest first. -/
def registerWrites (s : State) (v : Word) : List (Addr × State) :=
  [(0x010, { s with cmd := v, busy := true, done := false, err := .ok }),
   (0x014, { s with src := v }), (0x018, { s with dst := v }), (0x01C, { s with len := v }),
   (0x030, { s with key := bytesWritten s.key 0 v }), (0x034, { s with key := bytesWritten s.key 4 v }),
   (0x038, { s with key := bytesWritten s.key 8 v }), (0x03C, { s with key := bytesWritten s.key 12 v }),
   (0x040, { s with iv := bytesWritten s.iv 0 v }), (0x044, { s with iv := bytesWritten s.iv 4 v }),
   (0x048, { s with iv := bytesWritten s.iv 8 v }), (0x04C, { s with iv := bytesWritten s.iv 12 v }),
   (0x050, { s with chain := bytesWritten s.chain 0 v }), (0x054, { s with chain := bytesWritten s.chain 4 v }),
   (0x058, { s with chain := bytesWritten s.chain 8 v }), (0x05C, { s with chain := bytesWritten s.chain 12 v }),
   (0x060, { s with nonce := bytesWritten s.nonce 0 v }), (0x064, { s with nonce := bytesWritten s.nonce 4 v }),
   (0x068, { s with ctr := BitVec.ofNat 64 (s.ctr.toNat / 2 ^ 32 * 2 ^ 32 + v.toNat) }),
   (0x06C, { s with ctr := BitVec.ofNat 64 (v.toNat * 2 ^ 32 + s.ctr.toNat % 2 ^ 32) }),
   (0x070, { s with mtSeed := v }), (0x078, { s with mtTin := v })]
where
  /-- A wide register with `LE32(v)` stored at its bytes `i .. i+3`. -/
  bytesWritten {n : Nat} (r : Vector Byte n) (i : Nat) (v : Word) : Vector Byte n :=
    (((r.setIfInBounds i (byteDigit v.toNat 0)).setIfInBounds (i + 1) (byteDigit v.toNat 1)).setIfInBounds (i + 2)
      (byteDigit v.toNat 2)).setIfInBounds (i + 3) (byteDigit v.toNat 3)

/-- Two states that differ at most in the MT19937 words no rule can observe (70_reset_and_hazards.md
R133): `m` agrees with `s.mt` on the words a clone load in progress has loaded, and `s` is Unseeded. -/
def MtHidden (s : State) (m : MtArray) : Prop :=
  s.mtCursor = 625 ∧ ∀ j (h : j < 624), j < s.mtCidx.val → m[j] = s.mt[j]

end Sys2Proof.Machine
end

