-- ==== Sys2Proof/WellFormed.lean ====
section
/-!
DEFINITION. Which terms of `Instr` have an encoding.
-/

namespace Sys2Proof

/-- BS is an 8-bit field (30_encoding.md R63): a block size that does not fit in it has no encoding.
BS = 0 has one, and its command completes with BAD_ARG. Every other command is always well formed. -/
def Instr.wf : Instr → Bool
  | .nop => true
  | .ecbEnc => true
  | .ecbDec => true
  | .cbcEnc _ => true
  | .cbcDec _ => true
  | .ctrXf _ => true
  | .pad bs => decide (bs < 256)
  | .strip => true
  | .mtSeed => true
  | .mtExtract => true
  | .mtTemper => true
  | .mtUntemper => true
  | .mtClone => true

end Sys2Proof
end

