-- ==== Sys2Proof/Certificates/Slice0/Obligations.lean ====
section
/-!
DEFINITION. The statements for the provers, from the spec's numbered rules. `completedWith u e` is the
state `u` with BUSY = 0, DONE = 1, ERR = e; a statement of the form `t = completedWith s with some fields e`
is the command's whole frame.
-/

open Sys2Proof Sys2Proof.Machine

/-! ### Decoding and encoding (30_encoding.md) -/

/-- Decoding the word of any well-formed command gives the command back (30_encoding.md R61, R65). -/
def Obligations.DecodeOfEncode : Prop :=
  ∀ i : Instr, i.wf = true → decode (encode i) = .ok i

/-- A word that decodes to a command is that command's only word (30_encoding.md R65: every fixed-form
row is matched on the whole word, INIT and BS are the only free fields). -/
def Obligations.EncodeOfDecode : Prop :=
  ∀ (w : Word) (i : Instr), decode w = .ok i → i.wf = true ∧ encode i = w

/-- 30_encoding.md R66: exactly which words are illegal; an illegal word is accepted as any command is
and completes with ILLEGAL_CMD, changing no other state. -/
def Obligations.IllegalWords : Prop :=
  (∀ w : Word, (∃ e, decode w = .error e) ↔
    (w.toNat % 256 ∉ [0x00, 0x01, 0x02, 0x03, 0x04, 0x05, 0x06, 0x07, 0x10, 0x11, 0x12, 0x13, 0x14] ∨
      (w.toNat / 2 ^ 9 % 2 ^ 7 ≠ 0 ∨ w.toNat / 2 ^ 24 ≠ 0) ∨
      (w.toNat / 2 ^ 8 % 2 = 1 ∧ w.toNat % 256 ∉ [0x03, 0x04, 0x05]) ∨
      (w.toNat / 2 ^ 16 % 256 ≠ 0 ∧ w.toNat % 256 ≠ 0x06))) ∧
  (∀ (s : State) (w : Word) (e : Illegal), s.busy = false → decode w = .error e →
    s.hostWrite 0x010 w = { s with cmd := w, busy := true, done := false, err := .ok }) ∧
  (∀ (s : State) (e : Illegal), s.busy = true → decode s.cmd = .error e →
    s.engineStep = .next (completedWith s .illegalCmd))

/-- The command words that the worked rows of 30_encoding.md R65 write out, decoded. -/
def Obligations.TableWordsDecode : Prop :=
  decode 0x00000000 = .ok .nop ∧ decode 0x00000001 = .ok .ecbEnc ∧ decode 0x00000002 = .ok .ecbDec ∧
  decode 0x00000003 = .ok (.cbcEnc false) ∧ decode 0x00000103 = .ok (.cbcEnc true) ∧
  decode 0x00000104 = .ok (.cbcDec true) ∧ decode 0x00000105 = .ok (.ctrXf true) ∧
  decode 0x00100006 = .ok (.pad 16) ∧ decode 0x00000006 = .ok (.pad 0) ∧ decode 0x00000007 = .ok .strip ∧
  decode 0x00000010 = .ok .mtSeed ∧ decode 0x00000011 = .ok .mtExtract ∧
  decode 0x00000012 = .ok .mtTemper ∧ decode 0x00000013 = .ok .mtUntemper ∧
  decode 0x00000014 = .ok .mtClone

/-! ### The machine (40_command_cycle.md, 20_memory.md section 5) -/

/-- A pending command whose word decodes to `i` is executed by the engine's turn: the step is `exec i` on
the state, with the schedule's `engine` entry consumed where there is one (40_command_cycle.md R71, R72; the
schedule `inputs` is the model's choice: notes/assumptions/1.md). -/
def Obligations.StepRunsDecodedCommand : Prop :=
  ∀ (s : State) (i : Instr), s.busy = true → decode s.cmd = .ok i →
    (s.inputs = [] → step s = exec i s) ∧
    (∀ rest, s.inputs = .engine :: rest → step s = exec i { s with inputs := rest })

/-- Every step keeps the invariant, from every state that meets it, whatever the host does: the buffer's
list is canonical and lies inside the buffer, a clone load in progress is Unseeded, a pending command has
DONE and ERR clear. (The list that holds the buffer is the model's choice: notes/assumptions/3.md.) -/
def Obligations.StepKeepsStateInv : Prop :=
  ∀ s t : State, StateInv s → step s = .next t → StateInv t

/-- The reset state, and the state after reset of a block with any buffer size, meets the invariant: no
clone load and no pending command (70_reset_and_hazards.md R129). The spec leaves BUF unspecified after reset
(R132); that its list is empty there, so canonical and inside the buffer, is the model's choice:
notes/assumptions/3.md and 4.md. -/
def Obligations.ResetMeetsStateInv : Prop :=
  StateInv State.reset ∧ ∀ n, StateInv (State.resetWith n)

/-- The block has no fault, hang or refusal outcome (00_scope.md R11): every step of every state answers
a next state. -/
def Obligations.EveryStepAnswersNext : Prop := ∀ s : State, ∃ t, step s = .next t

/-- A pending command completes, or a reset abandons it, within the host steps the schedule holds plus one
(40_command_cycle.md R71, 70_reset_and_hazards.md R146: an enabled engine step is taken after finitely many
host steps). That the schedule is the finite list `inputs`, with the engine's turn after it, is the model's
choice: notes/assumptions/1.md. -/
def Obligations.PendingCommandEnds : Prop :=
  ∀ s : State, s.busy = true →
    ∃ k t, 1 ≤ k ∧ k ≤ s.inputs.length + 1 ∧ Runs s k t ∧ t.busy = false

/-- 40_command_cycle.md R78: the engine's step of a pending command ends with BUSY = 0 and DONE = 1, `irq`
then follows CTRL.IE, and no other step sets DONE. -/
def Obligations.CompletionSetsDone : Prop :=
  (∀ s t : State, s.busy = true → s.engineStep = .next t →
    t.busy = false ∧ t.done = true ∧ t.irq = s.ie) ∧
  (∀ s t : State, step s = .next t → s.done = false → t.done = true →
    s.busy = true ∧ (s.inputs = [] ∨ ∃ rest, s.inputs = .engine :: rest))

/-- 40_command_cycle.md R79: a pending command that completes with a nonzero ERR changes no state other
than BUSY, DONE and ERR. -/
def Obligations.FailedCommandIsPrecise : Prop :=
  ∀ s t : State, s.busy = true → s.engineStep = .next t → t.err ≠ .ok → t = completedWith s t.err

/-- What a command never writes, whatever it is and however it ends: CTRL.IE, BUSERR, CMD, SRC, DST, LEN,
KEY, IV, NONCE, MT_SEED, MT_TIN; and each remaining register is written only by the commands that
30_encoding.md R65 lists for it. -/
def Obligations.CommandFrame : Prop :=
  ∀ (i : Instr) (s t : State), exec i s = .next t →
    (t.ie = s.ie ∧ t.buserr = s.buserr ∧ t.cmd = s.cmd ∧ t.src = s.src ∧ t.dst = s.dst ∧ t.len = s.len ∧
      t.key = s.key ∧ t.iv = s.iv ∧ t.nonce = s.nonce ∧ t.mtSeed = s.mtSeed ∧ t.mtTin = s.mtTin ∧
      t.bufSize = s.bufSize ∧ t.inputs = s.inputs ∧ t.rdata = s.rdata ∧ t.busyReads = s.busyReads ∧
      t.powerOns = s.powerOns) ∧
    (t.chain ≠ s.chain → ∃ b, i = .cbcEnc b ∨ i = .cbcDec b) ∧
    (t.ctr ≠ s.ctr → ∃ b, i = .ctrXf b) ∧
    (t.mtOut ≠ s.mtOut → i = .mtExtract) ∧
    (t.mtTout ≠ s.mtTout → i = .mtTemper ∨ i = .mtUntemper ∨ i = .mtClone) ∧
    (t.mtCidx ≠ s.mtCidx → i = .mtSeed ∨ i = .mtClone) ∧
    ((t.mt ≠ s.mt ∨ t.mtCursor ≠ s.mtCursor) → i = .mtSeed ∨ i = .mtExtract ∨ i = .mtClone) ∧
    (t.rlen ≠ s.rlen → i ∉ [.nop, .mtSeed, .mtExtract, .mtTemper, .mtUntemper, .mtClone]) ∧
    ((∃ o, t.readByte o ≠ s.readByte o) →
      i ∉ [.nop, .strip, .mtSeed, .mtExtract, .mtTemper, .mtUntemper, .mtClone])

/-- An engine access never leaves the buffer (20_memory.md R54): no command changes a byte at an offset of
BUF_BYTES or more, whatever its operands; and no command reads one: on a state `v` that differs from `s` in the
buffer alone and agrees with it on every byte inside, the command does the same. -/
def Obligations.EngineStaysInsideBuffer : Prop :=
  ∀ (i : Instr) (s t : State), exec i s = .next t →
    (∀ o, s.bufBytes ≤ o → t.readByte o = s.readByte o) ∧
    ∀ v : State, v = { s with buf := v.buf } → (∀ o, o < s.bufBytes → v.readByte o = s.readByte o) →
      ∃ u, exec i v = .next u ∧ u = { t with buf := u.buf } ∧
        ∀ o, o < s.bufBytes → u.readByte o = t.readByte o

/-- 70_reset_and_hazards.md R136: while a command is pending, no step that leaves it pending changes its
word, an operand register, a buffer byte or any other state a command uses. -/
def Obligations.OperandsFrozenWhileBusy : Prop :=
  ∀ s t : State, s.busy = true → step s = .next t → t.busy = true →
    t = { s with
      ie := t.ie, done := t.done, buserr := t.buserr, inputs := t.inputs, rdata := t.rdata,
      busyReads := t.busyReads }

/-! ### Errors (40_command_cycle.md section 2, 60_exceptions.md) -/

/-- 40_command_cycle.md R74: the four whole-block commands complete with INVALID_LENGTH and change nothing
exactly when LEN is no multiple of 16, so LEN = 0 passes; CTR_XF, PAD and STRIP never do. -/
def Obligations.InvalidLength : Prop :=
  ∀ (s : State) (init : Bool) (bs : Nat),
    (∀ i, i ∈ [Instr.ecbEnc, .ecbDec, .cbcEnc init, .cbcDec init] →
      (s.len.toNat % 16 ≠ 0 → exec i s = .next (completedWith s .invalidLength)) ∧
      (s.len.toNat % 16 = 0 → ∀ t, exec i s = .next t → t.err ≠ .invalidLength)) ∧
    (∀ i, i ∈ [Instr.ctrXf init, .pad bs, .strip] → ∀ t, exec i s = .next t → t.err ≠ .invalidLength)

/-- 40_command_cycle.md R75: past the earlier checks, a buffer command completes with RANGE and changes
nothing exactly when its input or output range does not lie inside the buffer, on mathematical integers. -/
def Obligations.RangeError : Prop :=
  ∀ (s : State) (init : Bool) (bs : Nat),
    (∀ i, i ∈ [Instr.ecbEnc, .ecbDec, .cbcEnc init, .cbcDec init, .ctrXf init] →
      (s.len.toNat % 16 = 0 ∨ i = .ctrXf init) →
      (¬ (s.src.toNat + s.len.toNat ≤ s.bufBytes ∧ s.dst.toNat + s.len.toNat ≤ s.bufBytes) →
        exec i s = .next (completedWith s .range)) ∧
      (s.src.toNat + s.len.toNat ≤ s.bufBytes → s.dst.toNat + s.len.toNat ≤ s.bufBytes →
        ∀ t, exec i s = .next t → t.err ≠ .range)) ∧
    (0 < bs →
      (¬ (s.src.toNat + s.len.toNat ≤ s.bufBytes ∧
          s.dst.toNat + (s.len.toNat + (bs - s.len.toNat % bs)) ≤ s.bufBytes) →
        exec (.pad bs) s = .next (completedWith s .range)) ∧
      (s.src.toNat + s.len.toNat ≤ s.bufBytes →
        s.dst.toNat + (s.len.toNat + (bs - s.len.toNat % bs)) ≤ s.bufBytes →
        ∀ t, exec (.pad bs) s = .next t → t.err ≠ .range)) ∧
    (s.bufBytes < s.src.toNat + s.len.toNat → exec .strip s = .next (completedWith s .range)) ∧
    (s.src.toNat + s.len.toNat ≤ s.bufBytes → ∀ t, exec .strip s = .next t → t.err ≠ .range)

/-- Overlap (40_command_cycle.md R76): past the earlier checks, a buffer command that writes the buffer
completes with OVERLAP and changes nothing exactly when its input and output ranges overlap without being
equal; STRIP never does. -/
def Obligations.OverlapError : Prop :=
  ∀ (s : State) (init : Bool) (bs : Nat),
    (∀ i, i ∈ [Instr.ecbEnc, .ecbDec, .cbcEnc init, .cbcDec init, .ctrXf init] →
      (s.len.toNat % 16 = 0 ∨ i = .ctrXf init) →
      s.src.toNat + s.len.toNat ≤ s.bufBytes → s.dst.toNat + s.len.toNat ≤ s.bufBytes →
      (¬ Apart s.src.toNat s.dst.toNat s.len.toNat → exec i s = .next (completedWith s .overlap)) ∧
      (Apart s.src.toNat s.dst.toNat s.len.toNat → ∀ t, exec i s = .next t → t.err ≠ .overlap)) ∧
    (∀ n, 0 < bs → n = s.len.toNat + (bs - s.len.toNat % bs) →
      s.src.toNat + s.len.toNat ≤ s.bufBytes → s.dst.toNat + n ≤ s.bufBytes →
      (s.src.toNat ≠ s.dst.toNat ∧ 0 < s.len.toNat ∧ s.src.toNat < s.dst.toNat + n ∧
          s.dst.toNat < s.src.toNat + s.len.toNat →
        exec (.pad bs) s = .next (completedWith s .overlap)) ∧
      (s.src.toNat = s.dst.toNat ∨ s.len.toNat = 0 ∨ s.dst.toNat + n ≤ s.src.toNat ∨
          s.src.toNat + s.len.toNat ≤ s.dst.toNat →
        ∀ t, exec (.pad bs) s = .next t → t.err ≠ .overlap)) ∧
    (∀ t, exec .strip s = .next t → t.err ≠ .overlap)

/-- 40_command_cycle.md R77: the order of the checks. ILLEGAL_CMD comes before every check of operands;
BAD_ARG before RANGE and OVERLAP; INVALID_LENGTH before RANGE and OVERLAP; RANGE before OVERLAP and before
STRIP's INVALID_PADDING; and the MT commands and NOP ignore SRC, DST and LEN. -/
def Obligations.ErrorOrder : Prop :=
  (∀ (s : State) (e : Illegal), s.busy = true → decode s.cmd = .error e →
    s.engineStep = .next (completedWith s .illegalCmd)) ∧
  (∀ s : State, exec (.pad 0) s = .next (completedWith s .badArg)) ∧
  (∀ (s : State) (init : Bool) (i : Instr), i ∈ [Instr.ecbEnc, .ecbDec, .cbcEnc init, .cbcDec init] →
    s.len.toNat % 16 ≠ 0 → exec i s = .next (completedWith s .invalidLength)) ∧
  (∀ (s : State) (init : Bool) (bs : Nat) (i : Instr),
    i ∈ [Instr.ecbEnc, .ecbDec, .cbcEnc init, .cbcDec init, .ctrXf init, .pad bs, .strip] →
    (s.len.toNat % 16 = 0 ∨ i ∉ [Instr.ecbEnc, .ecbDec, .cbcEnc init, .cbcDec init]) → i ≠ .pad 0 →
    (s.bufBytes < s.src.toNat + s.len.toNat ∨
      (i ∉ [.pad bs, .strip] ∧ s.bufBytes < s.dst.toNat + s.len.toNat) ∨
      (i = .pad bs ∧ s.bufBytes < s.dst.toNat + (s.len.toNat + (bs - s.len.toNat % bs)))) →
    exec i s = .next (completedWith s .range)) ∧
  (∀ (s t : State) (i : Instr), i ∈ [Instr.nop, .mtSeed, .mtExtract, .mtTemper, .mtUntemper, .mtClone] →
    exec i s = .next t →
    (t.err = .ok ∨ (t.err = .notSeeded ∧ i = .mtExtract)) ∧
    ∀ a b c : Word, exec i { s with src := a, dst := b, len := c } =
      .next { t with src := a, dst := b, len := c })

/-! ### NOP and the cipher modes (41_ecb_cbc.md, 42_ctr.md) -/

/-- NOP has no effect but its completion (40_command_cycle.md R80). -/
def Obligations.NopCompletes : Prop := ∀ s : State, exec .nop s = .next (completedWith s .ok)

/-- ECB_ENC's result (41_ecb_cbc.md R83): each output block is Enc of the input block, no other byte
changes, and RLEN takes LEN. -/
def Obligations.EcbEncResult : Prop :=
  ∀ s : State, s.len.toNat % 16 = 0 → CopyOperandsOk s →
    ∃ t, exec .ecbEnc s = .next t ∧
      (∀ i, i < s.len.toNat / 16 → t.readBlock (s.dst.toNat + 16 * i) =
        Config.enc s.key (s.readBlock (s.src.toNat + 16 * i))) ∧
      (∀ o, Outside s.dst.toNat s.len.toNat o → t.readByte o = s.readByte o) ∧
      t = completedWith { s with buf := t.buf, rlen := s.len } .ok

/-- ECB_DEC's result (41_ecb_cbc.md R84). -/
def Obligations.EcbDecResult : Prop :=
  ∀ s : State, s.len.toNat % 16 = 0 → CopyOperandsOk s →
    ∃ t, exec .ecbDec s = .next t ∧
      (∀ i, i < s.len.toNat / 16 → t.readBlock (s.dst.toNat + 16 * i) =
        Config.dec s.key (s.readBlock (s.src.toNat + 16 * i))) ∧
      (∀ o, Outside s.dst.toNat s.len.toNat o → t.readByte o = s.readByte o) ∧
      t = completedWith { s with buf := t.buf, rlen := s.len } .ok

/-- CBC_ENC's result, both INIT forms (41_ecb_cbc.md R85): each output block is Enc of the input block XOR
the previous output block, the first one XOR IV (INIT = 1) or CHAIN (INIT = 0); CHAIN takes the last output
block. -/
def Obligations.CbcEncResult : Prop :=
  ∀ (init : Bool) (s : State), s.len.toNat % 16 = 0 → CopyOperandsOk s →
    ∃ t, exec (.cbcEnc init) s = .next t ∧
      (∀ i, i < s.len.toNat / 16 → t.readBlock (s.dst.toNat + 16 * i) =
        Config.enc s.key (xorBlock (s.readBlock (s.src.toNat + 16 * i))
          (if i = 0 then (if init then s.iv else s.chain)
            else t.readBlock (s.dst.toNat + 16 * (i - 1))))) ∧
      t.chain = (if s.len.toNat = 0 then (if init then s.iv else s.chain)
        else t.readBlock (s.dst.toNat + (s.len.toNat - 16))) ∧
      (∀ o, Outside s.dst.toNat s.len.toNat o → t.readByte o = s.readByte o) ∧
      t = completedWith { s with buf := t.buf, chain := t.chain, rlen := s.len } .ok

/-- CBC_DEC's result, both INIT forms (41_ecb_cbc.md R86): each output block is Dec of the input block XOR
the previous input block, the first one XOR IV (INIT = 1) or CHAIN (INIT = 0); CHAIN takes the last input
block. -/
def Obligations.CbcDecResult : Prop :=
  ∀ (init : Bool) (s : State), s.len.toNat % 16 = 0 → CopyOperandsOk s →
    ∃ t, exec (.cbcDec init) s = .next t ∧
      (∀ i, i < s.len.toNat / 16 → t.readBlock (s.dst.toNat + 16 * i) =
        xorBlock (Config.dec s.key (s.readBlock (s.src.toNat + 16 * i)))
          (if i = 0 then (if init then s.iv else s.chain)
            else s.readBlock (s.src.toNat + 16 * (i - 1)))) ∧
      t.chain = (if s.len.toNat = 0 then (if init then s.iv else s.chain)
        else s.readBlock (s.src.toNat + (s.len.toNat - 16))) ∧
      (∀ o, Outside s.dst.toNat s.len.toNat o → t.readByte o = s.readByte o) ∧
      t = completedWith { s with buf := t.buf, chain := t.chain, rlen := s.len } .ok

/-- CTR_XF's result, both INIT forms and any LEN (42_ctr.md R91, R92): byte `k` is XORed with byte
`k mod 16` of Enc of the nonce's bytes and the bytes of counter + k/16, lowest first (20_memory.md R44), and
CTR advances by `ceil(LEN/16)` modulo 2^64. -/
def Obligations.CtrXfResult : Prop :=
  ∀ (init : Bool) (s : State), CopyOperandsOk s →
    ∃ t, exec (.ctrXf init) s = .next t ∧
      (∀ k, k < s.len.toNat → t.readByte (s.dst.toNat + k) = s.readByte (s.src.toNat + k) ^^^
        (Config.enc s.key (keystreamInput s.nonce
          ((if init then 0 else s.ctr.toNat) + k / 16))).getD (k % 16) 0) ∧
      t.ctr = (if init then 0 else s.ctr) + BitVec.ofNat 64 ((s.len.toNat + 15) / 16) ∧
      (∀ o, Outside s.dst.toNat s.len.toNat o → t.readByte o = s.readByte o) ∧
      t = completedWith { s with buf := t.buf, ctr := t.ctr, rlen := s.len } .ok

/-- 41_ecb_cbc.md R87: after an ECB_ENC that completes with OK, two output blocks are equal when the two
input blocks are, and only then, since Enc is injective under one key. -/
def Obligations.EcbEqualBlocks : Prop :=
  ∀ (s t : State) (i j : Nat), exec .ecbEnc s = .next t → t.err = .ok →
    i < s.len.toNat / 16 → j < s.len.toNat / 16 →
    (t.readBlock (s.dst.toNat + 16 * i) = t.readBlock (s.dst.toNat + 16 * j) ↔
      s.readBlock (s.src.toNat + 16 * i) = s.readBlock (s.src.toNat + 16 * j))

/-- 41_ecb_cbc.md R88: ECB_ENC then ECB_DEC, and CBC_ENC with INIT = 1 then CBC_DEC with INIT = 1 and the
same IV, restore the plaintext at any place the checks allow. -/
def Obligations.EcbCbcRoundTrip : Prop :=
  ∀ (s t v : State) (d : Word), t.err = .ok → v.err = .ok →
    ((exec .ecbEnc s = .next t ∧ exec .ecbDec { t with src := s.dst, dst := d } = .next v) ∨
      (exec (.cbcEnc true) s = .next t ∧
        exec (.cbcDec true) { t with src := s.dst, dst := d } = .next v)) →
    ∀ k, k < s.len.toNat → v.readByte (d.toNat + k) = s.readByte (s.src.toNat + k)

/-- 41_ecb_cbc.md R89: a CBC command with INIT = 1 over n1 + n2 blocks leaves the same buffer and CHAIN as
one with INIT = 1 over the first n1 blocks and one with INIT = 0 over the next n2, for both CBC commands. -/
def Obligations.CbcChainsAcrossCommands : Prop :=
  ∀ (c : Bool → Instr), c = Instr.cbcEnc ∨ c = Instr.cbcDec →
    ∀ (s t : State) (n1 n2 : Nat), s.len.toNat = 16 * (n1 + n2) → exec (c true) s = .next t → t.err = .ok →
    ∃ t1 t2, exec (c true) { s with len := BitVec.ofNat 32 (16 * n1) } = .next t1 ∧ t1.err = .ok ∧
      exec (c false) { t1 with
        src := BitVec.ofNat 32 (s.src.toNat + 16 * n1), dst := BitVec.ofNat 32 (s.dst.toNat + 16 * n1),
        len := BitVec.ofNat 32 (16 * n2) } = .next t2 ∧ t2.err = .ok ∧
      (∀ o, t2.readByte o = t.readByte o) ∧ t2.chain = t.chain

/-- 41_ecb_cbc.md R90: changing byte `k` of ciphertext block `i` by `d` changes, in what CBC_DEC with
INIT = 1 gives, only block `i` (which becomes Dec of the changed block XOR the previous ciphertext block)
and byte `k` of block `i+1`, by `d`; changing byte `k` of IV changes only byte `k` of block 0, by `d`. -/
def Obligations.CbcMalleability : Prop :=
  (∀ (s s' t t' : State) (i k : Nat) (d : Byte), i < s.len.toNat / 16 → k < 16 →
    s' = { s with buf := s'.buf } →
    (∀ o, s'.readByte o =
      if o = s.src.toNat + 16 * i + k then s.readByte o ^^^ d else s.readByte o) →
    exec (.cbcDec true) s = .next t → t.err = .ok → exec (.cbcDec true) s' = .next t' → t'.err = .ok →
    t'.readBlock (s.dst.toNat + 16 * i) =
      xorBlock (Config.dec s.key (s'.readBlock (s.src.toNat + 16 * i)))
        (if i = 0 then s.iv else s.readBlock (s.src.toNat + 16 * (i - 1))) ∧
    ∀ j m, j < s.len.toNat / 16 → m < 16 → j ≠ i →
      t'.readByte (s.dst.toNat + 16 * j + m) =
        if j = i + 1 ∧ m = k then t.readByte (s.dst.toNat + 16 * j + m) ^^^ d
        else t.readByte (s.dst.toNat + 16 * j + m)) ∧
  (∀ (s t t' : State) (iv : Block) (k : Nat) (d : Byte), k < 16 →
    (∀ m, m < 16 → iv.getD m 0 = if m = k then s.iv.getD m 0 ^^^ d else s.iv.getD m 0) →
    exec (.cbcDec true) s = .next t → t.err = .ok →
    exec (.cbcDec true) { s with iv := iv } = .next t' → t'.err = .ok →
    ∀ m, m < s.len.toNat → t'.readByte (s.dst.toNat + m) =
      if m = k then t.readByte (s.dst.toNat + m) ^^^ d else t.readByte (s.dst.toNat + m))

/-- 42_ctr.md R93: CTR_XF applied twice to the same bytes, with the same KEY, NONCE and starting CTR,
restores the data, whatever LEN is. -/
def Obligations.CtrInvolution : Prop :=
  ∀ (init : Bool) (s t v : State) (d : Word), exec (.ctrXf init) s = .next t → t.err = .ok →
    exec (.ctrXf init) { t with src := s.dst, dst := d, ctr := s.ctr } = .next v → v.err = .ok →
    ∀ k, k < s.len.toNat → v.readByte (d.toNat + k) = s.readByte (s.src.toNat + k)

/-- 42_ctr.md R94: byte `k` of a message processed from counter 0 is transformed with byte `k mod 16` of
keystream block `k/16`, so a command with INIT = 0 and CTR = `q` at `16*q` in place gives there what the
whole-message command gave. -/
def Obligations.CtrRandomAccess : Prop :=
  ∀ (s t : State), exec (.ctrXf true) s = .next t → t.err = .ok →
    (∀ k, k < s.len.toNat → t.readByte (s.dst.toNat + k) = s.readByte (s.src.toNat + k) ^^^
      (Config.enc s.key (keystreamInput s.nonce (k / 16))).getD (k % 16) 0) ∧
    (∀ (v : State) (a : Nat) (l p : Word), 16 * (a / 16) + l.toNat ≤ s.len.toNat →
      p = BitVec.ofNat 32 (s.src.toNat + 16 * (a / 16)) →
      exec (.ctrXf false) { s with src := p, dst := p, len := l, ctr := BitVec.ofNat 64 (a / 16) } = .next v →
      v.err = .ok →
      ∀ k, k < l.toNat → v.readByte (s.src.toNat + 16 * (a / 16) + k) =
        t.readByte (s.dst.toNat + 16 * (a / 16) + k))

/-- 42_ctr.md R95: changing byte `k` of the input of CTR_XF by `d` changes byte `k` of the output by `d`
and no other output byte. -/
def Obligations.CtrMalleability : Prop :=
  ∀ (init : Bool) (s s' t t' : State) (k : Nat) (d : Byte), k < s.len.toNat →
    s' = { s with buf := s'.buf } →
    (∀ o, s'.readByte o = if o = s.src.toNat + k then s.readByte o ^^^ d else s.readByte o) →
    exec (.ctrXf init) s = .next t → t.err = .ok → exec (.ctrXf init) s' = .next t' → t'.err = .ok →
    ∀ m, m < s.len.toNat → t'.readByte (s.dst.toNat + m) =
      if m = k then t.readByte (s.dst.toNat + m) ^^^ d else t.readByte (s.dst.toNat + m)

/-- 42_ctr.md R96: a CTR_XF with INIT = 1 over 16m + L2 bytes gives the same bytes and the same CTR as one
with INIT = 1 over the first 16m bytes and one with INIT = 0 over the rest; after a command whose LEN is no
multiple of 16 the next INIT = 0 command starts at the next keystream block. -/
def Obligations.CtrContinuation : Prop :=
  (∀ (s t : State) (m l2 : Nat), s.len.toNat = 16 * m + l2 → exec (.ctrXf true) s = .next t → t.err = .ok →
    ∃ t1 t2, exec (.ctrXf true) { s with len := BitVec.ofNat 32 (16 * m) } = .next t1 ∧ t1.err = .ok ∧
      exec (.ctrXf false) { t1 with
        src := BitVec.ofNat 32 (s.src.toNat + 16 * m), dst := BitVec.ofNat 32 (s.dst.toNat + 16 * m),
        len := BitVec.ofNat 32 l2 } = .next t2 ∧ t2.err = .ok ∧
      (∀ o, t2.readByte o = t.readByte o) ∧ t2.ctr = t.ctr) ∧
  (∀ (s t v : State) (a b l : Word), s.len.toNat % 16 ≠ 0 → exec (.ctrXf true) s = .next t → t.err = .ok →
    exec (.ctrXf false) { t with src := a, dst := b, len := l } = .next v → v.err = .ok →
    t.ctr = BitVec.ofNat 64 (s.len.toNat / 16 + 1) ∧
    ∀ k, k < l.toNat → v.readByte (b.toNat + k) = t.readByte (a.toNat + k) ^^^
      (Config.enc s.key (keystreamInput s.nonce (s.len.toNat / 16 + 1 + k / 16))).getD (k % 16) 0)

/-! ### PKCS#7 (43_pkcs7.md) -/

/-- PAD's result for every block size 1 to 255 (43_pkcs7.md R97): the data, then `p` bytes of value `p`;
nothing else in the buffer changes; RLEN takes LEN + p. -/
def Obligations.PadResult : Prop :=
  ∀ (s : State) (bs p : Nat), 0 < bs → bs < 256 → p = bs - s.len.toNat % bs →
    s.src.toNat + s.len.toNat ≤ s.bufBytes → s.dst.toNat + (s.len.toNat + p) ≤ s.bufBytes →
    (s.src.toNat = s.dst.toNat ∨ s.len.toNat = 0 ∨ s.src.toNat + s.len.toNat ≤ s.dst.toNat ∨
      s.dst.toNat + (s.len.toNat + p) ≤ s.src.toNat) →
    1 ≤ p ∧ p ≤ bs ∧
    ∃ t, exec (.pad bs) s = .next t ∧
      (∀ k, k < s.len.toNat → t.readByte (s.dst.toNat + k) = s.readByte (s.src.toNat + k)) ∧
      (∀ k, k < p → t.readByte (s.dst.toNat + s.len.toNat + k) = BitVec.ofNat 8 p) ∧
      (∀ o, Outside s.dst.toNat (s.len.toNat + p) o → t.readByte o = s.readByte o) ∧
      t = completedWith { s with buf := t.buf, rlen := BitVec.ofNat 32 (s.len.toNat + p) } .ok

/-- STRIP's result (43_pkcs7.md R98), for an input inside the buffer: with valid padding RLEN takes
LEN - p and nothing else changes but the completion; otherwise INVALID_PADDING and nothing else. -/
def Obligations.StripResult : Prop :=
  ∀ s : State, s.src.toNat + s.len.toNat ≤ s.bufBytes →
    (ValidPadding s s.src.toNat s.len.toNat →
      exec .strip s = .next (completedWith { s with
        rlen := BitVec.ofNat 32 (s.len.toNat - (s.readByte (s.src.toNat + s.len.toNat - 1)).toNat) } .ok)) ∧
    (¬ ValidPadding s s.src.toNat s.len.toNat →
      exec .strip s = .next (completedWith s .invalidPadding))

/-- 43_pkcs7.md R99: a STRIP over the padded output of a PAD that completed with OK gives OK with RLEN the
original length, and the data is unchanged; and PAD with BS = 16 of a multiple of 16 bytes appends a full
block of value 16. -/
def Obligations.PadThenStrip : Prop :=
  ∀ (s t : State) (bs : Nat), 1 ≤ bs → bs ≤ 255 → exec (.pad bs) s = .next t → t.err = .ok →
    (∃ v, exec .strip { t with src := s.dst, len := t.rlen } = .next v ∧ v.err = .ok ∧ v.rlen = s.len ∧
      ∀ k, k < s.len.toNat → v.readByte (s.dst.toNat + k) = s.readByte (s.src.toNat + k)) ∧
    (bs = 16 → s.len.toNat % 16 = 0 → t.rlen.toNat = s.len.toNat + 16 ∧
      ∀ k, k < 16 → t.readByte (s.dst.toNat + s.len.toNat + k) = 16)

/-! ### MT19937 (44_mt19937.md) -/

/-- 44_mt19937.md R101: the seeding recurrence on unbounded integers, with its examples. -/
def Obligations.SeedRecurrence : Prop :=
  (∀ s : Word, (seedWords s)[0] = s ∧ ∀ i (h : i + 1 < 624),
    (seedWords s)[i + 1].toNat =
      (1812433253 * ((seedWords s)[i] ^^^ ((seedWords s)[i] >>> 30)).toNat + (i + 1)) % 2 ^ 32) ∧
  (seedWords 5489)[0] = 0x00001571 ∧ (seedWords 5489)[1] = 0x4D98EE96 ∧
  (seedWords 5489)[2] = 0xAF25F095 ∧ (seedWords 5489)[623] = 0x04C46D8C ∧
  (seedWords 0)[1] = 1 ∧ (seedWords 1)[1] = 1812433254

/-- 44_mt19937.md R102: every word after the twist, with the new words where the in-place update reads
them (`i = 623` for the next word, `i >= 227` for the word at distance 397). -/
def Obligations.TwistRecurrence : Prop :=
  ∀ (mt : MtArray) (i : Nat) (h : i < 624) (next far y : Word),
    next = (if i + 1 < 624 then mt.getD (i + 1) 0 else (twist mt)[0]) →
    far = (if i < 227 then mt.getD (i + 397) 0 else (twist mt).getD (i - 227) 0) →
    y = (mt[i] &&& 0x80000000) ||| (next &&& 0x7FFFFFFF) →
    (twist mt)[i] = if y.toNat % 2 = 1 then far ^^^ (y >>> 1) ^^^ 0x9908B0DF else far ^^^ (y >>> 1)

/-- 44_mt19937.md R105: Untemper and Temper are inverse to each other on every word, so Temper is a
bijection, and both are linear over GF(2). -/
def Obligations.UntemperInvertsTemper : Prop :=
  (∀ x : Word, untemper (temper x) = x) ∧ (∀ y : Word, temper (untemper y) = y) ∧
  Function.Bijective temper ∧
  (∀ x y : Word, temper (x ^^^ y) = temper x ^^^ temper y ∧
    untemper (x ^^^ y) = untemper x ^^^ untemper y)

/-- MT_SEED's result in every state (44_mt19937.md R106). -/
def Obligations.MtSeedResult : Prop :=
  ∀ s : State, exec .mtSeed s =
    .next (completedWith { s with mt := seedWords s.mtSeed, mtCursor := 624, mtCidx := 0 } .ok)

/-- MT_EXTRACT's result (44_mt19937.md R107): Seeded, the twist at cursor 624, the tempered word at the
cursor and the cursor advanced; Unseeded, NOT_SEEDED and nothing else. -/
def Obligations.MtExtractResult : Prop :=
  ∀ s : State,
    (∀ (h : s.mtCursor.val < 624), exec .mtExtract s =
      .next (completedWith { s with mtOut := temper s.mt[s.mtCursor.val], mtCursor := s.mtCursor + 1 } .ok)) ∧
    (s.mtCursor.val = 624 → exec .mtExtract s =
      .next (completedWith { s with mt := twist s.mt, mtOut := temper (twist s.mt)[0], mtCursor := 1 } .ok)) ∧
    (s.mtCursor.val = 625 → exec .mtExtract s = .next (completedWith s .notSeeded))

/-- MT_TEMPER's and MT_UNTEMPER's results in every state (44_mt19937.md R108, R109), with their worked
examples. -/
def Obligations.MtTemperUntemperResult : Prop :=
  (∀ s : State, exec .mtTemper s = .next (completedWith { s with mtTout := temper s.mtTin } .ok)) ∧
  (∀ s : State, exec .mtUntemper s = .next (completedWith { s with mtTout := untemper s.mtTin } .ok)) ∧
  temper 0x12345678 = 0x2B7E4A2D ∧ untemper 0x2B7E4A2D = 0x12345678 ∧ untemper 0xD091BB5C = 0x9B0AFA27

/-- MT_CLONE's result at every index (44_mt19937.md R110): the untempered word goes to `mt[MT_CIDX]` and
MT_TOUT; the first of a load unseeds the engine; the 624th ends the load and seeds it. -/
def Obligations.MtCloneResult : Prop :=
  ∀ s : State, exec .mtClone s = .next (completedWith { s with
    mt := s.mt.set s.mtCidx.val (untemper s.mtTin)
    mtTout := untemper s.mtTin
    mtCidx := if s.mtCidx = 623 then 0 else s.mtCidx + 1
    mtCursor := if s.mtCidx = 623 then 624 else if s.mtCidx = 0 then 625 else s.mtCursor } .ok)

/-- 44_mt19937.md R111, the clone law: the next 624 outputs of a generator Seeded at cursor 624, fed to 624
MT_CLONE commands of any block that starts with MT_CIDX = 0, give that block the generator's state, and
every later sequence of outputs is the same. -/
def Obligations.CloneLaw : Prop :=
  ∀ g c : State, g.mtCursor = 624 → c.mtCidx = 0 →
    let o := extractMany 624 g
    let c' := cloneMany o.1 c
    (o.1 = (twist g.mt).toList.map temper ∧ o.2.mt = twist g.mt ∧ o.2.mtCursor = 624) ∧
    c'.mt = twist g.mt ∧ c'.mtCursor = 624 ∧
    ∀ n, (extractMany n c').1 = (extractMany n o.2).1

/-- 70_reset_and_hazards.md R133: no rule can observe `mt` while Unseeded. Two states that differ only in
words of `mt` that are not yet loaded step to states that differ only so, or not at all: in particular
every register, every buffer byte and every value read is the same. -/
def Obligations.UnseededStateUnobservable : Prop :=
  ∀ (s t : State) (m : MtArray), MtHidden s m → step s = .next t →
    ∃ m', step { s with mt := m } = .next { t with mt := m' } ∧ (m' = t.mt ∨ MtHidden t m')

/-! ### The host bus (20_memory.md, 10_state.md) -/

/-- What a host read answers at every address, and all it changes (20_memory.md R47, R42). That the answer
stands in `rdata` is the model's choice (notes/assumptions/7.md), and so is the counter `busyReads` that numbers
the draws of R50 (notes/assumptions/6.md); the drawn word itself is unconstrained. -/
def Obligations.HostReadAnswers : Prop :=
  ∀ (s : State) (a : Addr),
    ((a.toNat % 4 ≠ 0 ∨ Unmapped s.bufBytes a) → s.hostRead a = { s with buserr := true, rdata := 0 }) ∧
    (a ∈ ([0x030, 0x034, 0x038, 0x03C] : List Addr) → s.hostRead a = { s with rdata := 0 }) ∧
    (s.busy = true → a.toNat % 4 = 0 → ¬ Unmapped s.bufBytes a →
      a ∉ ([0x000, 0x004, 0x008, 0x00C, 0x010, 0x030, 0x034, 0x038, 0x03C] : List Addr) →
      s.hostRead a = { s with rdata := Config.busyRead s.busyReads, busyReads := s.busyReads + 1 }) ∧
    (∀ v : Word, (a, v) ∈ registerReads s →
      (s.busy = false ∨ a ∈ ([0x000, 0x004, 0x008, 0x00C, 0x010] : List Addr)) →
      s.hostRead a = { s with rdata := v }) ∧
    (s.busy = false → a.toNat % 4 = 0 → 0x1000 ≤ a.toNat → a.toNat < 0x1000 + s.bufBytes →
      s.hostRead a = { s with
        rdata := wordSum (s.readByte (a.toNat - 0x1000)) (s.readByte (a.toNat - 0x1000 + 1))
          (s.readByte (a.toNat - 0x1000 + 2)) (s.readByte (a.toNat - 0x1000 + 3)) })

/-- What a host write does at every address (20_memory.md R48), but for the effect of SRST. -/
def Obligations.HostWriteEffects : Prop :=
  ∀ (s : State) (a : Addr) (v : Word),
    (IllegalAccess s (.write a v) → s.hostWrite a v = { s with buserr := true }) ∧
    (a = 0x00C → s.hostWrite a v =
      { s with done := s.done && !v.getLsbD 1, buserr := s.buserr && !v.getLsbD 2 }) ∧
    (a = 0x008 → v.getLsbD 1 = false → s.hostWrite a v = { s with ie := v.getLsbD 0 }) ∧
    (∀ t : State, (a, t) ∈ registerWrites s v → s.busy = false → s.hostWrite a v = t) ∧
    (s.busy = false → a.toNat % 4 = 0 → 0x1000 ≤ a.toNat → a.toNat < 0x1000 + s.bufBytes →
      s.hostWrite a v = { s with buf := (s.hostWrite a v).buf } ∧
      ∀ o, (s.hostWrite a v).readByte o =
        if a.toNat - 0x1000 ≤ o ∧ o < a.toNat - 0x1000 + 4
        then BitVec.ofNat 8 (v.toNat / 2 ^ (8 * (o - (a.toNat - 0x1000)))) else s.readByte o)

/-- 20_memory.md R49: BUSERR is set by exactly the listed accesses, stays set until a STATUS write with
bit 2 or a reset, and a bus error has no other effect. -/
def Obligations.BusErrorsExactly : Prop :=
  (∀ s t : State, step s = .next t → s.buserr = false →
    (t.buserr = true ↔ ∃ e rest, s.inputs = e :: rest ∧ IllegalAccess s e)) ∧
  (∀ s t : State, step s = .next t → s.buserr = true → t.buserr = false →
    ∃ e rest, s.inputs = e :: rest ∧ ClearsBuserr e) ∧
  (∀ (s : State) (a : Addr), IllegalAccess s (.read a) →
    s.hostRead a = { s with buserr := true, rdata := 0 }) ∧
  (∀ (s : State) (a : Addr) (v : Word), IllegalAccess s (.write a v) →
    s.hostWrite a v = { s with buserr := true })

/-- 40_command_cycle.md R70: a CMD write of an idle block issues the command and always succeeds, whatever
the word; a CMD write of a busy block is dropped with a bus error; and no other step raises BUSY (R71: the
engine never starts a command by itself). -/
def Obligations.OnlyCmdWriteIssues : Prop :=
  (∀ (s : State) (v : Word), s.busy = false →
    s.hostWrite 0x010 v = { s with cmd := v, busy := true, done := false, err := .ok }) ∧
  (∀ (s : State) (v : Word), s.busy = true → s.hostWrite 0x010 v = { s with buserr := true }) ∧
  (∀ (s t : State), step s = .next t → s.busy = false → t.busy = true →
    ∃ v rest, s.inputs = .write 0x010 v :: rest ∧ t.cmd = v)

/-- Host reads have no side effect beyond BUSERR (20_memory.md R52; `busyReads` only numbers the draws of
R50, notes/assumptions/6.md): reading twice gives the same value, at every address of the idle block and, while
BUSY = 1, at every address but the hidden ones of R50. -/
def Obligations.ReadsHaveNoSideEffect : Prop :=
  ∀ (s : State) (a : Addr),
    s.hostRead a = { s with
      buserr := (s.hostRead a).buserr, rdata := (s.hostRead a).rdata,
      busyReads := (s.hostRead a).busyReads } ∧
    (a.toNat % 4 = 0 → ¬ Unmapped s.bufBytes a → (s.hostRead a).buserr = s.buserr) ∧
    ((s.busy = false ∨ a.toNat % 4 ≠ 0 ∨ Unmapped s.bufBytes a ∨
        a ∈ ([0x000, 0x004, 0x008, 0x00C, 0x010, 0x030, 0x034, 0x038, 0x03C] : List Addr)) →
      ((s.hostRead a).hostRead a).rdata = (s.hostRead a).rdata)

/-- STATUS reads its fields at their bits and 0 in the reserved bits (10_state.md R21, R36), and the eight
completion codes have their numbers (60_exceptions.md R112). -/
def Obligations.StatusWordFields : Prop :=
  (ErrCode.ok.code = 0 ∧ ErrCode.invalidLength.code = 1 ∧ ErrCode.invalidPadding.code = 2 ∧
    ErrCode.notSeeded.code = 3 ∧ ErrCode.illegalCmd.code = 4 ∧ ErrCode.badArg.code = 5 ∧
    ErrCode.range.code = 6 ∧ ErrCode.overlap.code = 7) ∧
  ∀ s : State,
    s.statusWord.getLsbD 0 = s.busy ∧ s.statusWord.getLsbD 1 = s.done ∧ s.statusWord.getLsbD 2 = s.buserr ∧
    s.statusWord.getLsbD 3 = decide (s.mtCursor.val ≤ 624) ∧
    s.statusWord.toNat / 2 ^ 4 % 2 ^ 4 = 0 ∧ s.statusWord.toNat / 2 ^ 8 % 2 ^ 4 = s.err.code ∧
    s.statusWord.toNat / 2 ^ 12 = 0

/-- 60_exceptions.md R117: the interrupt is CTRL.IE and STATUS.DONE; a completion raises it when enabled;
a STATUS write with bit 1, the next command, clearing IE and either reset clear it. -/
def Obligations.InterruptLevel : Prop :=
  (∀ s : State, s.irq = (s.ie && s.done)) ∧
  (∀ s t : State, s.busy = true → s.engineStep = .next t → t.irq = s.ie) ∧
  (∀ s t : State, step s = .next t → s.irq = false → t.irq = true →
    (s.busy = true ∧ t.busy = false) ∨ (s.done = true ∧ s.ie = false ∧ t.ie = true)) ∧
  (∀ (s : State) (v : Word), v.getLsbD 1 = true → (s.hostWrite 0x00C v).irq = false) ∧
  (∀ (s : State) (v : Word), s.busy = false → (s.hostWrite 0x010 v).irq = false) ∧
  (∀ (s : State) (v : Word), v.getLsbD 0 = false → (s.hostWrite 0x008 v).irq = false) ∧
  (∀ (s : State) (v : Word), v.getLsbD 1 = true → (s.hostWrite 0x008 v).irq = false) ∧
  (∀ s : State, s.hardReset.irq = false)

/-! ### Key isolation, resets (60_exceptions.md R123, 70_reset_and_hazards.md) -/

/-- Key isolation (60_exceptions.md R123): no host read depends on KEY; and no command's effect depends on
KEY beyond what the cipher does under it: with another key under which Enc and Dec are the same functions,
every command has the same effect. NOP, PAD, STRIP and the MT commands have the same effect under any key. -/
def Obligations.KeyIsolation : Prop :=
  (∀ (s : State) (k : Block) (a : Addr),
    ({ s with key := k } : State).hostRead a = { s.hostRead a with key := k }) ∧
  (∀ (i : Instr) (s t : State) (k : Block), exec i s = .next t →
    ((∀ x, Config.enc k x = Config.enc s.key x ∧ Config.dec k x = Config.dec s.key x) ∨
      i ∈ [Instr.nop, .strip, .mtSeed, .mtExtract, .mtTemper, .mtUntemper, .mtClone] ∨
      ∃ bs, i = .pad bs) →
    exec i { s with key := k } = .next { t with key := k })

/-- 70_reset_and_hazards.md R145: a soft reset while BUSY = 1 abandons the command with no completion: the
block is idle, DONE and ERR are 0, and the engine's next turn does nothing. -/
def Obligations.SoftResetAbandonsCommand : Prop :=
  ∀ (s : State) (v : Word) (rest : List BusEvent), s.busy = true →
    s.inputs = .write 0x008 v :: rest → v.getLsbD 1 = true →
    ∃ t, step s = .next t ∧ t.busy = false ∧ t.done = false ∧ t.err = .ok ∧ t.irq = false ∧
      t.inputs = rest ∧ t.engineStep = .next t

/-- The values after a soft reset (70_reset_and_hazards.md R131), in every state and whatever else the
CTRL write holds: every register at its reset value, the buffer kept. (`mt` is unspecified there; the
model's zeros are notes/assumptions/5.md and not stated here.) -/
def Obligations.SoftResetValues : Prop :=
  ∀ (s t : State) (v : Word), v.getLsbD 1 = true → t = s.hostWrite 0x008 v →
    (t.ie = false ∧ t.busy = false ∧ t.done = false ∧ t.buserr = false ∧ t.err = .ok) ∧
    (t.cmd = 0 ∧ t.src = 0 ∧ t.dst = 0 ∧ t.len = 0 ∧ t.rlen = 0) ∧
    (∀ i, t.key.getD i 0 = 0 ∧ t.iv.getD i 0 = 0 ∧ t.chain.getD i 0 = 0 ∧ t.nonce.getD i 0 = 0) ∧
    (t.ctr = 0 ∧ t.mtSeed = 0 ∧ t.mtOut = 0 ∧ t.mtTin = 0 ∧ t.mtTout = 0 ∧ t.mtCursor = 625 ∧
      t.mtCidx = 0) ∧
    t.bufBytes = s.bufBytes ∧ ∀ o, t.readByte o = s.readByte o

/-- The values after a hardware reset (70_reset_and_hazards.md R129, R130, R132), at `State.reset`, in a
block of any buffer size, and after a RESET pulse in any state (which keeps the size): every register at its
reset value, the block idle, and no buffer byte written (it reads as the draw of that reset, numbered by the
model's own counter: notes/assumptions/4.md). `mt` is unspecified there and not stated here. -/
def Obligations.HardResetValues : Prop :=
  ∀ s t : State, (t = State.reset ∨ (∃ n, t = State.resetWith n) ∨ t = s.hardReset) →
    (t = s.hardReset → t.bufBytes = s.bufBytes) ∧
    (t.ie = false ∧ t.busy = false ∧ t.done = false ∧ t.buserr = false ∧ t.err = .ok ∧ t.irq = false) ∧
    (t.cmd = 0 ∧ t.src = 0 ∧ t.dst = 0 ∧ t.len = 0 ∧ t.rlen = 0) ∧
    (∀ i, t.key.getD i 0 = 0 ∧ t.iv.getD i 0 = 0 ∧ t.chain.getD i 0 = 0 ∧ t.nonce.getD i 0 = 0) ∧
    (t.ctr = 0 ∧ t.mtSeed = 0 ∧ t.mtOut = 0 ∧ t.mtTin = 0 ∧ t.mtTout = 0 ∧ t.mtCursor = 625 ∧
      t.mtCidx = 0 ∧ t.statusWord = 0) ∧
    ∀ o, t.readByte o = Config.powerOnByte t.powerOns o

/-! ### The schedule's other entries, and the buffer size (20_memory.md section 3, 00_scope.md section 4) -/

/-- What a step does where it runs no decodable command: with a first entry `read a`, `write a v` or `reset`
it is that access or the RESET pulse of the state with the entry consumed (20_memory.md R47, R48, R53,
70_reset_and_hazards.md R129); the engine's turn completes an illegal word with ILLEGAL_CMD (40_command_cycle.md
R72) and does nothing while BUSY = 0 (R71). That the entries stand in the list `inputs` is the model's choice:
notes/assumptions/1.md. -/
def Obligations.StepRunsHostEntry : Prop :=
  ∀ (s : State) (rest : List BusEvent),
    (∀ a, s.inputs = .read a :: rest → step s = .next (({ s with inputs := rest } : State).hostRead a)) ∧
    (∀ a v, s.inputs = .write a v :: rest →
      step s = .next (({ s with inputs := rest } : State).hostWrite a v)) ∧
    (s.inputs = .reset :: rest → step s = .next ({ s with inputs := rest } : State).hardReset) ∧
    (∀ e, s.busy = true → decode s.cmd = .error e →
      (s.inputs = [] → step s = .next (completedWith s .illegalCmd)) ∧
      (s.inputs = .engine :: rest →
        step s = .next (completedWith { s with inputs := rest } .illegalCmd))) ∧
    (s.busy = false →
      (s.inputs = [] → step s = .next s) ∧
      (s.inputs = .engine :: rest → step s = .next { s with inputs := rest }))

/-- 00_scope.md R8: the block exists with every legal BUF_BYTES (a multiple of 16 from 16 to 0xF000) and no
other, the hardware's default is 4096, and no step changes an instance's size. -/
def Obligations.BufferSizes : Prop :=
  (∀ s : State, s.bufBytes % 16 = 0 ∧ 16 ≤ s.bufBytes ∧ s.bufBytes ≤ 0xF000) ∧
  (∀ n, n % 16 = 0 → 16 ≤ n → n ≤ 0xF000 → ∃ z, (State.resetWith z).bufBytes = n) ∧
  State.reset.bufBytes = 4096 ∧
  (∀ s t : State, step s = .next t → t.bufBytes = s.bufBytes)
end

