-- ==== Sys2Proof/Laws/Bytes.lean ====
section
/-!
SUPPORT. The byte order and the XOR datapath: elements, and packing undone by unpacking.
-/

namespace Sys2Proof.Machine

open Sys2Proof

/-- An element in range, read with a default. -/
theorem getD_eq_getElem {α : Type} {n : Nat} (v : Vector α n) (i : Nat) (d : α) (h : i < n) :
    v.getD i d = v[i] := by
  simp [Vector.getD, h]

@[simp] theorem xorBlock_getElem (a b : Block) (i : Nat) (h : i < 16) :
    (xorBlock a b)[i] = a[i] ^^^ b[i] := by
  simp [xorBlock]

/-- XOR with the same block twice changes nothing. -/
@[simp] theorem xorBlock_xorBlock (a b : Block) : xorBlock (xorBlock a b) b = a := by
  apply Vector.ext
  intro i h
  simp

@[simp] theorem xorBytes_length (xs ks : List Byte) :
    (xorBytes xs ks).length = min xs.length ks.length := by
  induction xs generalizing ks with
  | nil => simp [xorBytes]
  | cons x xs ih => cases ks <;> simp [xorBytes, ih]

/-- Byte `i` of an XOR of byte strings, where both have one. -/
theorem xorBytes_getD (xs ks : List Byte) (i : Nat) (hx : i < xs.length) (hk : i < ks.length) :
    (xorBytes xs ks).getD i 0 = xs.getD i 0 ^^^ ks.getD i 0 := by
  induction xs generalizing ks i with
  | nil => simp at hx
  | cons x xs ih =>
    cases ks with
    | nil => simp at hk
    | cons k ks =>
      cases i with
      | zero => simp [xorBytes]
      | succ i =>
        simp only [xorBytes, List.getD_cons_succ]
        exact ih ks i (by simpa using hx) (by simpa using hk)

/-- Packing the bytes of a word gives the word back. -/
@[simp] theorem w32_leByte (v : Word) : w32 (leByte v 0) (leByte v 1) (leByte v 2) (leByte v 3) = v := by
  apply BitVec.eq_of_toNat_eq
  have hv : v.toNat < 4294967296 := v.isLt
  simp only [w32, leByte, BitVec.toNat_append, BitVec.extractLsb'_toNat, Nat.shiftRight_eq_div_pow,
    Nat.shiftLeft_eq]
  rw [← Nat.shiftLeft_eq, ← Nat.shiftLeft_add_eq_or_of_lt (by omega), ← Nat.shiftLeft_eq,
    ← Nat.shiftLeft_add_eq_or_of_lt (by omega), ← Nat.shiftLeft_eq,
    ← Nat.shiftLeft_add_eq_or_of_lt (by omega)]
  simp only [Nat.shiftLeft_eq]
  omega

/-- Unpacking a packed word gives its bytes back. -/
theorem leByte_w32 (b0 b1 b2 b3 : Byte) :
    leByte (w32 b0 b1 b2 b3) 0 = b0 ∧ leByte (w32 b0 b1 b2 b3) 1 = b1 ∧
      leByte (w32 b0 b1 b2 b3) 2 = b2 ∧ leByte (w32 b0 b1 b2 b3) 3 = b3 := by
  refine ⟨?_, ?_, ?_, ?_⟩ <;>
  · apply BitVec.eq_of_getLsbD_eq
    intro i hi
    simp only [leByte, w32, BitVec.getLsbD_extractLsb', BitVec.getLsbD_append]
    have : i < 8 := hi
    interval_cases i <;> simp

/-- A word of a wide register after a write of a word. -/
theorem wordOfBytes_setWordOfBytes {n : Nat} (r : Vector Byte n) (w u : Nat) (v : Word)
    (hu : 4 * u + 3 < n) :
    wordOfBytes (setWordOfBytes r w v) u = if u = w then v else wordOfBytes r u := by
  have e0 : 4 * u < n := by omega
  have e1 : 4 * u + 1 < n := by omega
  have e2 : 4 * u + 2 < n := by omega
  have d0 : 4 * u / 4 = u := by omega
  have d1 : (4 * u + 1) / 4 = u := by omega
  have d2 : (4 * u + 2) / 4 = u := by omega
  have d3 : (4 * u + 3) / 4 = u := by omega
  have m0 : 4 * u % 4 = 0 := by omega
  have m1 : (4 * u + 1) % 4 = 1 := by omega
  have m2 : (4 * u + 2) % 4 = 2 := by omega
  have m3 : (4 * u + 3) % 4 = 3 := by omega
  simp only [wordOfBytes, setWordOfBytes, getD_eq_getElem _ _ _ e0, getD_eq_getElem _ _ _ e1,
    getD_eq_getElem _ _ _ e2, getD_eq_getElem _ _ _ hu, Vector.getElem_ofFn, Fin.getElem_fin, d0, d1, d2, d3,
    m0, m1, m2, m3]
  split <;> simp

/-! ### The packing as sums and quotients -/

/-- Byte `i` of a word, as the byte of a number. -/
theorem byteDigit_toNat {w : Nat} (v : BitVec w) (i : Nat) : byteDigit v.toNat i = leByte v i := by
  apply BitVec.eq_of_toNat_eq
  simp [byteDigit, leByte, BitVec.extractLsb'_toNat, Nat.shiftRight_eq_div_pow]

/-- Packing four bytes is their weighted sum. -/
theorem wordSum_eq_w32 (b0 b1 b2 b3 : Byte) : wordSum b0 b1 b2 b3 = w32 b0 b1 b2 b3 := by
  have h0 := b0.isLt
  have h1 := b1.isLt
  have h2 := b2.isLt
  have h3 := b3.isLt
  apply BitVec.eq_of_toNat_eq
  simp only [wordSum, w32, BitVec.toNat_ofNat, BitVec.toNat_append]
  rw [← Nat.shiftLeft_add_eq_or_of_lt (by omega), ← Nat.shiftLeft_add_eq_or_of_lt (by omega),
    ← Nat.shiftLeft_add_eq_or_of_lt (by omega)]
  simp only [Nat.shiftLeft_eq]
  omega

/-- The input of a keystream block, byte by byte. -/
theorem counterBlock_eq_keystreamInput (nonce : Nonce) (n : Nat) :
    counterBlock nonce (BitVec.ofNat 64 n) = keystreamInput nonce n := by
  have hd : ∀ i, i < 8 → leByte (BitVec.ofNat 64 n) i = byteDigit n i := by
    intro i hi
    apply BitVec.eq_of_toNat_eq
    simp only [byteDigit, leByte, BitVec.extractLsb'_toNat, BitVec.toNat_ofNat, Nat.shiftRight_eq_div_pow]
    interval_cases i <;> omega
  apply Vector.ext
  intro i hi
  simp only [counterBlock, Vector.getElem_ofFn]
  split
  · interval_cases i <;> first | omega | simp [keystreamInput, Vector.getD]
  · rw [hd _ (by omega)]
    interval_cases i <;> first | omega | simp [keystreamInput]

end Sys2Proof.Machine
end

