-- ==== Sys2Proof/Laws/State.lean ====
section
/-!
SUPPORT. The fields of the named state updates: one lemma per field per update, so that no later proof
unfolds a record update; and the bytes of the buffer, which only the buffer's own updates change.
-/

namespace Sys2Proof.Machine

open Sys2Proof

variable (s : State)

/-! ### The size of the buffer -/

/-- Every instance's `BUF_BYTES` is a legal size (00_scope.md R8). -/
theorem State.bufBytes_legal : s.bufBytes % 16 = 0 ∧ 16 ≤ s.bufBytes ∧ s.bufBytes ≤ 0xF000 := by
  have h := s.bufSize.isLt
  simp only [State.bufBytes, Config.bufBytesOf, Config.blk]
  omega

/-- The hardware's default size (00_scope.md R8). -/
@[simp] theorem State.reset_bufBytes : State.reset.bufBytes = 4096 := rfl

@[simp] theorem State.resetWith_bufSize (n : Config.BufSize) : (State.resetWith n).bufSize = n := rfl

/-! ### memWrite -/

@[simp] theorem State.memWrite_ie (a : Nat) (v : List Byte) : (s.memWrite a v).ie = s.ie := rfl
@[simp] theorem State.memWrite_busy (a : Nat) (v : List Byte) : (s.memWrite a v).busy = s.busy := rfl
@[simp] theorem State.memWrite_done (a : Nat) (v : List Byte) : (s.memWrite a v).done = s.done := rfl
@[simp] theorem State.memWrite_buserr (a : Nat) (v : List Byte) : (s.memWrite a v).buserr = s.buserr := rfl
@[simp] theorem State.memWrite_err (a : Nat) (v : List Byte) : (s.memWrite a v).err = s.err := rfl
@[simp] theorem State.memWrite_cmd (a : Nat) (v : List Byte) : (s.memWrite a v).cmd = s.cmd := rfl
@[simp] theorem State.memWrite_src (a : Nat) (v : List Byte) : (s.memWrite a v).src = s.src := rfl
@[simp] theorem State.memWrite_dst (a : Nat) (v : List Byte) : (s.memWrite a v).dst = s.dst := rfl
@[simp] theorem State.memWrite_len (a : Nat) (v : List Byte) : (s.memWrite a v).len = s.len := rfl
@[simp] theorem State.memWrite_rlen (a : Nat) (v : List Byte) : (s.memWrite a v).rlen = s.rlen := rfl
@[simp] theorem State.memWrite_key (a : Nat) (v : List Byte) : (s.memWrite a v).key = s.key := rfl
@[simp] theorem State.memWrite_iv (a : Nat) (v : List Byte) : (s.memWrite a v).iv = s.iv := rfl
@[simp] theorem State.memWrite_chain (a : Nat) (v : List Byte) : (s.memWrite a v).chain = s.chain := rfl
@[simp] theorem State.memWrite_nonce (a : Nat) (v : List Byte) : (s.memWrite a v).nonce = s.nonce := rfl
@[simp] theorem State.memWrite_ctr (a : Nat) (v : List Byte) : (s.memWrite a v).ctr = s.ctr := rfl
@[simp] theorem State.memWrite_mtSeed (a : Nat) (v : List Byte) : (s.memWrite a v).mtSeed = s.mtSeed := rfl
@[simp] theorem State.memWrite_mtOut (a : Nat) (v : List Byte) : (s.memWrite a v).mtOut = s.mtOut := rfl
@[simp] theorem State.memWrite_mtTin (a : Nat) (v : List Byte) : (s.memWrite a v).mtTin = s.mtTin := rfl
@[simp] theorem State.memWrite_mtTout (a : Nat) (v : List Byte) : (s.memWrite a v).mtTout = s.mtTout := rfl
@[simp] theorem State.memWrite_mt (a : Nat) (v : List Byte) : (s.memWrite a v).mt = s.mt := rfl
@[simp] theorem State.memWrite_mtCursor (a : Nat) (v : List Byte) : (s.memWrite a v).mtCursor = s.mtCursor := rfl
@[simp] theorem State.memWrite_mtCidx (a : Nat) (v : List Byte) : (s.memWrite a v).mtCidx = s.mtCidx := rfl
@[simp] theorem State.memWrite_buf (a : Nat) (v : List Byte) : (s.memWrite a v).buf = memInsertAll s.buf a v := rfl
@[simp] theorem State.memWrite_bufSize (a : Nat) (v : List Byte) : (s.memWrite a v).bufSize = s.bufSize := rfl
@[simp] theorem State.memWrite_inputs (a : Nat) (v : List Byte) : (s.memWrite a v).inputs = s.inputs := rfl
@[simp] theorem State.memWrite_rdata (a : Nat) (v : List Byte) : (s.memWrite a v).rdata = s.rdata := rfl
@[simp] theorem State.memWrite_busyReads (a : Nat) (v : List Byte) : (s.memWrite a v).busyReads = s.busyReads := rfl
@[simp] theorem State.memWrite_powerOns (a : Nat) (v : List Byte) : (s.memWrite a v).powerOns = s.powerOns := rfl
@[simp] theorem State.memWrite_bufBytes (a : Nat) (v : List Byte) : (s.memWrite a v).bufBytes = s.bufBytes := rfl

/-! ### writeBlock -/

@[simp] theorem State.writeBlock_ie (a : Nat) (x : Block) : (s.writeBlock a x).ie = s.ie := rfl
@[simp] theorem State.writeBlock_busy (a : Nat) (x : Block) : (s.writeBlock a x).busy = s.busy := rfl
@[simp] theorem State.writeBlock_done (a : Nat) (x : Block) : (s.writeBlock a x).done = s.done := rfl
@[simp] theorem State.writeBlock_buserr (a : Nat) (x : Block) : (s.writeBlock a x).buserr = s.buserr := rfl
@[simp] theorem State.writeBlock_err (a : Nat) (x : Block) : (s.writeBlock a x).err = s.err := rfl
@[simp] theorem State.writeBlock_cmd (a : Nat) (x : Block) : (s.writeBlock a x).cmd = s.cmd := rfl
@[simp] theorem State.writeBlock_src (a : Nat) (x : Block) : (s.writeBlock a x).src = s.src := rfl
@[simp] theorem State.writeBlock_dst (a : Nat) (x : Block) : (s.writeBlock a x).dst = s.dst := rfl
@[simp] theorem State.writeBlock_len (a : Nat) (x : Block) : (s.writeBlock a x).len = s.len := rfl
@[simp] theorem State.writeBlock_rlen (a : Nat) (x : Block) : (s.writeBlock a x).rlen = s.rlen := rfl
@[simp] theorem State.writeBlock_key (a : Nat) (x : Block) : (s.writeBlock a x).key = s.key := rfl
@[simp] theorem State.writeBlock_iv (a : Nat) (x : Block) : (s.writeBlock a x).iv = s.iv := rfl
@[simp] theorem State.writeBlock_chain (a : Nat) (x : Block) : (s.writeBlock a x).chain = s.chain := rfl
@[simp] theorem State.writeBlock_nonce (a : Nat) (x : Block) : (s.writeBlock a x).nonce = s.nonce := rfl
@[simp] theorem State.writeBlock_ctr (a : Nat) (x : Block) : (s.writeBlock a x).ctr = s.ctr := rfl
@[simp] theorem State.writeBlock_mtSeed (a : Nat) (x : Block) : (s.writeBlock a x).mtSeed = s.mtSeed := rfl
@[simp] theorem State.writeBlock_mtOut (a : Nat) (x : Block) : (s.writeBlock a x).mtOut = s.mtOut := rfl
@[simp] theorem State.writeBlock_mtTin (a : Nat) (x : Block) : (s.writeBlock a x).mtTin = s.mtTin := rfl
@[simp] theorem State.writeBlock_mtTout (a : Nat) (x : Block) : (s.writeBlock a x).mtTout = s.mtTout := rfl
@[simp] theorem State.writeBlock_mt (a : Nat) (x : Block) : (s.writeBlock a x).mt = s.mt := rfl
@[simp] theorem State.writeBlock_mtCursor (a : Nat) (x : Block) : (s.writeBlock a x).mtCursor = s.mtCursor := rfl
@[simp] theorem State.writeBlock_mtCidx (a : Nat) (x : Block) : (s.writeBlock a x).mtCidx = s.mtCidx := rfl
@[simp] theorem State.writeBlock_buf (a : Nat) (x : Block) : (s.writeBlock a x).buf = memInsertAll s.buf a x.toList := rfl
@[simp] theorem State.writeBlock_bufSize (a : Nat) (x : Block) : (s.writeBlock a x).bufSize = s.bufSize := rfl
@[simp] theorem State.writeBlock_inputs (a : Nat) (x : Block) : (s.writeBlock a x).inputs = s.inputs := rfl
@[simp] theorem State.writeBlock_rdata (a : Nat) (x : Block) : (s.writeBlock a x).rdata = s.rdata := rfl
@[simp] theorem State.writeBlock_busyReads (a : Nat) (x : Block) : (s.writeBlock a x).busyReads = s.busyReads := rfl
@[simp] theorem State.writeBlock_powerOns (a : Nat) (x : Block) : (s.writeBlock a x).powerOns = s.powerOns := rfl
@[simp] theorem State.writeBlock_bufBytes (a : Nat) (x : Block) : (s.writeBlock a x).bufBytes = s.bufBytes := rfl

/-! ### issue -/

@[simp] theorem State.issue_ie (v : Word) : (s.issue v).ie = s.ie := rfl
@[simp] theorem State.issue_busy (v : Word) : (s.issue v).busy = true := rfl
@[simp] theorem State.issue_done (v : Word) : (s.issue v).done = false := rfl
@[simp] theorem State.issue_buserr (v : Word) : (s.issue v).buserr = s.buserr := rfl
@[simp] theorem State.issue_err (v : Word) : (s.issue v).err = .ok := rfl
@[simp] theorem State.issue_cmd (v : Word) : (s.issue v).cmd = v := rfl
@[simp] theorem State.issue_src (v : Word) : (s.issue v).src = s.src := rfl
@[simp] theorem State.issue_dst (v : Word) : (s.issue v).dst = s.dst := rfl
@[simp] theorem State.issue_len (v : Word) : (s.issue v).len = s.len := rfl
@[simp] theorem State.issue_rlen (v : Word) : (s.issue v).rlen = s.rlen := rfl
@[simp] theorem State.issue_key (v : Word) : (s.issue v).key = s.key := rfl
@[simp] theorem State.issue_iv (v : Word) : (s.issue v).iv = s.iv := rfl
@[simp] theorem State.issue_chain (v : Word) : (s.issue v).chain = s.chain := rfl
@[simp] theorem State.issue_nonce (v : Word) : (s.issue v).nonce = s.nonce := rfl
@[simp] theorem State.issue_ctr (v : Word) : (s.issue v).ctr = s.ctr := rfl
@[simp] theorem State.issue_mtSeed (v : Word) : (s.issue v).mtSeed = s.mtSeed := rfl
@[simp] theorem State.issue_mtOut (v : Word) : (s.issue v).mtOut = s.mtOut := rfl
@[simp] theorem State.issue_mtTin (v : Word) : (s.issue v).mtTin = s.mtTin := rfl
@[simp] theorem State.issue_mtTout (v : Word) : (s.issue v).mtTout = s.mtTout := rfl
@[simp] theorem State.issue_mt (v : Word) : (s.issue v).mt = s.mt := rfl
@[simp] theorem State.issue_mtCursor (v : Word) : (s.issue v).mtCursor = s.mtCursor := rfl
@[simp] theorem State.issue_mtCidx (v : Word) : (s.issue v).mtCidx = s.mtCidx := rfl
@[simp] theorem State.issue_buf (v : Word) : (s.issue v).buf = s.buf := rfl
@[simp] theorem State.issue_bufSize (v : Word) : (s.issue v).bufSize = s.bufSize := rfl
@[simp] theorem State.issue_inputs (v : Word) : (s.issue v).inputs = s.inputs := rfl
@[simp] theorem State.issue_rdata (v : Word) : (s.issue v).rdata = s.rdata := rfl
@[simp] theorem State.issue_busyReads (v : Word) : (s.issue v).busyReads = s.busyReads := rfl
@[simp] theorem State.issue_powerOns (v : Word) : (s.issue v).powerOns = s.powerOns := rfl
@[simp] theorem State.issue_bufBytes (v : Word) : (s.issue v).bufBytes = s.bufBytes := rfl

/-! ### complete -/

@[simp] theorem State.complete_ie (c : ErrCode) : (s.complete c).ie = s.ie := rfl
@[simp] theorem State.complete_busy (c : ErrCode) : (s.complete c).busy = false := rfl
@[simp] theorem State.complete_done (c : ErrCode) : (s.complete c).done = true := rfl
@[simp] theorem State.complete_buserr (c : ErrCode) : (s.complete c).buserr = s.buserr := rfl
@[simp] theorem State.complete_err (c : ErrCode) : (s.complete c).err = c := rfl
@[simp] theorem State.complete_cmd (c : ErrCode) : (s.complete c).cmd = s.cmd := rfl
@[simp] theorem State.complete_src (c : ErrCode) : (s.complete c).src = s.src := rfl
@[simp] theorem State.complete_dst (c : ErrCode) : (s.complete c).dst = s.dst := rfl
@[simp] theorem State.complete_len (c : ErrCode) : (s.complete c).len = s.len := rfl
@[simp] theorem State.complete_rlen (c : ErrCode) : (s.complete c).rlen = s.rlen := rfl
@[simp] theorem State.complete_key (c : ErrCode) : (s.complete c).key = s.key := rfl
@[simp] theorem State.complete_iv (c : ErrCode) : (s.complete c).iv = s.iv := rfl
@[simp] theorem State.complete_chain (c : ErrCode) : (s.complete c).chain = s.chain := rfl
@[simp] theorem State.complete_nonce (c : ErrCode) : (s.complete c).nonce = s.nonce := rfl
@[simp] theorem State.complete_ctr (c : ErrCode) : (s.complete c).ctr = s.ctr := rfl
@[simp] theorem State.complete_mtSeed (c : ErrCode) : (s.complete c).mtSeed = s.mtSeed := rfl
@[simp] theorem State.complete_mtOut (c : ErrCode) : (s.complete c).mtOut = s.mtOut := rfl
@[simp] theorem State.complete_mtTin (c : ErrCode) : (s.complete c).mtTin = s.mtTin := rfl
@[simp] theorem State.complete_mtTout (c : ErrCode) : (s.complete c).mtTout = s.mtTout := rfl
@[simp] theorem State.complete_mt (c : ErrCode) : (s.complete c).mt = s.mt := rfl
@[simp] theorem State.complete_mtCursor (c : ErrCode) : (s.complete c).mtCursor = s.mtCursor := rfl
@[simp] theorem State.complete_mtCidx (c : ErrCode) : (s.complete c).mtCidx = s.mtCidx := rfl
@[simp] theorem State.complete_buf (c : ErrCode) : (s.complete c).buf = s.buf := rfl
@[simp] theorem State.complete_bufSize (c : ErrCode) : (s.complete c).bufSize = s.bufSize := rfl
@[simp] theorem State.complete_inputs (c : ErrCode) : (s.complete c).inputs = s.inputs := rfl
@[simp] theorem State.complete_rdata (c : ErrCode) : (s.complete c).rdata = s.rdata := rfl
@[simp] theorem State.complete_busyReads (c : ErrCode) : (s.complete c).busyReads = s.busyReads := rfl
@[simp] theorem State.complete_powerOns (c : ErrCode) : (s.complete c).powerOns = s.powerOns := rfl
@[simp] theorem State.complete_bufBytes (c : ErrCode) : (s.complete c).bufBytes = s.bufBytes := rfl

/-! ### busError -/

@[simp] theorem State.busError_ie : (s.busError).ie = s.ie := rfl
@[simp] theorem State.busError_busy : (s.busError).busy = s.busy := rfl
@[simp] theorem State.busError_done : (s.busError).done = s.done := rfl
@[simp] theorem State.busError_buserr : (s.busError).buserr = true := rfl
@[simp] theorem State.busError_err : (s.busError).err = s.err := rfl
@[simp] theorem State.busError_cmd : (s.busError).cmd = s.cmd := rfl
@[simp] theorem State.busError_src : (s.busError).src = s.src := rfl
@[simp] theorem State.busError_dst : (s.busError).dst = s.dst := rfl
@[simp] theorem State.busError_len : (s.busError).len = s.len := rfl
@[simp] theorem State.busError_rlen : (s.busError).rlen = s.rlen := rfl
@[simp] theorem State.busError_key : (s.busError).key = s.key := rfl
@[simp] theorem State.busError_iv : (s.busError).iv = s.iv := rfl
@[simp] theorem State.busError_chain : (s.busError).chain = s.chain := rfl
@[simp] theorem State.busError_nonce : (s.busError).nonce = s.nonce := rfl
@[simp] theorem State.busError_ctr : (s.busError).ctr = s.ctr := rfl
@[simp] theorem State.busError_mtSeed : (s.busError).mtSeed = s.mtSeed := rfl
@[simp] theorem State.busError_mtOut : (s.busError).mtOut = s.mtOut := rfl
@[simp] theorem State.busError_mtTin : (s.busError).mtTin = s.mtTin := rfl
@[simp] theorem State.busError_mtTout : (s.busError).mtTout = s.mtTout := rfl
@[simp] theorem State.busError_mt : (s.busError).mt = s.mt := rfl
@[simp] theorem State.busError_mtCursor : (s.busError).mtCursor = s.mtCursor := rfl
@[simp] theorem State.busError_mtCidx : (s.busError).mtCidx = s.mtCidx := rfl
@[simp] theorem State.busError_buf : (s.busError).buf = s.buf := rfl
@[simp] theorem State.busError_bufSize : (s.busError).bufSize = s.bufSize := rfl
@[simp] theorem State.busError_inputs : (s.busError).inputs = s.inputs := rfl
@[simp] theorem State.busError_rdata : (s.busError).rdata = s.rdata := rfl
@[simp] theorem State.busError_busyReads : (s.busError).busyReads = s.busyReads := rfl
@[simp] theorem State.busError_powerOns : (s.busError).powerOns = s.powerOns := rfl
@[simp] theorem State.busError_bufBytes : (s.busError).bufBytes = s.bufBytes := rfl

/-! ### drawRead -/

@[simp] theorem State.drawRead_ie : (s.drawRead).ie = s.ie := rfl
@[simp] theorem State.drawRead_busy : (s.drawRead).busy = s.busy := rfl
@[simp] theorem State.drawRead_done : (s.drawRead).done = s.done := rfl
@[simp] theorem State.drawRead_buserr : (s.drawRead).buserr = s.buserr := rfl
@[simp] theorem State.drawRead_err : (s.drawRead).err = s.err := rfl
@[simp] theorem State.drawRead_cmd : (s.drawRead).cmd = s.cmd := rfl
@[simp] theorem State.drawRead_src : (s.drawRead).src = s.src := rfl
@[simp] theorem State.drawRead_dst : (s.drawRead).dst = s.dst := rfl
@[simp] theorem State.drawRead_len : (s.drawRead).len = s.len := rfl
@[simp] theorem State.drawRead_rlen : (s.drawRead).rlen = s.rlen := rfl
@[simp] theorem State.drawRead_key : (s.drawRead).key = s.key := rfl
@[simp] theorem State.drawRead_iv : (s.drawRead).iv = s.iv := rfl
@[simp] theorem State.drawRead_chain : (s.drawRead).chain = s.chain := rfl
@[simp] theorem State.drawRead_nonce : (s.drawRead).nonce = s.nonce := rfl
@[simp] theorem State.drawRead_ctr : (s.drawRead).ctr = s.ctr := rfl
@[simp] theorem State.drawRead_mtSeed : (s.drawRead).mtSeed = s.mtSeed := rfl
@[simp] theorem State.drawRead_mtOut : (s.drawRead).mtOut = s.mtOut := rfl
@[simp] theorem State.drawRead_mtTin : (s.drawRead).mtTin = s.mtTin := rfl
@[simp] theorem State.drawRead_mtTout : (s.drawRead).mtTout = s.mtTout := rfl
@[simp] theorem State.drawRead_mt : (s.drawRead).mt = s.mt := rfl
@[simp] theorem State.drawRead_mtCursor : (s.drawRead).mtCursor = s.mtCursor := rfl
@[simp] theorem State.drawRead_mtCidx : (s.drawRead).mtCidx = s.mtCidx := rfl
@[simp] theorem State.drawRead_buf : (s.drawRead).buf = s.buf := rfl
@[simp] theorem State.drawRead_bufSize : (s.drawRead).bufSize = s.bufSize := rfl
@[simp] theorem State.drawRead_inputs : (s.drawRead).inputs = s.inputs := rfl
@[simp] theorem State.drawRead_rdata : (s.drawRead).rdata = Config.busyRead s.busyReads := rfl
@[simp] theorem State.drawRead_busyReads : (s.drawRead).busyReads = s.busyReads + 1 := rfl
@[simp] theorem State.drawRead_powerOns : (s.drawRead).powerOns = s.powerOns := rfl
@[simp] theorem State.drawRead_bufBytes : (s.drawRead).bufBytes = s.bufBytes := rfl

/-! ### writeStatus -/

@[simp] theorem State.writeStatus_ie (v : Word) : (s.writeStatus v).ie = s.ie := rfl
@[simp] theorem State.writeStatus_busy (v : Word) : (s.writeStatus v).busy = s.busy := rfl
@[simp] theorem State.writeStatus_done (v : Word) : (s.writeStatus v).done = (s.done && !v.getLsbD 1) := rfl
@[simp] theorem State.writeStatus_buserr (v : Word) : (s.writeStatus v).buserr = (s.buserr && !v.getLsbD 2) := rfl
@[simp] theorem State.writeStatus_err (v : Word) : (s.writeStatus v).err = s.err := rfl
@[simp] theorem State.writeStatus_cmd (v : Word) : (s.writeStatus v).cmd = s.cmd := rfl
@[simp] theorem State.writeStatus_src (v : Word) : (s.writeStatus v).src = s.src := rfl
@[simp] theorem State.writeStatus_dst (v : Word) : (s.writeStatus v).dst = s.dst := rfl
@[simp] theorem State.writeStatus_len (v : Word) : (s.writeStatus v).len = s.len := rfl
@[simp] theorem State.writeStatus_rlen (v : Word) : (s.writeStatus v).rlen = s.rlen := rfl
@[simp] theorem State.writeStatus_key (v : Word) : (s.writeStatus v).key = s.key := rfl
@[simp] theorem State.writeStatus_iv (v : Word) : (s.writeStatus v).iv = s.iv := rfl
@[simp] theorem State.writeStatus_chain (v : Word) : (s.writeStatus v).chain = s.chain := rfl
@[simp] theorem State.writeStatus_nonce (v : Word) : (s.writeStatus v).nonce = s.nonce := rfl
@[simp] theorem State.writeStatus_ctr (v : Word) : (s.writeStatus v).ctr = s.ctr := rfl
@[simp] theorem State.writeStatus_mtSeed (v : Word) : (s.writeStatus v).mtSeed = s.mtSeed := rfl
@[simp] theorem State.writeStatus_mtOut (v : Word) : (s.writeStatus v).mtOut = s.mtOut := rfl
@[simp] theorem State.writeStatus_mtTin (v : Word) : (s.writeStatus v).mtTin = s.mtTin := rfl
@[simp] theorem State.writeStatus_mtTout (v : Word) : (s.writeStatus v).mtTout = s.mtTout := rfl
@[simp] theorem State.writeStatus_mt (v : Word) : (s.writeStatus v).mt = s.mt := rfl
@[simp] theorem State.writeStatus_mtCursor (v : Word) : (s.writeStatus v).mtCursor = s.mtCursor := rfl
@[simp] theorem State.writeStatus_mtCidx (v : Word) : (s.writeStatus v).mtCidx = s.mtCidx := rfl
@[simp] theorem State.writeStatus_buf (v : Word) : (s.writeStatus v).buf = s.buf := rfl
@[simp] theorem State.writeStatus_bufSize (v : Word) : (s.writeStatus v).bufSize = s.bufSize := rfl
@[simp] theorem State.writeStatus_inputs (v : Word) : (s.writeStatus v).inputs = s.inputs := rfl
@[simp] theorem State.writeStatus_rdata (v : Word) : (s.writeStatus v).rdata = s.rdata := rfl
@[simp] theorem State.writeStatus_busyReads (v : Word) : (s.writeStatus v).busyReads = s.busyReads := rfl
@[simp] theorem State.writeStatus_powerOns (v : Word) : (s.writeStatus v).powerOns = s.powerOns := rfl
@[simp] theorem State.writeStatus_bufBytes (v : Word) : (s.writeStatus v).bufBytes = s.bufBytes := rfl

/-! ### setIe -/

@[simp] theorem State.setIe_ie (v : Bool) : (s.setIe v).ie = v := rfl
@[simp] theorem State.setIe_busy (v : Bool) : (s.setIe v).busy = s.busy := rfl
@[simp] theorem State.setIe_done (v : Bool) : (s.setIe v).done = s.done := rfl
@[simp] theorem State.setIe_buserr (v : Bool) : (s.setIe v).buserr = s.buserr := rfl
@[simp] theorem State.setIe_err (v : Bool) : (s.setIe v).err = s.err := rfl
@[simp] theorem State.setIe_cmd (v : Bool) : (s.setIe v).cmd = s.cmd := rfl
@[simp] theorem State.setIe_src (v : Bool) : (s.setIe v).src = s.src := rfl
@[simp] theorem State.setIe_dst (v : Bool) : (s.setIe v).dst = s.dst := rfl
@[simp] theorem State.setIe_len (v : Bool) : (s.setIe v).len = s.len := rfl
@[simp] theorem State.setIe_rlen (v : Bool) : (s.setIe v).rlen = s.rlen := rfl
@[simp] theorem State.setIe_key (v : Bool) : (s.setIe v).key = s.key := rfl
@[simp] theorem State.setIe_iv (v : Bool) : (s.setIe v).iv = s.iv := rfl
@[simp] theorem State.setIe_chain (v : Bool) : (s.setIe v).chain = s.chain := rfl
@[simp] theorem State.setIe_nonce (v : Bool) : (s.setIe v).nonce = s.nonce := rfl
@[simp] theorem State.setIe_ctr (v : Bool) : (s.setIe v).ctr = s.ctr := rfl
@[simp] theorem State.setIe_mtSeed (v : Bool) : (s.setIe v).mtSeed = s.mtSeed := rfl
@[simp] theorem State.setIe_mtOut (v : Bool) : (s.setIe v).mtOut = s.mtOut := rfl
@[simp] theorem State.setIe_mtTin (v : Bool) : (s.setIe v).mtTin = s.mtTin := rfl
@[simp] theorem State.setIe_mtTout (v : Bool) : (s.setIe v).mtTout = s.mtTout := rfl
@[simp] theorem State.setIe_mt (v : Bool) : (s.setIe v).mt = s.mt := rfl
@[simp] theorem State.setIe_mtCursor (v : Bool) : (s.setIe v).mtCursor = s.mtCursor := rfl
@[simp] theorem State.setIe_mtCidx (v : Bool) : (s.setIe v).mtCidx = s.mtCidx := rfl
@[simp] theorem State.setIe_buf (v : Bool) : (s.setIe v).buf = s.buf := rfl
@[simp] theorem State.setIe_bufSize (v : Bool) : (s.setIe v).bufSize = s.bufSize := rfl
@[simp] theorem State.setIe_inputs (v : Bool) : (s.setIe v).inputs = s.inputs := rfl
@[simp] theorem State.setIe_rdata (v : Bool) : (s.setIe v).rdata = s.rdata := rfl
@[simp] theorem State.setIe_busyReads (v : Bool) : (s.setIe v).busyReads = s.busyReads := rfl
@[simp] theorem State.setIe_powerOns (v : Bool) : (s.setIe v).powerOns = s.powerOns := rfl
@[simp] theorem State.setIe_bufBytes (v : Bool) : (s.setIe v).bufBytes = s.bufBytes := rfl

/-! ### setSrc -/

@[simp] theorem State.setSrc_ie (v : Word) : (s.setSrc v).ie = s.ie := rfl
@[simp] theorem State.setSrc_busy (v : Word) : (s.setSrc v).busy = s.busy := rfl
@[simp] theorem State.setSrc_done (v : Word) : (s.setSrc v).done = s.done := rfl
@[simp] theorem State.setSrc_buserr (v : Word) : (s.setSrc v).buserr = s.buserr := rfl
@[simp] theorem State.setSrc_err (v : Word) : (s.setSrc v).err = s.err := rfl
@[simp] theorem State.setSrc_cmd (v : Word) : (s.setSrc v).cmd = s.cmd := rfl
@[simp] theorem State.setSrc_src (v : Word) : (s.setSrc v).src = v := rfl
@[simp] theorem State.setSrc_dst (v : Word) : (s.setSrc v).dst = s.dst := rfl
@[simp] theorem State.setSrc_len (v : Word) : (s.setSrc v).len = s.len := rfl
@[simp] theorem State.setSrc_rlen (v : Word) : (s.setSrc v).rlen = s.rlen := rfl
@[simp] theorem State.setSrc_key (v : Word) : (s.setSrc v).key = s.key := rfl
@[simp] theorem State.setSrc_iv (v : Word) : (s.setSrc v).iv = s.iv := rfl
@[simp] theorem State.setSrc_chain (v : Word) : (s.setSrc v).chain = s.chain := rfl
@[simp] theorem State.setSrc_nonce (v : Word) : (s.setSrc v).nonce = s.nonce := rfl
@[simp] theorem State.setSrc_ctr (v : Word) : (s.setSrc v).ctr = s.ctr := rfl
@[simp] theorem State.setSrc_mtSeed (v : Word) : (s.setSrc v).mtSeed = s.mtSeed := rfl
@[simp] theorem State.setSrc_mtOut (v : Word) : (s.setSrc v).mtOut = s.mtOut := rfl
@[simp] theorem State.setSrc_mtTin (v : Word) : (s.setSrc v).mtTin = s.mtTin := rfl
@[simp] theorem State.setSrc_mtTout (v : Word) : (s.setSrc v).mtTout = s.mtTout := rfl
@[simp] theorem State.setSrc_mt (v : Word) : (s.setSrc v).mt = s.mt := rfl
@[simp] theorem State.setSrc_mtCursor (v : Word) : (s.setSrc v).mtCursor = s.mtCursor := rfl
@[simp] theorem State.setSrc_mtCidx (v : Word) : (s.setSrc v).mtCidx = s.mtCidx := rfl
@[simp] theorem State.setSrc_buf (v : Word) : (s.setSrc v).buf = s.buf := rfl
@[simp] theorem State.setSrc_bufSize (v : Word) : (s.setSrc v).bufSize = s.bufSize := rfl
@[simp] theorem State.setSrc_inputs (v : Word) : (s.setSrc v).inputs = s.inputs := rfl
@[simp] theorem State.setSrc_rdata (v : Word) : (s.setSrc v).rdata = s.rdata := rfl
@[simp] theorem State.setSrc_busyReads (v : Word) : (s.setSrc v).busyReads = s.busyReads := rfl
@[simp] theorem State.setSrc_powerOns (v : Word) : (s.setSrc v).powerOns = s.powerOns := rfl
@[simp] theorem State.setSrc_bufBytes (v : Word) : (s.setSrc v).bufBytes = s.bufBytes := rfl

/-! ### setDst -/

@[simp] theorem State.setDst_ie (v : Word) : (s.setDst v).ie = s.ie := rfl
@[simp] theorem State.setDst_busy (v : Word) : (s.setDst v).busy = s.busy := rfl
@[simp] theorem State.setDst_done (v : Word) : (s.setDst v).done = s.done := rfl
@[simp] theorem State.setDst_buserr (v : Word) : (s.setDst v).buserr = s.buserr := rfl
@[simp] theorem State.setDst_err (v : Word) : (s.setDst v).err = s.err := rfl
@[simp] theorem State.setDst_cmd (v : Word) : (s.setDst v).cmd = s.cmd := rfl
@[simp] theorem State.setDst_src (v : Word) : (s.setDst v).src = s.src := rfl
@[simp] theorem State.setDst_dst (v : Word) : (s.setDst v).dst = v := rfl
@[simp] theorem State.setDst_len (v : Word) : (s.setDst v).len = s.len := rfl
@[simp] theorem State.setDst_rlen (v : Word) : (s.setDst v).rlen = s.rlen := rfl
@[simp] theorem State.setDst_key (v : Word) : (s.setDst v).key = s.key := rfl
@[simp] theorem State.setDst_iv (v : Word) : (s.setDst v).iv = s.iv := rfl
@[simp] theorem State.setDst_chain (v : Word) : (s.setDst v).chain = s.chain := rfl
@[simp] theorem State.setDst_nonce (v : Word) : (s.setDst v).nonce = s.nonce := rfl
@[simp] theorem State.setDst_ctr (v : Word) : (s.setDst v).ctr = s.ctr := rfl
@[simp] theorem State.setDst_mtSeed (v : Word) : (s.setDst v).mtSeed = s.mtSeed := rfl
@[simp] theorem State.setDst_mtOut (v : Word) : (s.setDst v).mtOut = s.mtOut := rfl
@[simp] theorem State.setDst_mtTin (v : Word) : (s.setDst v).mtTin = s.mtTin := rfl
@[simp] theorem State.setDst_mtTout (v : Word) : (s.setDst v).mtTout = s.mtTout := rfl
@[simp] theorem State.setDst_mt (v : Word) : (s.setDst v).mt = s.mt := rfl
@[simp] theorem State.setDst_mtCursor (v : Word) : (s.setDst v).mtCursor = s.mtCursor := rfl
@[simp] theorem State.setDst_mtCidx (v : Word) : (s.setDst v).mtCidx = s.mtCidx := rfl
@[simp] theorem State.setDst_buf (v : Word) : (s.setDst v).buf = s.buf := rfl
@[simp] theorem State.setDst_bufSize (v : Word) : (s.setDst v).bufSize = s.bufSize := rfl
@[simp] theorem State.setDst_inputs (v : Word) : (s.setDst v).inputs = s.inputs := rfl
@[simp] theorem State.setDst_rdata (v : Word) : (s.setDst v).rdata = s.rdata := rfl
@[simp] theorem State.setDst_busyReads (v : Word) : (s.setDst v).busyReads = s.busyReads := rfl
@[simp] theorem State.setDst_powerOns (v : Word) : (s.setDst v).powerOns = s.powerOns := rfl
@[simp] theorem State.setDst_bufBytes (v : Word) : (s.setDst v).bufBytes = s.bufBytes := rfl

/-! ### setLen -/

@[simp] theorem State.setLen_ie (v : Word) : (s.setLen v).ie = s.ie := rfl
@[simp] theorem State.setLen_busy (v : Word) : (s.setLen v).busy = s.busy := rfl
@[simp] theorem State.setLen_done (v : Word) : (s.setLen v).done = s.done := rfl
@[simp] theorem State.setLen_buserr (v : Word) : (s.setLen v).buserr = s.buserr := rfl
@[simp] theorem State.setLen_err (v : Word) : (s.setLen v).err = s.err := rfl
@[simp] theorem State.setLen_cmd (v : Word) : (s.setLen v).cmd = s.cmd := rfl
@[simp] theorem State.setLen_src (v : Word) : (s.setLen v).src = s.src := rfl
@[simp] theorem State.setLen_dst (v : Word) : (s.setLen v).dst = s.dst := rfl
@[simp] theorem State.setLen_len (v : Word) : (s.setLen v).len = v := rfl
@[simp] theorem State.setLen_rlen (v : Word) : (s.setLen v).rlen = s.rlen := rfl
@[simp] theorem State.setLen_key (v : Word) : (s.setLen v).key = s.key := rfl
@[simp] theorem State.setLen_iv (v : Word) : (s.setLen v).iv = s.iv := rfl
@[simp] theorem State.setLen_chain (v : Word) : (s.setLen v).chain = s.chain := rfl
@[simp] theorem State.setLen_nonce (v : Word) : (s.setLen v).nonce = s.nonce := rfl
@[simp] theorem State.setLen_ctr (v : Word) : (s.setLen v).ctr = s.ctr := rfl
@[simp] theorem State.setLen_mtSeed (v : Word) : (s.setLen v).mtSeed = s.mtSeed := rfl
@[simp] theorem State.setLen_mtOut (v : Word) : (s.setLen v).mtOut = s.mtOut := rfl
@[simp] theorem State.setLen_mtTin (v : Word) : (s.setLen v).mtTin = s.mtTin := rfl
@[simp] theorem State.setLen_mtTout (v : Word) : (s.setLen v).mtTout = s.mtTout := rfl
@[simp] theorem State.setLen_mt (v : Word) : (s.setLen v).mt = s.mt := rfl
@[simp] theorem State.setLen_mtCursor (v : Word) : (s.setLen v).mtCursor = s.mtCursor := rfl
@[simp] theorem State.setLen_mtCidx (v : Word) : (s.setLen v).mtCidx = s.mtCidx := rfl
@[simp] theorem State.setLen_buf (v : Word) : (s.setLen v).buf = s.buf := rfl
@[simp] theorem State.setLen_bufSize (v : Word) : (s.setLen v).bufSize = s.bufSize := rfl
@[simp] theorem State.setLen_inputs (v : Word) : (s.setLen v).inputs = s.inputs := rfl
@[simp] theorem State.setLen_rdata (v : Word) : (s.setLen v).rdata = s.rdata := rfl
@[simp] theorem State.setLen_busyReads (v : Word) : (s.setLen v).busyReads = s.busyReads := rfl
@[simp] theorem State.setLen_powerOns (v : Word) : (s.setLen v).powerOns = s.powerOns := rfl
@[simp] theorem State.setLen_bufBytes (v : Word) : (s.setLen v).bufBytes = s.bufBytes := rfl

/-! ### setRlen -/

@[simp] theorem State.setRlen_ie (v : Word) : (s.setRlen v).ie = s.ie := rfl
@[simp] theorem State.setRlen_busy (v : Word) : (s.setRlen v).busy = s.busy := rfl
@[simp] theorem State.setRlen_done (v : Word) : (s.setRlen v).done = s.done := rfl
@[simp] theorem State.setRlen_buserr (v : Word) : (s.setRlen v).buserr = s.buserr := rfl
@[simp] theorem State.setRlen_err (v : Word) : (s.setRlen v).err = s.err := rfl
@[simp] theorem State.setRlen_cmd (v : Word) : (s.setRlen v).cmd = s.cmd := rfl
@[simp] theorem State.setRlen_src (v : Word) : (s.setRlen v).src = s.src := rfl
@[simp] theorem State.setRlen_dst (v : Word) : (s.setRlen v).dst = s.dst := rfl
@[simp] theorem State.setRlen_len (v : Word) : (s.setRlen v).len = s.len := rfl
@[simp] theorem State.setRlen_rlen (v : Word) : (s.setRlen v).rlen = v := rfl
@[simp] theorem State.setRlen_key (v : Word) : (s.setRlen v).key = s.key := rfl
@[simp] theorem State.setRlen_iv (v : Word) : (s.setRlen v).iv = s.iv := rfl
@[simp] theorem State.setRlen_chain (v : Word) : (s.setRlen v).chain = s.chain := rfl
@[simp] theorem State.setRlen_nonce (v : Word) : (s.setRlen v).nonce = s.nonce := rfl
@[simp] theorem State.setRlen_ctr (v : Word) : (s.setRlen v).ctr = s.ctr := rfl
@[simp] theorem State.setRlen_mtSeed (v : Word) : (s.setRlen v).mtSeed = s.mtSeed := rfl
@[simp] theorem State.setRlen_mtOut (v : Word) : (s.setRlen v).mtOut = s.mtOut := rfl
@[simp] theorem State.setRlen_mtTin (v : Word) : (s.setRlen v).mtTin = s.mtTin := rfl
@[simp] theorem State.setRlen_mtTout (v : Word) : (s.setRlen v).mtTout = s.mtTout := rfl
@[simp] theorem State.setRlen_mt (v : Word) : (s.setRlen v).mt = s.mt := rfl
@[simp] theorem State.setRlen_mtCursor (v : Word) : (s.setRlen v).mtCursor = s.mtCursor := rfl
@[simp] theorem State.setRlen_mtCidx (v : Word) : (s.setRlen v).mtCidx = s.mtCidx := rfl
@[simp] theorem State.setRlen_buf (v : Word) : (s.setRlen v).buf = s.buf := rfl
@[simp] theorem State.setRlen_bufSize (v : Word) : (s.setRlen v).bufSize = s.bufSize := rfl
@[simp] theorem State.setRlen_inputs (v : Word) : (s.setRlen v).inputs = s.inputs := rfl
@[simp] theorem State.setRlen_rdata (v : Word) : (s.setRlen v).rdata = s.rdata := rfl
@[simp] theorem State.setRlen_busyReads (v : Word) : (s.setRlen v).busyReads = s.busyReads := rfl
@[simp] theorem State.setRlen_powerOns (v : Word) : (s.setRlen v).powerOns = s.powerOns := rfl
@[simp] theorem State.setRlen_bufBytes (v : Word) : (s.setRlen v).bufBytes = s.bufBytes := rfl

/-! ### setKey -/

@[simp] theorem State.setKey_ie (v : Block) : (s.setKey v).ie = s.ie := rfl
@[simp] theorem State.setKey_busy (v : Block) : (s.setKey v).busy = s.busy := rfl
@[simp] theorem State.setKey_done (v : Block) : (s.setKey v).done = s.done := rfl
@[simp] theorem State.setKey_buserr (v : Block) : (s.setKey v).buserr = s.buserr := rfl
@[simp] theorem State.setKey_err (v : Block) : (s.setKey v).err = s.err := rfl
@[simp] theorem State.setKey_cmd (v : Block) : (s.setKey v).cmd = s.cmd := rfl
@[simp] theorem State.setKey_src (v : Block) : (s.setKey v).src = s.src := rfl
@[simp] theorem State.setKey_dst (v : Block) : (s.setKey v).dst = s.dst := rfl
@[simp] theorem State.setKey_len (v : Block) : (s.setKey v).len = s.len := rfl
@[simp] theorem State.setKey_rlen (v : Block) : (s.setKey v).rlen = s.rlen := rfl
@[simp] theorem State.setKey_key (v : Block) : (s.setKey v).key = v := rfl
@[simp] theorem State.setKey_iv (v : Block) : (s.setKey v).iv = s.iv := rfl
@[simp] theorem State.setKey_chain (v : Block) : (s.setKey v).chain = s.chain := rfl
@[simp] theorem State.setKey_nonce (v : Block) : (s.setKey v).nonce = s.nonce := rfl
@[simp] theorem State.setKey_ctr (v : Block) : (s.setKey v).ctr = s.ctr := rfl
@[simp] theorem State.setKey_mtSeed (v : Block) : (s.setKey v).mtSeed = s.mtSeed := rfl
@[simp] theorem State.setKey_mtOut (v : Block) : (s.setKey v).mtOut = s.mtOut := rfl
@[simp] theorem State.setKey_mtTin (v : Block) : (s.setKey v).mtTin = s.mtTin := rfl
@[simp] theorem State.setKey_mtTout (v : Block) : (s.setKey v).mtTout = s.mtTout := rfl
@[simp] theorem State.setKey_mt (v : Block) : (s.setKey v).mt = s.mt := rfl
@[simp] theorem State.setKey_mtCursor (v : Block) : (s.setKey v).mtCursor = s.mtCursor := rfl
@[simp] theorem State.setKey_mtCidx (v : Block) : (s.setKey v).mtCidx = s.mtCidx := rfl
@[simp] theorem State.setKey_buf (v : Block) : (s.setKey v).buf = s.buf := rfl
@[simp] theorem State.setKey_bufSize (v : Block) : (s.setKey v).bufSize = s.bufSize := rfl
@[simp] theorem State.setKey_inputs (v : Block) : (s.setKey v).inputs = s.inputs := rfl
@[simp] theorem State.setKey_rdata (v : Block) : (s.setKey v).rdata = s.rdata := rfl
@[simp] theorem State.setKey_busyReads (v : Block) : (s.setKey v).busyReads = s.busyReads := rfl
@[simp] theorem State.setKey_powerOns (v : Block) : (s.setKey v).powerOns = s.powerOns := rfl
@[simp] theorem State.setKey_bufBytes (v : Block) : (s.setKey v).bufBytes = s.bufBytes := rfl

/-! ### setIv -/

@[simp] theorem State.setIv_ie (v : Block) : (s.setIv v).ie = s.ie := rfl
@[simp] theorem State.setIv_busy (v : Block) : (s.setIv v).busy = s.busy := rfl
@[simp] theorem State.setIv_done (v : Block) : (s.setIv v).done = s.done := rfl
@[simp] theorem State.setIv_buserr (v : Block) : (s.setIv v).buserr = s.buserr := rfl
@[simp] theorem State.setIv_err (v : Block) : (s.setIv v).err = s.err := rfl
@[simp] theorem State.setIv_cmd (v : Block) : (s.setIv v).cmd = s.cmd := rfl
@[simp] theorem State.setIv_src (v : Block) : (s.setIv v).src = s.src := rfl
@[simp] theorem State.setIv_dst (v : Block) : (s.setIv v).dst = s.dst := rfl
@[simp] theorem State.setIv_len (v : Block) : (s.setIv v).len = s.len := rfl
@[simp] theorem State.setIv_rlen (v : Block) : (s.setIv v).rlen = s.rlen := rfl
@[simp] theorem State.setIv_key (v : Block) : (s.setIv v).key = s.key := rfl
@[simp] theorem State.setIv_iv (v : Block) : (s.setIv v).iv = v := rfl
@[simp] theorem State.setIv_chain (v : Block) : (s.setIv v).chain = s.chain := rfl
@[simp] theorem State.setIv_nonce (v : Block) : (s.setIv v).nonce = s.nonce := rfl
@[simp] theorem State.setIv_ctr (v : Block) : (s.setIv v).ctr = s.ctr := rfl
@[simp] theorem State.setIv_mtSeed (v : Block) : (s.setIv v).mtSeed = s.mtSeed := rfl
@[simp] theorem State.setIv_mtOut (v : Block) : (s.setIv v).mtOut = s.mtOut := rfl
@[simp] theorem State.setIv_mtTin (v : Block) : (s.setIv v).mtTin = s.mtTin := rfl
@[simp] theorem State.setIv_mtTout (v : Block) : (s.setIv v).mtTout = s.mtTout := rfl
@[simp] theorem State.setIv_mt (v : Block) : (s.setIv v).mt = s.mt := rfl
@[simp] theorem State.setIv_mtCursor (v : Block) : (s.setIv v).mtCursor = s.mtCursor := rfl
@[simp] theorem State.setIv_mtCidx (v : Block) : (s.setIv v).mtCidx = s.mtCidx := rfl
@[simp] theorem State.setIv_buf (v : Block) : (s.setIv v).buf = s.buf := rfl
@[simp] theorem State.setIv_bufSize (v : Block) : (s.setIv v).bufSize = s.bufSize := rfl
@[simp] theorem State.setIv_inputs (v : Block) : (s.setIv v).inputs = s.inputs := rfl
@[simp] theorem State.setIv_rdata (v : Block) : (s.setIv v).rdata = s.rdata := rfl
@[simp] theorem State.setIv_busyReads (v : Block) : (s.setIv v).busyReads = s.busyReads := rfl
@[simp] theorem State.setIv_powerOns (v : Block) : (s.setIv v).powerOns = s.powerOns := rfl
@[simp] theorem State.setIv_bufBytes (v : Block) : (s.setIv v).bufBytes = s.bufBytes := rfl

/-! ### setChain -/

@[simp] theorem State.setChain_ie (v : Block) : (s.setChain v).ie = s.ie := rfl
@[simp] theorem State.setChain_busy (v : Block) : (s.setChain v).busy = s.busy := rfl
@[simp] theorem State.setChain_done (v : Block) : (s.setChain v).done = s.done := rfl
@[simp] theorem State.setChain_buserr (v : Block) : (s.setChain v).buserr = s.buserr := rfl
@[simp] theorem State.setChain_err (v : Block) : (s.setChain v).err = s.err := rfl
@[simp] theorem State.setChain_cmd (v : Block) : (s.setChain v).cmd = s.cmd := rfl
@[simp] theorem State.setChain_src (v : Block) : (s.setChain v).src = s.src := rfl
@[simp] theorem State.setChain_dst (v : Block) : (s.setChain v).dst = s.dst := rfl
@[simp] theorem State.setChain_len (v : Block) : (s.setChain v).len = s.len := rfl
@[simp] theorem State.setChain_rlen (v : Block) : (s.setChain v).rlen = s.rlen := rfl
@[simp] theorem State.setChain_key (v : Block) : (s.setChain v).key = s.key := rfl
@[simp] theorem State.setChain_iv (v : Block) : (s.setChain v).iv = s.iv := rfl
@[simp] theorem State.setChain_chain (v : Block) : (s.setChain v).chain = v := rfl
@[simp] theorem State.setChain_nonce (v : Block) : (s.setChain v).nonce = s.nonce := rfl
@[simp] theorem State.setChain_ctr (v : Block) : (s.setChain v).ctr = s.ctr := rfl
@[simp] theorem State.setChain_mtSeed (v : Block) : (s.setChain v).mtSeed = s.mtSeed := rfl
@[simp] theorem State.setChain_mtOut (v : Block) : (s.setChain v).mtOut = s.mtOut := rfl
@[simp] theorem State.setChain_mtTin (v : Block) : (s.setChain v).mtTin = s.mtTin := rfl
@[simp] theorem State.setChain_mtTout (v : Block) : (s.setChain v).mtTout = s.mtTout := rfl
@[simp] theorem State.setChain_mt (v : Block) : (s.setChain v).mt = s.mt := rfl
@[simp] theorem State.setChain_mtCursor (v : Block) : (s.setChain v).mtCursor = s.mtCursor := rfl
@[simp] theorem State.setChain_mtCidx (v : Block) : (s.setChain v).mtCidx = s.mtCidx := rfl
@[simp] theorem State.setChain_buf (v : Block) : (s.setChain v).buf = s.buf := rfl
@[simp] theorem State.setChain_bufSize (v : Block) : (s.setChain v).bufSize = s.bufSize := rfl
@[simp] theorem State.setChain_inputs (v : Block) : (s.setChain v).inputs = s.inputs := rfl
@[simp] theorem State.setChain_rdata (v : Block) : (s.setChain v).rdata = s.rdata := rfl
@[simp] theorem State.setChain_busyReads (v : Block) : (s.setChain v).busyReads = s.busyReads := rfl
@[simp] theorem State.setChain_powerOns (v : Block) : (s.setChain v).powerOns = s.powerOns := rfl
@[simp] theorem State.setChain_bufBytes (v : Block) : (s.setChain v).bufBytes = s.bufBytes := rfl

/-! ### setNonce -/

@[simp] theorem State.setNonce_ie (v : Nonce) : (s.setNonce v).ie = s.ie := rfl
@[simp] theorem State.setNonce_busy (v : Nonce) : (s.setNonce v).busy = s.busy := rfl
@[simp] theorem State.setNonce_done (v : Nonce) : (s.setNonce v).done = s.done := rfl
@[simp] theorem State.setNonce_buserr (v : Nonce) : (s.setNonce v).buserr = s.buserr := rfl
@[simp] theorem State.setNonce_err (v : Nonce) : (s.setNonce v).err = s.err := rfl
@[simp] theorem State.setNonce_cmd (v : Nonce) : (s.setNonce v).cmd = s.cmd := rfl
@[simp] theorem State.setNonce_src (v : Nonce) : (s.setNonce v).src = s.src := rfl
@[simp] theorem State.setNonce_dst (v : Nonce) : (s.setNonce v).dst = s.dst := rfl
@[simp] theorem State.setNonce_len (v : Nonce) : (s.setNonce v).len = s.len := rfl
@[simp] theorem State.setNonce_rlen (v : Nonce) : (s.setNonce v).rlen = s.rlen := rfl
@[simp] theorem State.setNonce_key (v : Nonce) : (s.setNonce v).key = s.key := rfl
@[simp] theorem State.setNonce_iv (v : Nonce) : (s.setNonce v).iv = s.iv := rfl
@[simp] theorem State.setNonce_chain (v : Nonce) : (s.setNonce v).chain = s.chain := rfl
@[simp] theorem State.setNonce_nonce (v : Nonce) : (s.setNonce v).nonce = v := rfl
@[simp] theorem State.setNonce_ctr (v : Nonce) : (s.setNonce v).ctr = s.ctr := rfl
@[simp] theorem State.setNonce_mtSeed (v : Nonce) : (s.setNonce v).mtSeed = s.mtSeed := rfl
@[simp] theorem State.setNonce_mtOut (v : Nonce) : (s.setNonce v).mtOut = s.mtOut := rfl
@[simp] theorem State.setNonce_mtTin (v : Nonce) : (s.setNonce v).mtTin = s.mtTin := rfl
@[simp] theorem State.setNonce_mtTout (v : Nonce) : (s.setNonce v).mtTout = s.mtTout := rfl
@[simp] theorem State.setNonce_mt (v : Nonce) : (s.setNonce v).mt = s.mt := rfl
@[simp] theorem State.setNonce_mtCursor (v : Nonce) : (s.setNonce v).mtCursor = s.mtCursor := rfl
@[simp] theorem State.setNonce_mtCidx (v : Nonce) : (s.setNonce v).mtCidx = s.mtCidx := rfl
@[simp] theorem State.setNonce_buf (v : Nonce) : (s.setNonce v).buf = s.buf := rfl
@[simp] theorem State.setNonce_bufSize (v : Nonce) : (s.setNonce v).bufSize = s.bufSize := rfl
@[simp] theorem State.setNonce_inputs (v : Nonce) : (s.setNonce v).inputs = s.inputs := rfl
@[simp] theorem State.setNonce_rdata (v : Nonce) : (s.setNonce v).rdata = s.rdata := rfl
@[simp] theorem State.setNonce_busyReads (v : Nonce) : (s.setNonce v).busyReads = s.busyReads := rfl
@[simp] theorem State.setNonce_powerOns (v : Nonce) : (s.setNonce v).powerOns = s.powerOns := rfl
@[simp] theorem State.setNonce_bufBytes (v : Nonce) : (s.setNonce v).bufBytes = s.bufBytes := rfl

/-! ### setCtr -/

@[simp] theorem State.setCtr_ie (v : BitVec 64) : (s.setCtr v).ie = s.ie := rfl
@[simp] theorem State.setCtr_busy (v : BitVec 64) : (s.setCtr v).busy = s.busy := rfl
@[simp] theorem State.setCtr_done (v : BitVec 64) : (s.setCtr v).done = s.done := rfl
@[simp] theorem State.setCtr_buserr (v : BitVec 64) : (s.setCtr v).buserr = s.buserr := rfl
@[simp] theorem State.setCtr_err (v : BitVec 64) : (s.setCtr v).err = s.err := rfl
@[simp] theorem State.setCtr_cmd (v : BitVec 64) : (s.setCtr v).cmd = s.cmd := rfl
@[simp] theorem State.setCtr_src (v : BitVec 64) : (s.setCtr v).src = s.src := rfl
@[simp] theorem State.setCtr_dst (v : BitVec 64) : (s.setCtr v).dst = s.dst := rfl
@[simp] theorem State.setCtr_len (v : BitVec 64) : (s.setCtr v).len = s.len := rfl
@[simp] theorem State.setCtr_rlen (v : BitVec 64) : (s.setCtr v).rlen = s.rlen := rfl
@[simp] theorem State.setCtr_key (v : BitVec 64) : (s.setCtr v).key = s.key := rfl
@[simp] theorem State.setCtr_iv (v : BitVec 64) : (s.setCtr v).iv = s.iv := rfl
@[simp] theorem State.setCtr_chain (v : BitVec 64) : (s.setCtr v).chain = s.chain := rfl
@[simp] theorem State.setCtr_nonce (v : BitVec 64) : (s.setCtr v).nonce = s.nonce := rfl
@[simp] theorem State.setCtr_ctr (v : BitVec 64) : (s.setCtr v).ctr = v := rfl
@[simp] theorem State.setCtr_mtSeed (v : BitVec 64) : (s.setCtr v).mtSeed = s.mtSeed := rfl
@[simp] theorem State.setCtr_mtOut (v : BitVec 64) : (s.setCtr v).mtOut = s.mtOut := rfl
@[simp] theorem State.setCtr_mtTin (v : BitVec 64) : (s.setCtr v).mtTin = s.mtTin := rfl
@[simp] theorem State.setCtr_mtTout (v : BitVec 64) : (s.setCtr v).mtTout = s.mtTout := rfl
@[simp] theorem State.setCtr_mt (v : BitVec 64) : (s.setCtr v).mt = s.mt := rfl
@[simp] theorem State.setCtr_mtCursor (v : BitVec 64) : (s.setCtr v).mtCursor = s.mtCursor := rfl
@[simp] theorem State.setCtr_mtCidx (v : BitVec 64) : (s.setCtr v).mtCidx = s.mtCidx := rfl
@[simp] theorem State.setCtr_buf (v : BitVec 64) : (s.setCtr v).buf = s.buf := rfl
@[simp] theorem State.setCtr_bufSize (v : BitVec 64) : (s.setCtr v).bufSize = s.bufSize := rfl
@[simp] theorem State.setCtr_inputs (v : BitVec 64) : (s.setCtr v).inputs = s.inputs := rfl
@[simp] theorem State.setCtr_rdata (v : BitVec 64) : (s.setCtr v).rdata = s.rdata := rfl
@[simp] theorem State.setCtr_busyReads (v : BitVec 64) : (s.setCtr v).busyReads = s.busyReads := rfl
@[simp] theorem State.setCtr_powerOns (v : BitVec 64) : (s.setCtr v).powerOns = s.powerOns := rfl
@[simp] theorem State.setCtr_bufBytes (v : BitVec 64) : (s.setCtr v).bufBytes = s.bufBytes := rfl

/-! ### setMtSeed -/

@[simp] theorem State.setMtSeed_ie (v : Word) : (s.setMtSeed v).ie = s.ie := rfl
@[simp] theorem State.setMtSeed_busy (v : Word) : (s.setMtSeed v).busy = s.busy := rfl
@[simp] theorem State.setMtSeed_done (v : Word) : (s.setMtSeed v).done = s.done := rfl
@[simp] theorem State.setMtSeed_buserr (v : Word) : (s.setMtSeed v).buserr = s.buserr := rfl
@[simp] theorem State.setMtSeed_err (v : Word) : (s.setMtSeed v).err = s.err := rfl
@[simp] theorem State.setMtSeed_cmd (v : Word) : (s.setMtSeed v).cmd = s.cmd := rfl
@[simp] theorem State.setMtSeed_src (v : Word) : (s.setMtSeed v).src = s.src := rfl
@[simp] theorem State.setMtSeed_dst (v : Word) : (s.setMtSeed v).dst = s.dst := rfl
@[simp] theorem State.setMtSeed_len (v : Word) : (s.setMtSeed v).len = s.len := rfl
@[simp] theorem State.setMtSeed_rlen (v : Word) : (s.setMtSeed v).rlen = s.rlen := rfl
@[simp] theorem State.setMtSeed_key (v : Word) : (s.setMtSeed v).key = s.key := rfl
@[simp] theorem State.setMtSeed_iv (v : Word) : (s.setMtSeed v).iv = s.iv := rfl
@[simp] theorem State.setMtSeed_chain (v : Word) : (s.setMtSeed v).chain = s.chain := rfl
@[simp] theorem State.setMtSeed_nonce (v : Word) : (s.setMtSeed v).nonce = s.nonce := rfl
@[simp] theorem State.setMtSeed_ctr (v : Word) : (s.setMtSeed v).ctr = s.ctr := rfl
@[simp] theorem State.setMtSeed_mtSeed (v : Word) : (s.setMtSeed v).mtSeed = v := rfl
@[simp] theorem State.setMtSeed_mtOut (v : Word) : (s.setMtSeed v).mtOut = s.mtOut := rfl
@[simp] theorem State.setMtSeed_mtTin (v : Word) : (s.setMtSeed v).mtTin = s.mtTin := rfl
@[simp] theorem State.setMtSeed_mtTout (v : Word) : (s.setMtSeed v).mtTout = s.mtTout := rfl
@[simp] theorem State.setMtSeed_mt (v : Word) : (s.setMtSeed v).mt = s.mt := rfl
@[simp] theorem State.setMtSeed_mtCursor (v : Word) : (s.setMtSeed v).mtCursor = s.mtCursor := rfl
@[simp] theorem State.setMtSeed_mtCidx (v : Word) : (s.setMtSeed v).mtCidx = s.mtCidx := rfl
@[simp] theorem State.setMtSeed_buf (v : Word) : (s.setMtSeed v).buf = s.buf := rfl
@[simp] theorem State.setMtSeed_bufSize (v : Word) : (s.setMtSeed v).bufSize = s.bufSize := rfl
@[simp] theorem State.setMtSeed_inputs (v : Word) : (s.setMtSeed v).inputs = s.inputs := rfl
@[simp] theorem State.setMtSeed_rdata (v : Word) : (s.setMtSeed v).rdata = s.rdata := rfl
@[simp] theorem State.setMtSeed_busyReads (v : Word) : (s.setMtSeed v).busyReads = s.busyReads := rfl
@[simp] theorem State.setMtSeed_powerOns (v : Word) : (s.setMtSeed v).powerOns = s.powerOns := rfl
@[simp] theorem State.setMtSeed_bufBytes (v : Word) : (s.setMtSeed v).bufBytes = s.bufBytes := rfl

/-! ### setMtOut -/

@[simp] theorem State.setMtOut_ie (v : Word) : (s.setMtOut v).ie = s.ie := rfl
@[simp] theorem State.setMtOut_busy (v : Word) : (s.setMtOut v).busy = s.busy := rfl
@[simp] theorem State.setMtOut_done (v : Word) : (s.setMtOut v).done = s.done := rfl
@[simp] theorem State.setMtOut_buserr (v : Word) : (s.setMtOut v).buserr = s.buserr := rfl
@[simp] theorem State.setMtOut_err (v : Word) : (s.setMtOut v).err = s.err := rfl
@[simp] theorem State.setMtOut_cmd (v : Word) : (s.setMtOut v).cmd = s.cmd := rfl
@[simp] theorem State.setMtOut_src (v : Word) : (s.setMtOut v).src = s.src := rfl
@[simp] theorem State.setMtOut_dst (v : Word) : (s.setMtOut v).dst = s.dst := rfl
@[simp] theorem State.setMtOut_len (v : Word) : (s.setMtOut v).len = s.len := rfl
@[simp] theorem State.setMtOut_rlen (v : Word) : (s.setMtOut v).rlen = s.rlen := rfl
@[simp] theorem State.setMtOut_key (v : Word) : (s.setMtOut v).key = s.key := rfl
@[simp] theorem State.setMtOut_iv (v : Word) : (s.setMtOut v).iv = s.iv := rfl
@[simp] theorem State.setMtOut_chain (v : Word) : (s.setMtOut v).chain = s.chain := rfl
@[simp] theorem State.setMtOut_nonce (v : Word) : (s.setMtOut v).nonce = s.nonce := rfl
@[simp] theorem State.setMtOut_ctr (v : Word) : (s.setMtOut v).ctr = s.ctr := rfl
@[simp] theorem State.setMtOut_mtSeed (v : Word) : (s.setMtOut v).mtSeed = s.mtSeed := rfl
@[simp] theorem State.setMtOut_mtOut (v : Word) : (s.setMtOut v).mtOut = v := rfl
@[simp] theorem State.setMtOut_mtTin (v : Word) : (s.setMtOut v).mtTin = s.mtTin := rfl
@[simp] theorem State.setMtOut_mtTout (v : Word) : (s.setMtOut v).mtTout = s.mtTout := rfl
@[simp] theorem State.setMtOut_mt (v : Word) : (s.setMtOut v).mt = s.mt := rfl
@[simp] theorem State.setMtOut_mtCursor (v : Word) : (s.setMtOut v).mtCursor = s.mtCursor := rfl
@[simp] theorem State.setMtOut_mtCidx (v : Word) : (s.setMtOut v).mtCidx = s.mtCidx := rfl
@[simp] theorem State.setMtOut_buf (v : Word) : (s.setMtOut v).buf = s.buf := rfl
@[simp] theorem State.setMtOut_bufSize (v : Word) : (s.setMtOut v).bufSize = s.bufSize := rfl
@[simp] theorem State.setMtOut_inputs (v : Word) : (s.setMtOut v).inputs = s.inputs := rfl
@[simp] theorem State.setMtOut_rdata (v : Word) : (s.setMtOut v).rdata = s.rdata := rfl
@[simp] theorem State.setMtOut_busyReads (v : Word) : (s.setMtOut v).busyReads = s.busyReads := rfl
@[simp] theorem State.setMtOut_powerOns (v : Word) : (s.setMtOut v).powerOns = s.powerOns := rfl
@[simp] theorem State.setMtOut_bufBytes (v : Word) : (s.setMtOut v).bufBytes = s.bufBytes := rfl

/-! ### setMtTin -/

@[simp] theorem State.setMtTin_ie (v : Word) : (s.setMtTin v).ie = s.ie := rfl
@[simp] theorem State.setMtTin_busy (v : Word) : (s.setMtTin v).busy = s.busy := rfl
@[simp] theorem State.setMtTin_done (v : Word) : (s.setMtTin v).done = s.done := rfl
@[simp] theorem State.setMtTin_buserr (v : Word) : (s.setMtTin v).buserr = s.buserr := rfl
@[simp] theorem State.setMtTin_err (v : Word) : (s.setMtTin v).err = s.err := rfl
@[simp] theorem State.setMtTin_cmd (v : Word) : (s.setMtTin v).cmd = s.cmd := rfl
@[simp] theorem State.setMtTin_src (v : Word) : (s.setMtTin v).src = s.src := rfl
@[simp] theorem State.setMtTin_dst (v : Word) : (s.setMtTin v).dst = s.dst := rfl
@[simp] theorem State.setMtTin_len (v : Word) : (s.setMtTin v).len = s.len := rfl
@[simp] theorem State.setMtTin_rlen (v : Word) : (s.setMtTin v).rlen = s.rlen := rfl
@[simp] theorem State.setMtTin_key (v : Word) : (s.setMtTin v).key = s.key := rfl
@[simp] theorem State.setMtTin_iv (v : Word) : (s.setMtTin v).iv = s.iv := rfl
@[simp] theorem State.setMtTin_chain (v : Word) : (s.setMtTin v).chain = s.chain := rfl
@[simp] theorem State.setMtTin_nonce (v : Word) : (s.setMtTin v).nonce = s.nonce := rfl
@[simp] theorem State.setMtTin_ctr (v : Word) : (s.setMtTin v).ctr = s.ctr := rfl
@[simp] theorem State.setMtTin_mtSeed (v : Word) : (s.setMtTin v).mtSeed = s.mtSeed := rfl
@[simp] theorem State.setMtTin_mtOut (v : Word) : (s.setMtTin v).mtOut = s.mtOut := rfl
@[simp] theorem State.setMtTin_mtTin (v : Word) : (s.setMtTin v).mtTin = v := rfl
@[simp] theorem State.setMtTin_mtTout (v : Word) : (s.setMtTin v).mtTout = s.mtTout := rfl
@[simp] theorem State.setMtTin_mt (v : Word) : (s.setMtTin v).mt = s.mt := rfl
@[simp] theorem State.setMtTin_mtCursor (v : Word) : (s.setMtTin v).mtCursor = s.mtCursor := rfl
@[simp] theorem State.setMtTin_mtCidx (v : Word) : (s.setMtTin v).mtCidx = s.mtCidx := rfl
@[simp] theorem State.setMtTin_buf (v : Word) : (s.setMtTin v).buf = s.buf := rfl
@[simp] theorem State.setMtTin_bufSize (v : Word) : (s.setMtTin v).bufSize = s.bufSize := rfl
@[simp] theorem State.setMtTin_inputs (v : Word) : (s.setMtTin v).inputs = s.inputs := rfl
@[simp] theorem State.setMtTin_rdata (v : Word) : (s.setMtTin v).rdata = s.rdata := rfl
@[simp] theorem State.setMtTin_busyReads (v : Word) : (s.setMtTin v).busyReads = s.busyReads := rfl
@[simp] theorem State.setMtTin_powerOns (v : Word) : (s.setMtTin v).powerOns = s.powerOns := rfl
@[simp] theorem State.setMtTin_bufBytes (v : Word) : (s.setMtTin v).bufBytes = s.bufBytes := rfl

/-! ### setMtTout -/

@[simp] theorem State.setMtTout_ie (v : Word) : (s.setMtTout v).ie = s.ie := rfl
@[simp] theorem State.setMtTout_busy (v : Word) : (s.setMtTout v).busy = s.busy := rfl
@[simp] theorem State.setMtTout_done (v : Word) : (s.setMtTout v).done = s.done := rfl
@[simp] theorem State.setMtTout_buserr (v : Word) : (s.setMtTout v).buserr = s.buserr := rfl
@[simp] theorem State.setMtTout_err (v : Word) : (s.setMtTout v).err = s.err := rfl
@[simp] theorem State.setMtTout_cmd (v : Word) : (s.setMtTout v).cmd = s.cmd := rfl
@[simp] theorem State.setMtTout_src (v : Word) : (s.setMtTout v).src = s.src := rfl
@[simp] theorem State.setMtTout_dst (v : Word) : (s.setMtTout v).dst = s.dst := rfl
@[simp] theorem State.setMtTout_len (v : Word) : (s.setMtTout v).len = s.len := rfl
@[simp] theorem State.setMtTout_rlen (v : Word) : (s.setMtTout v).rlen = s.rlen := rfl
@[simp] theorem State.setMtTout_key (v : Word) : (s.setMtTout v).key = s.key := rfl
@[simp] theorem State.setMtTout_iv (v : Word) : (s.setMtTout v).iv = s.iv := rfl
@[simp] theorem State.setMtTout_chain (v : Word) : (s.setMtTout v).chain = s.chain := rfl
@[simp] theorem State.setMtTout_nonce (v : Word) : (s.setMtTout v).nonce = s.nonce := rfl
@[simp] theorem State.setMtTout_ctr (v : Word) : (s.setMtTout v).ctr = s.ctr := rfl
@[simp] theorem State.setMtTout_mtSeed (v : Word) : (s.setMtTout v).mtSeed = s.mtSeed := rfl
@[simp] theorem State.setMtTout_mtOut (v : Word) : (s.setMtTout v).mtOut = s.mtOut := rfl
@[simp] theorem State.setMtTout_mtTin (v : Word) : (s.setMtTout v).mtTin = s.mtTin := rfl
@[simp] theorem State.setMtTout_mtTout (v : Word) : (s.setMtTout v).mtTout = v := rfl
@[simp] theorem State.setMtTout_mt (v : Word) : (s.setMtTout v).mt = s.mt := rfl
@[simp] theorem State.setMtTout_mtCursor (v : Word) : (s.setMtTout v).mtCursor = s.mtCursor := rfl
@[simp] theorem State.setMtTout_mtCidx (v : Word) : (s.setMtTout v).mtCidx = s.mtCidx := rfl
@[simp] theorem State.setMtTout_buf (v : Word) : (s.setMtTout v).buf = s.buf := rfl
@[simp] theorem State.setMtTout_bufSize (v : Word) : (s.setMtTout v).bufSize = s.bufSize := rfl
@[simp] theorem State.setMtTout_inputs (v : Word) : (s.setMtTout v).inputs = s.inputs := rfl
@[simp] theorem State.setMtTout_rdata (v : Word) : (s.setMtTout v).rdata = s.rdata := rfl
@[simp] theorem State.setMtTout_busyReads (v : Word) : (s.setMtTout v).busyReads = s.busyReads := rfl
@[simp] theorem State.setMtTout_powerOns (v : Word) : (s.setMtTout v).powerOns = s.powerOns := rfl
@[simp] theorem State.setMtTout_bufBytes (v : Word) : (s.setMtTout v).bufBytes = s.bufBytes := rfl

/-! ### setMt -/

@[simp] theorem State.setMt_ie (v : MtArray) : (s.setMt v).ie = s.ie := rfl
@[simp] theorem State.setMt_busy (v : MtArray) : (s.setMt v).busy = s.busy := rfl
@[simp] theorem State.setMt_done (v : MtArray) : (s.setMt v).done = s.done := rfl
@[simp] theorem State.setMt_buserr (v : MtArray) : (s.setMt v).buserr = s.buserr := rfl
@[simp] theorem State.setMt_err (v : MtArray) : (s.setMt v).err = s.err := rfl
@[simp] theorem State.setMt_cmd (v : MtArray) : (s.setMt v).cmd = s.cmd := rfl
@[simp] theorem State.setMt_src (v : MtArray) : (s.setMt v).src = s.src := rfl
@[simp] theorem State.setMt_dst (v : MtArray) : (s.setMt v).dst = s.dst := rfl
@[simp] theorem State.setMt_len (v : MtArray) : (s.setMt v).len = s.len := rfl
@[simp] theorem State.setMt_rlen (v : MtArray) : (s.setMt v).rlen = s.rlen := rfl
@[simp] theorem State.setMt_key (v : MtArray) : (s.setMt v).key = s.key := rfl
@[simp] theorem State.setMt_iv (v : MtArray) : (s.setMt v).iv = s.iv := rfl
@[simp] theorem State.setMt_chain (v : MtArray) : (s.setMt v).chain = s.chain := rfl
@[simp] theorem State.setMt_nonce (v : MtArray) : (s.setMt v).nonce = s.nonce := rfl
@[simp] theorem State.setMt_ctr (v : MtArray) : (s.setMt v).ctr = s.ctr := rfl
@[simp] theorem State.setMt_mtSeed (v : MtArray) : (s.setMt v).mtSeed = s.mtSeed := rfl
@[simp] theorem State.setMt_mtOut (v : MtArray) : (s.setMt v).mtOut = s.mtOut := rfl
@[simp] theorem State.setMt_mtTin (v : MtArray) : (s.setMt v).mtTin = s.mtTin := rfl
@[simp] theorem State.setMt_mtTout (v : MtArray) : (s.setMt v).mtTout = s.mtTout := rfl
@[simp] theorem State.setMt_mt (v : MtArray) : (s.setMt v).mt = v := rfl
@[simp] theorem State.setMt_mtCursor (v : MtArray) : (s.setMt v).mtCursor = s.mtCursor := rfl
@[simp] theorem State.setMt_mtCidx (v : MtArray) : (s.setMt v).mtCidx = s.mtCidx := rfl
@[simp] theorem State.setMt_buf (v : MtArray) : (s.setMt v).buf = s.buf := rfl
@[simp] theorem State.setMt_bufSize (v : MtArray) : (s.setMt v).bufSize = s.bufSize := rfl
@[simp] theorem State.setMt_inputs (v : MtArray) : (s.setMt v).inputs = s.inputs := rfl
@[simp] theorem State.setMt_rdata (v : MtArray) : (s.setMt v).rdata = s.rdata := rfl
@[simp] theorem State.setMt_busyReads (v : MtArray) : (s.setMt v).busyReads = s.busyReads := rfl
@[simp] theorem State.setMt_powerOns (v : MtArray) : (s.setMt v).powerOns = s.powerOns := rfl
@[simp] theorem State.setMt_bufBytes (v : MtArray) : (s.setMt v).bufBytes = s.bufBytes := rfl

/-! ### setMtCursor -/

@[simp] theorem State.setMtCursor_ie (v : Fin 626) : (s.setMtCursor v).ie = s.ie := rfl
@[simp] theorem State.setMtCursor_busy (v : Fin 626) : (s.setMtCursor v).busy = s.busy := rfl
@[simp] theorem State.setMtCursor_done (v : Fin 626) : (s.setMtCursor v).done = s.done := rfl
@[simp] theorem State.setMtCursor_buserr (v : Fin 626) : (s.setMtCursor v).buserr = s.buserr := rfl
@[simp] theorem State.setMtCursor_err (v : Fin 626) : (s.setMtCursor v).err = s.err := rfl
@[simp] theorem State.setMtCursor_cmd (v : Fin 626) : (s.setMtCursor v).cmd = s.cmd := rfl
@[simp] theorem State.setMtCursor_src (v : Fin 626) : (s.setMtCursor v).src = s.src := rfl
@[simp] theorem State.setMtCursor_dst (v : Fin 626) : (s.setMtCursor v).dst = s.dst := rfl
@[simp] theorem State.setMtCursor_len (v : Fin 626) : (s.setMtCursor v).len = s.len := rfl
@[simp] theorem State.setMtCursor_rlen (v : Fin 626) : (s.setMtCursor v).rlen = s.rlen := rfl
@[simp] theorem State.setMtCursor_key (v : Fin 626) : (s.setMtCursor v).key = s.key := rfl
@[simp] theorem State.setMtCursor_iv (v : Fin 626) : (s.setMtCursor v).iv = s.iv := rfl
@[simp] theorem State.setMtCursor_chain (v : Fin 626) : (s.setMtCursor v).chain = s.chain := rfl
@[simp] theorem State.setMtCursor_nonce (v : Fin 626) : (s.setMtCursor v).nonce = s.nonce := rfl
@[simp] theorem State.setMtCursor_ctr (v : Fin 626) : (s.setMtCursor v).ctr = s.ctr := rfl
@[simp] theorem State.setMtCursor_mtSeed (v : Fin 626) : (s.setMtCursor v).mtSeed = s.mtSeed := rfl
@[simp] theorem State.setMtCursor_mtOut (v : Fin 626) : (s.setMtCursor v).mtOut = s.mtOut := rfl
@[simp] theorem State.setMtCursor_mtTin (v : Fin 626) : (s.setMtCursor v).mtTin = s.mtTin := rfl
@[simp] theorem State.setMtCursor_mtTout (v : Fin 626) : (s.setMtCursor v).mtTout = s.mtTout := rfl
@[simp] theorem State.setMtCursor_mt (v : Fin 626) : (s.setMtCursor v).mt = s.mt := rfl
@[simp] theorem State.setMtCursor_mtCursor (v : Fin 626) : (s.setMtCursor v).mtCursor = v := rfl
@[simp] theorem State.setMtCursor_mtCidx (v : Fin 626) : (s.setMtCursor v).mtCidx = s.mtCidx := rfl
@[simp] theorem State.setMtCursor_buf (v : Fin 626) : (s.setMtCursor v).buf = s.buf := rfl
@[simp] theorem State.setMtCursor_bufSize (v : Fin 626) : (s.setMtCursor v).bufSize = s.bufSize := rfl
@[simp] theorem State.setMtCursor_inputs (v : Fin 626) : (s.setMtCursor v).inputs = s.inputs := rfl
@[simp] theorem State.setMtCursor_rdata (v : Fin 626) : (s.setMtCursor v).rdata = s.rdata := rfl
@[simp] theorem State.setMtCursor_busyReads (v : Fin 626) : (s.setMtCursor v).busyReads = s.busyReads := rfl
@[simp] theorem State.setMtCursor_powerOns (v : Fin 626) : (s.setMtCursor v).powerOns = s.powerOns := rfl
@[simp] theorem State.setMtCursor_bufBytes (v : Fin 626) : (s.setMtCursor v).bufBytes = s.bufBytes := rfl

/-! ### setMtCidx -/

@[simp] theorem State.setMtCidx_ie (v : Fin 624) : (s.setMtCidx v).ie = s.ie := rfl
@[simp] theorem State.setMtCidx_busy (v : Fin 624) : (s.setMtCidx v).busy = s.busy := rfl
@[simp] theorem State.setMtCidx_done (v : Fin 624) : (s.setMtCidx v).done = s.done := rfl
@[simp] theorem State.setMtCidx_buserr (v : Fin 624) : (s.setMtCidx v).buserr = s.buserr := rfl
@[simp] theorem State.setMtCidx_err (v : Fin 624) : (s.setMtCidx v).err = s.err := rfl
@[simp] theorem State.setMtCidx_cmd (v : Fin 624) : (s.setMtCidx v).cmd = s.cmd := rfl
@[simp] theorem State.setMtCidx_src (v : Fin 624) : (s.setMtCidx v).src = s.src := rfl
@[simp] theorem State.setMtCidx_dst (v : Fin 624) : (s.setMtCidx v).dst = s.dst := rfl
@[simp] theorem State.setMtCidx_len (v : Fin 624) : (s.setMtCidx v).len = s.len := rfl
@[simp] theorem State.setMtCidx_rlen (v : Fin 624) : (s.setMtCidx v).rlen = s.rlen := rfl
@[simp] theorem State.setMtCidx_key (v : Fin 624) : (s.setMtCidx v).key = s.key := rfl
@[simp] theorem State.setMtCidx_iv (v : Fin 624) : (s.setMtCidx v).iv = s.iv := rfl
@[simp] theorem State.setMtCidx_chain (v : Fin 624) : (s.setMtCidx v).chain = s.chain := rfl
@[simp] theorem State.setMtCidx_nonce (v : Fin 624) : (s.setMtCidx v).nonce = s.nonce := rfl
@[simp] theorem State.setMtCidx_ctr (v : Fin 624) : (s.setMtCidx v).ctr = s.ctr := rfl
@[simp] theorem State.setMtCidx_mtSeed (v : Fin 624) : (s.setMtCidx v).mtSeed = s.mtSeed := rfl
@[simp] theorem State.setMtCidx_mtOut (v : Fin 624) : (s.setMtCidx v).mtOut = s.mtOut := rfl
@[simp] theorem State.setMtCidx_mtTin (v : Fin 624) : (s.setMtCidx v).mtTin = s.mtTin := rfl
@[simp] theorem State.setMtCidx_mtTout (v : Fin 624) : (s.setMtCidx v).mtTout = s.mtTout := rfl
@[simp] theorem State.setMtCidx_mt (v : Fin 624) : (s.setMtCidx v).mt = s.mt := rfl
@[simp] theorem State.setMtCidx_mtCursor (v : Fin 624) : (s.setMtCidx v).mtCursor = s.mtCursor := rfl
@[simp] theorem State.setMtCidx_mtCidx (v : Fin 624) : (s.setMtCidx v).mtCidx = v := rfl
@[simp] theorem State.setMtCidx_buf (v : Fin 624) : (s.setMtCidx v).buf = s.buf := rfl
@[simp] theorem State.setMtCidx_bufSize (v : Fin 624) : (s.setMtCidx v).bufSize = s.bufSize := rfl
@[simp] theorem State.setMtCidx_inputs (v : Fin 624) : (s.setMtCidx v).inputs = s.inputs := rfl
@[simp] theorem State.setMtCidx_rdata (v : Fin 624) : (s.setMtCidx v).rdata = s.rdata := rfl
@[simp] theorem State.setMtCidx_busyReads (v : Fin 624) : (s.setMtCidx v).busyReads = s.busyReads := rfl
@[simp] theorem State.setMtCidx_powerOns (v : Fin 624) : (s.setMtCidx v).powerOns = s.powerOns := rfl
@[simp] theorem State.setMtCidx_bufBytes (v : Fin 624) : (s.setMtCidx v).bufBytes = s.bufBytes := rfl

/-! ### setInputs -/

@[simp] theorem State.setInputs_ie (v : List BusEvent) : (s.setInputs v).ie = s.ie := rfl
@[simp] theorem State.setInputs_busy (v : List BusEvent) : (s.setInputs v).busy = s.busy := rfl
@[simp] theorem State.setInputs_done (v : List BusEvent) : (s.setInputs v).done = s.done := rfl
@[simp] theorem State.setInputs_buserr (v : List BusEvent) : (s.setInputs v).buserr = s.buserr := rfl
@[simp] theorem State.setInputs_err (v : List BusEvent) : (s.setInputs v).err = s.err := rfl
@[simp] theorem State.setInputs_cmd (v : List BusEvent) : (s.setInputs v).cmd = s.cmd := rfl
@[simp] theorem State.setInputs_src (v : List BusEvent) : (s.setInputs v).src = s.src := rfl
@[simp] theorem State.setInputs_dst (v : List BusEvent) : (s.setInputs v).dst = s.dst := rfl
@[simp] theorem State.setInputs_len (v : List BusEvent) : (s.setInputs v).len = s.len := rfl
@[simp] theorem State.setInputs_rlen (v : List BusEvent) : (s.setInputs v).rlen = s.rlen := rfl
@[simp] theorem State.setInputs_key (v : List BusEvent) : (s.setInputs v).key = s.key := rfl
@[simp] theorem State.setInputs_iv (v : List BusEvent) : (s.setInputs v).iv = s.iv := rfl
@[simp] theorem State.setInputs_chain (v : List BusEvent) : (s.setInputs v).chain = s.chain := rfl
@[simp] theorem State.setInputs_nonce (v : List BusEvent) : (s.setInputs v).nonce = s.nonce := rfl
@[simp] theorem State.setInputs_ctr (v : List BusEvent) : (s.setInputs v).ctr = s.ctr := rfl
@[simp] theorem State.setInputs_mtSeed (v : List BusEvent) : (s.setInputs v).mtSeed = s.mtSeed := rfl
@[simp] theorem State.setInputs_mtOut (v : List BusEvent) : (s.setInputs v).mtOut = s.mtOut := rfl
@[simp] theorem State.setInputs_mtTin (v : List BusEvent) : (s.setInputs v).mtTin = s.mtTin := rfl
@[simp] theorem State.setInputs_mtTout (v : List BusEvent) : (s.setInputs v).mtTout = s.mtTout := rfl
@[simp] theorem State.setInputs_mt (v : List BusEvent) : (s.setInputs v).mt = s.mt := rfl
@[simp] theorem State.setInputs_mtCursor (v : List BusEvent) : (s.setInputs v).mtCursor = s.mtCursor := rfl
@[simp] theorem State.setInputs_mtCidx (v : List BusEvent) : (s.setInputs v).mtCidx = s.mtCidx := rfl
@[simp] theorem State.setInputs_buf (v : List BusEvent) : (s.setInputs v).buf = s.buf := rfl
@[simp] theorem State.setInputs_bufSize (v : List BusEvent) : (s.setInputs v).bufSize = s.bufSize := rfl
@[simp] theorem State.setInputs_inputs (v : List BusEvent) : (s.setInputs v).inputs = v := rfl
@[simp] theorem State.setInputs_rdata (v : List BusEvent) : (s.setInputs v).rdata = s.rdata := rfl
@[simp] theorem State.setInputs_busyReads (v : List BusEvent) : (s.setInputs v).busyReads = s.busyReads := rfl
@[simp] theorem State.setInputs_powerOns (v : List BusEvent) : (s.setInputs v).powerOns = s.powerOns := rfl
@[simp] theorem State.setInputs_bufBytes (v : List BusEvent) : (s.setInputs v).bufBytes = s.bufBytes := rfl

/-! ### setRdata -/

@[simp] theorem State.setRdata_ie (v : Word) : (s.setRdata v).ie = s.ie := rfl
@[simp] theorem State.setRdata_busy (v : Word) : (s.setRdata v).busy = s.busy := rfl
@[simp] theorem State.setRdata_done (v : Word) : (s.setRdata v).done = s.done := rfl
@[simp] theorem State.setRdata_buserr (v : Word) : (s.setRdata v).buserr = s.buserr := rfl
@[simp] theorem State.setRdata_err (v : Word) : (s.setRdata v).err = s.err := rfl
@[simp] theorem State.setRdata_cmd (v : Word) : (s.setRdata v).cmd = s.cmd := rfl
@[simp] theorem State.setRdata_src (v : Word) : (s.setRdata v).src = s.src := rfl
@[simp] theorem State.setRdata_dst (v : Word) : (s.setRdata v).dst = s.dst := rfl
@[simp] theorem State.setRdata_len (v : Word) : (s.setRdata v).len = s.len := rfl
@[simp] theorem State.setRdata_rlen (v : Word) : (s.setRdata v).rlen = s.rlen := rfl
@[simp] theorem State.setRdata_key (v : Word) : (s.setRdata v).key = s.key := rfl
@[simp] theorem State.setRdata_iv (v : Word) : (s.setRdata v).iv = s.iv := rfl
@[simp] theorem State.setRdata_chain (v : Word) : (s.setRdata v).chain = s.chain := rfl
@[simp] theorem State.setRdata_nonce (v : Word) : (s.setRdata v).nonce = s.nonce := rfl
@[simp] theorem State.setRdata_ctr (v : Word) : (s.setRdata v).ctr = s.ctr := rfl
@[simp] theorem State.setRdata_mtSeed (v : Word) : (s.setRdata v).mtSeed = s.mtSeed := rfl
@[simp] theorem State.setRdata_mtOut (v : Word) : (s.setRdata v).mtOut = s.mtOut := rfl
@[simp] theorem State.setRdata_mtTin (v : Word) : (s.setRdata v).mtTin = s.mtTin := rfl
@[simp] theorem State.setRdata_mtTout (v : Word) : (s.setRdata v).mtTout = s.mtTout := rfl
@[simp] theorem State.setRdata_mt (v : Word) : (s.setRdata v).mt = s.mt := rfl
@[simp] theorem State.setRdata_mtCursor (v : Word) : (s.setRdata v).mtCursor = s.mtCursor := rfl
@[simp] theorem State.setRdata_mtCidx (v : Word) : (s.setRdata v).mtCidx = s.mtCidx := rfl
@[simp] theorem State.setRdata_buf (v : Word) : (s.setRdata v).buf = s.buf := rfl
@[simp] theorem State.setRdata_bufSize (v : Word) : (s.setRdata v).bufSize = s.bufSize := rfl
@[simp] theorem State.setRdata_inputs (v : Word) : (s.setRdata v).inputs = s.inputs := rfl
@[simp] theorem State.setRdata_rdata (v : Word) : (s.setRdata v).rdata = v := rfl
@[simp] theorem State.setRdata_busyReads (v : Word) : (s.setRdata v).busyReads = s.busyReads := rfl
@[simp] theorem State.setRdata_powerOns (v : Word) : (s.setRdata v).powerOns = s.powerOns := rfl
@[simp] theorem State.setRdata_bufBytes (v : Word) : (s.setRdata v).bufBytes = s.bufBytes := rfl

/-! ### softReset -/

@[simp] theorem State.softReset_ie : s.softReset.ie = State.reset.ie := rfl
@[simp] theorem State.softReset_busy : s.softReset.busy = State.reset.busy := rfl
@[simp] theorem State.softReset_done : s.softReset.done = State.reset.done := rfl
@[simp] theorem State.softReset_buserr : s.softReset.buserr = State.reset.buserr := rfl
@[simp] theorem State.softReset_err : s.softReset.err = State.reset.err := rfl
@[simp] theorem State.softReset_cmd : s.softReset.cmd = State.reset.cmd := rfl
@[simp] theorem State.softReset_src : s.softReset.src = State.reset.src := rfl
@[simp] theorem State.softReset_dst : s.softReset.dst = State.reset.dst := rfl
@[simp] theorem State.softReset_len : s.softReset.len = State.reset.len := rfl
@[simp] theorem State.softReset_rlen : s.softReset.rlen = State.reset.rlen := rfl
@[simp] theorem State.softReset_key : s.softReset.key = State.reset.key := rfl
@[simp] theorem State.softReset_iv : s.softReset.iv = State.reset.iv := rfl
@[simp] theorem State.softReset_chain : s.softReset.chain = State.reset.chain := rfl
@[simp] theorem State.softReset_nonce : s.softReset.nonce = State.reset.nonce := rfl
@[simp] theorem State.softReset_ctr : s.softReset.ctr = State.reset.ctr := rfl
@[simp] theorem State.softReset_mtSeed : s.softReset.mtSeed = State.reset.mtSeed := rfl
@[simp] theorem State.softReset_mtOut : s.softReset.mtOut = State.reset.mtOut := rfl
@[simp] theorem State.softReset_mtTin : s.softReset.mtTin = State.reset.mtTin := rfl
@[simp] theorem State.softReset_mtTout : s.softReset.mtTout = State.reset.mtTout := rfl
@[simp] theorem State.softReset_mt : s.softReset.mt = State.reset.mt := rfl
@[simp] theorem State.softReset_mtCursor : s.softReset.mtCursor = State.reset.mtCursor := rfl
@[simp] theorem State.softReset_mtCidx : s.softReset.mtCidx = State.reset.mtCidx := rfl
@[simp] theorem State.softReset_buf : s.softReset.buf = s.buf := rfl
@[simp] theorem State.softReset_bufSize : s.softReset.bufSize = s.bufSize := rfl
@[simp] theorem State.softReset_inputs : s.softReset.inputs = s.inputs := rfl
@[simp] theorem State.softReset_rdata : s.softReset.rdata = s.rdata := rfl
@[simp] theorem State.softReset_busyReads : s.softReset.busyReads = s.busyReads := rfl
@[simp] theorem State.softReset_powerOns : s.softReset.powerOns = s.powerOns := rfl
@[simp] theorem State.softReset_bufBytes : s.softReset.bufBytes = s.bufBytes := rfl

/-! ### hardReset -/

@[simp] theorem State.hardReset_ie : s.hardReset.ie = State.reset.ie := rfl
@[simp] theorem State.hardReset_busy : s.hardReset.busy = State.reset.busy := rfl
@[simp] theorem State.hardReset_done : s.hardReset.done = State.reset.done := rfl
@[simp] theorem State.hardReset_buserr : s.hardReset.buserr = State.reset.buserr := rfl
@[simp] theorem State.hardReset_err : s.hardReset.err = State.reset.err := rfl
@[simp] theorem State.hardReset_cmd : s.hardReset.cmd = State.reset.cmd := rfl
@[simp] theorem State.hardReset_src : s.hardReset.src = State.reset.src := rfl
@[simp] theorem State.hardReset_dst : s.hardReset.dst = State.reset.dst := rfl
@[simp] theorem State.hardReset_len : s.hardReset.len = State.reset.len := rfl
@[simp] theorem State.hardReset_rlen : s.hardReset.rlen = State.reset.rlen := rfl
@[simp] theorem State.hardReset_key : s.hardReset.key = State.reset.key := rfl
@[simp] theorem State.hardReset_iv : s.hardReset.iv = State.reset.iv := rfl
@[simp] theorem State.hardReset_chain : s.hardReset.chain = State.reset.chain := rfl
@[simp] theorem State.hardReset_nonce : s.hardReset.nonce = State.reset.nonce := rfl
@[simp] theorem State.hardReset_ctr : s.hardReset.ctr = State.reset.ctr := rfl
@[simp] theorem State.hardReset_mtSeed : s.hardReset.mtSeed = State.reset.mtSeed := rfl
@[simp] theorem State.hardReset_mtOut : s.hardReset.mtOut = State.reset.mtOut := rfl
@[simp] theorem State.hardReset_mtTin : s.hardReset.mtTin = State.reset.mtTin := rfl
@[simp] theorem State.hardReset_mtTout : s.hardReset.mtTout = State.reset.mtTout := rfl
@[simp] theorem State.hardReset_mt : s.hardReset.mt = State.reset.mt := rfl
@[simp] theorem State.hardReset_mtCursor : s.hardReset.mtCursor = State.reset.mtCursor := rfl
@[simp] theorem State.hardReset_mtCidx : s.hardReset.mtCidx = State.reset.mtCidx := rfl
@[simp] theorem State.hardReset_buf : s.hardReset.buf = State.reset.buf := rfl
@[simp] theorem State.hardReset_bufSize : s.hardReset.bufSize = s.bufSize := rfl
@[simp] theorem State.hardReset_inputs : s.hardReset.inputs = s.inputs := rfl
@[simp] theorem State.hardReset_rdata : s.hardReset.rdata = s.rdata := rfl
@[simp] theorem State.hardReset_busyReads : s.hardReset.busyReads = s.busyReads := rfl
@[simp] theorem State.hardReset_powerOns : s.hardReset.powerOns = s.powerOns + 1 := rfl
@[simp] theorem State.hardReset_bufBytes : s.hardReset.bufBytes = s.bufBytes := rfl

/-! ### initChain -/

@[simp] theorem State.initChain_ie (b : Bool) : (s.initChain b).ie = s.ie := by cases b <;> rfl
@[simp] theorem State.initChain_busy (b : Bool) : (s.initChain b).busy = s.busy := by cases b <;> rfl
@[simp] theorem State.initChain_done (b : Bool) : (s.initChain b).done = s.done := by cases b <;> rfl
@[simp] theorem State.initChain_buserr (b : Bool) : (s.initChain b).buserr = s.buserr := by cases b <;> rfl
@[simp] theorem State.initChain_err (b : Bool) : (s.initChain b).err = s.err := by cases b <;> rfl
@[simp] theorem State.initChain_cmd (b : Bool) : (s.initChain b).cmd = s.cmd := by cases b <;> rfl
@[simp] theorem State.initChain_src (b : Bool) : (s.initChain b).src = s.src := by cases b <;> rfl
@[simp] theorem State.initChain_dst (b : Bool) : (s.initChain b).dst = s.dst := by cases b <;> rfl
@[simp] theorem State.initChain_len (b : Bool) : (s.initChain b).len = s.len := by cases b <;> rfl
@[simp] theorem State.initChain_rlen (b : Bool) : (s.initChain b).rlen = s.rlen := by cases b <;> rfl
@[simp] theorem State.initChain_key (b : Bool) : (s.initChain b).key = s.key := by cases b <;> rfl
@[simp] theorem State.initChain_iv (b : Bool) : (s.initChain b).iv = s.iv := by cases b <;> rfl
@[simp] theorem State.initChain_chain (b : Bool) : (s.initChain b).chain = (if b then s.iv else s.chain) := by cases b <;> rfl
@[simp] theorem State.initChain_nonce (b : Bool) : (s.initChain b).nonce = s.nonce := by cases b <;> rfl
@[simp] theorem State.initChain_ctr (b : Bool) : (s.initChain b).ctr = s.ctr := by cases b <;> rfl
@[simp] theorem State.initChain_mtSeed (b : Bool) : (s.initChain b).mtSeed = s.mtSeed := by cases b <;> rfl
@[simp] theorem State.initChain_mtOut (b : Bool) : (s.initChain b).mtOut = s.mtOut := by cases b <;> rfl
@[simp] theorem State.initChain_mtTin (b : Bool) : (s.initChain b).mtTin = s.mtTin := by cases b <;> rfl
@[simp] theorem State.initChain_mtTout (b : Bool) : (s.initChain b).mtTout = s.mtTout := by cases b <;> rfl
@[simp] theorem State.initChain_mt (b : Bool) : (s.initChain b).mt = s.mt := by cases b <;> rfl
@[simp] theorem State.initChain_mtCursor (b : Bool) : (s.initChain b).mtCursor = s.mtCursor := by cases b <;> rfl
@[simp] theorem State.initChain_mtCidx (b : Bool) : (s.initChain b).mtCidx = s.mtCidx := by cases b <;> rfl
@[simp] theorem State.initChain_buf (b : Bool) : (s.initChain b).buf = s.buf := by cases b <;> rfl
@[simp] theorem State.initChain_bufSize (b : Bool) : (s.initChain b).bufSize = s.bufSize := by cases b <;> rfl
@[simp] theorem State.initChain_inputs (b : Bool) : (s.initChain b).inputs = s.inputs := by cases b <;> rfl
@[simp] theorem State.initChain_rdata (b : Bool) : (s.initChain b).rdata = s.rdata := by cases b <;> rfl
@[simp] theorem State.initChain_busyReads (b : Bool) : (s.initChain b).busyReads = s.busyReads := by cases b <;> rfl
@[simp] theorem State.initChain_powerOns (b : Bool) : (s.initChain b).powerOns = s.powerOns := by cases b <;> rfl
@[simp] theorem State.initChain_bufBytes (b : Bool) : (s.initChain b).bufBytes = s.bufBytes := by cases b <;> rfl

/-! ### initCtr -/

@[simp] theorem State.initCtr_ie (b : Bool) : (s.initCtr b).ie = s.ie := by cases b <;> rfl
@[simp] theorem State.initCtr_busy (b : Bool) : (s.initCtr b).busy = s.busy := by cases b <;> rfl
@[simp] theorem State.initCtr_done (b : Bool) : (s.initCtr b).done = s.done := by cases b <;> rfl
@[simp] theorem State.initCtr_buserr (b : Bool) : (s.initCtr b).buserr = s.buserr := by cases b <;> rfl
@[simp] theorem State.initCtr_err (b : Bool) : (s.initCtr b).err = s.err := by cases b <;> rfl
@[simp] theorem State.initCtr_cmd (b : Bool) : (s.initCtr b).cmd = s.cmd := by cases b <;> rfl
@[simp] theorem State.initCtr_src (b : Bool) : (s.initCtr b).src = s.src := by cases b <;> rfl
@[simp] theorem State.initCtr_dst (b : Bool) : (s.initCtr b).dst = s.dst := by cases b <;> rfl
@[simp] theorem State.initCtr_len (b : Bool) : (s.initCtr b).len = s.len := by cases b <;> rfl
@[simp] theorem State.initCtr_rlen (b : Bool) : (s.initCtr b).rlen = s.rlen := by cases b <;> rfl
@[simp] theorem State.initCtr_key (b : Bool) : (s.initCtr b).key = s.key := by cases b <;> rfl
@[simp] theorem State.initCtr_iv (b : Bool) : (s.initCtr b).iv = s.iv := by cases b <;> rfl
@[simp] theorem State.initCtr_chain (b : Bool) : (s.initCtr b).chain = s.chain := by cases b <;> rfl
@[simp] theorem State.initCtr_nonce (b : Bool) : (s.initCtr b).nonce = s.nonce := by cases b <;> rfl
@[simp] theorem State.initCtr_ctr (b : Bool) : (s.initCtr b).ctr = (if b then 0 else s.ctr) := by cases b <;> rfl
@[simp] theorem State.initCtr_mtSeed (b : Bool) : (s.initCtr b).mtSeed = s.mtSeed := by cases b <;> rfl
@[simp] theorem State.initCtr_mtOut (b : Bool) : (s.initCtr b).mtOut = s.mtOut := by cases b <;> rfl
@[simp] theorem State.initCtr_mtTin (b : Bool) : (s.initCtr b).mtTin = s.mtTin := by cases b <;> rfl
@[simp] theorem State.initCtr_mtTout (b : Bool) : (s.initCtr b).mtTout = s.mtTout := by cases b <;> rfl
@[simp] theorem State.initCtr_mt (b : Bool) : (s.initCtr b).mt = s.mt := by cases b <;> rfl
@[simp] theorem State.initCtr_mtCursor (b : Bool) : (s.initCtr b).mtCursor = s.mtCursor := by cases b <;> rfl
@[simp] theorem State.initCtr_mtCidx (b : Bool) : (s.initCtr b).mtCidx = s.mtCidx := by cases b <;> rfl
@[simp] theorem State.initCtr_buf (b : Bool) : (s.initCtr b).buf = s.buf := by cases b <;> rfl
@[simp] theorem State.initCtr_bufSize (b : Bool) : (s.initCtr b).bufSize = s.bufSize := by cases b <;> rfl
@[simp] theorem State.initCtr_inputs (b : Bool) : (s.initCtr b).inputs = s.inputs := by cases b <;> rfl
@[simp] theorem State.initCtr_rdata (b : Bool) : (s.initCtr b).rdata = s.rdata := by cases b <;> rfl
@[simp] theorem State.initCtr_busyReads (b : Bool) : (s.initCtr b).busyReads = s.busyReads := by cases b <;> rfl
@[simp] theorem State.initCtr_powerOns (b : Bool) : (s.initCtr b).powerOns = s.powerOns := by cases b <;> rfl
@[simp] theorem State.initCtr_bufBytes (b : Bool) : (s.initCtr b).bufBytes = s.bufBytes := by cases b <;> rfl

/-! ### Bytes of the buffer -/

/-- `readByte` depends on the buffer and on the power-on draw alone. -/
theorem readByte_congr {s t : State} (hb : t.buf = s.buf) (hp : t.powerOns = s.powerOns) (o : Nat) :
    t.readByte o = s.readByte o := by
  simp [State.readByte, hb, hp]

/-- `memRead` depends on the buffer and on the power-on draw alone. -/
theorem memRead_congr {s t : State} (hb : t.buf = s.buf) (hp : t.powerOns = s.powerOns) (a n : Nat) :
    t.memRead a n = s.memRead a n := by
  induction n generalizing a with
  | zero => rfl
  | succ n ih => simp [State.memRead, ih, readByte_congr hb hp]

/-- `readBlock` depends on the buffer and on the power-on draw alone. -/
theorem readBlock_congr {s t : State} (hb : t.buf = s.buf) (hp : t.powerOns = s.powerOns) (a : Nat) :
    t.readBlock a = s.readBlock a := by
  simp [State.readBlock, readByte_congr hb hp]

@[simp] theorem readByte_issue (v : Word) (o : Nat) : (s.issue v).readByte o = s.readByte o :=
  readByte_congr (by simp) (by simp) o
@[simp] theorem memRead_issue (v : Word) (o k : Nat) : (s.issue v).memRead o k = s.memRead o k :=
  memRead_congr (by simp) (by simp) o k
@[simp] theorem readBlock_issue (v : Word) (o : Nat) : (s.issue v).readBlock o = s.readBlock o :=
  readBlock_congr (by simp) (by simp) o
@[simp] theorem readByte_complete (c : ErrCode) (o : Nat) : (s.complete c).readByte o = s.readByte o :=
  readByte_congr (by simp) (by simp) o
@[simp] theorem memRead_complete (c : ErrCode) (o k : Nat) : (s.complete c).memRead o k = s.memRead o k :=
  memRead_congr (by simp) (by simp) o k
@[simp] theorem readBlock_complete (c : ErrCode) (o : Nat) : (s.complete c).readBlock o = s.readBlock o :=
  readBlock_congr (by simp) (by simp) o
@[simp] theorem readByte_busError (o : Nat) : (s.busError).readByte o = s.readByte o :=
  readByte_congr (by simp) (by simp) o
@[simp] theorem memRead_busError (o k : Nat) : (s.busError).memRead o k = s.memRead o k :=
  memRead_congr (by simp) (by simp) o k
@[simp] theorem readBlock_busError (o : Nat) : (s.busError).readBlock o = s.readBlock o :=
  readBlock_congr (by simp) (by simp) o
@[simp] theorem readByte_drawRead (o : Nat) : (s.drawRead).readByte o = s.readByte o :=
  readByte_congr (by simp) (by simp) o
@[simp] theorem memRead_drawRead (o k : Nat) : (s.drawRead).memRead o k = s.memRead o k :=
  memRead_congr (by simp) (by simp) o k
@[simp] theorem readBlock_drawRead (o : Nat) : (s.drawRead).readBlock o = s.readBlock o :=
  readBlock_congr (by simp) (by simp) o
@[simp] theorem readByte_writeStatus (v : Word) (o : Nat) : (s.writeStatus v).readByte o = s.readByte o :=
  readByte_congr (by simp) (by simp) o
@[simp] theorem memRead_writeStatus (v : Word) (o k : Nat) : (s.writeStatus v).memRead o k = s.memRead o k :=
  memRead_congr (by simp) (by simp) o k
@[simp] theorem readBlock_writeStatus (v : Word) (o : Nat) : (s.writeStatus v).readBlock o = s.readBlock o :=
  readBlock_congr (by simp) (by simp) o
@[simp] theorem readByte_setIe (v : Bool) (o : Nat) : (s.setIe v).readByte o = s.readByte o :=
  readByte_congr (by simp) (by simp) o
@[simp] theorem memRead_setIe (v : Bool) (o k : Nat) : (s.setIe v).memRead o k = s.memRead o k :=
  memRead_congr (by simp) (by simp) o k
@[simp] theorem readBlock_setIe (v : Bool) (o : Nat) : (s.setIe v).readBlock o = s.readBlock o :=
  readBlock_congr (by simp) (by simp) o
@[simp] theorem readByte_setSrc (v : Word) (o : Nat) : (s.setSrc v).readByte o = s.readByte o :=
  readByte_congr (by simp) (by simp) o
@[simp] theorem memRead_setSrc (v : Word) (o k : Nat) : (s.setSrc v).memRead o k = s.memRead o k :=
  memRead_congr (by simp) (by simp) o k
@[simp] theorem readBlock_setSrc (v : Word) (o : Nat) : (s.setSrc v).readBlock o = s.readBlock o :=
  readBlock_congr (by simp) (by simp) o
@[simp] theorem readByte_setDst (v : Word) (o : Nat) : (s.setDst v).readByte o = s.readByte o :=
  readByte_congr (by simp) (by simp) o
@[simp] theorem memRead_setDst (v : Word) (o k : Nat) : (s.setDst v).memRead o k = s.memRead o k :=
  memRead_congr (by simp) (by simp) o k
@[simp] theorem readBlock_setDst (v : Word) (o : Nat) : (s.setDst v).readBlock o = s.readBlock o :=
  readBlock_congr (by simp) (by simp) o
@[simp] theorem readByte_setLen (v : Word) (o : Nat) : (s.setLen v).readByte o = s.readByte o :=
  readByte_congr (by simp) (by simp) o
@[simp] theorem memRead_setLen (v : Word) (o k : Nat) : (s.setLen v).memRead o k = s.memRead o k :=
  memRead_congr (by simp) (by simp) o k
@[simp] theorem readBlock_setLen (v : Word) (o : Nat) : (s.setLen v).readBlock o = s.readBlock o :=
  readBlock_congr (by simp) (by simp) o
@[simp] theorem readByte_setRlen (v : Word) (o : Nat) : (s.setRlen v).readByte o = s.readByte o :=
  readByte_congr (by simp) (by simp) o
@[simp] theorem memRead_setRlen (v : Word) (o k : Nat) : (s.setRlen v).memRead o k = s.memRead o k :=
  memRead_congr (by simp) (by simp) o k
@[simp] theorem readBlock_setRlen (v : Word) (o : Nat) : (s.setRlen v).readBlock o = s.readBlock o :=
  readBlock_congr (by simp) (by simp) o
@[simp] theorem readByte_setKey (v : Block) (o : Nat) : (s.setKey v).readByte o = s.readByte o :=
  readByte_congr (by simp) (by simp) o
@[simp] theorem memRead_setKey (v : Block) (o k : Nat) : (s.setKey v).memRead o k = s.memRead o k :=
  memRead_congr (by simp) (by simp) o k
@[simp] theorem readBlock_setKey (v : Block) (o : Nat) : (s.setKey v).readBlock o = s.readBlock o :=
  readBlock_congr (by simp) (by simp) o
@[simp] theorem readByte_setIv (v : Block) (o : Nat) : (s.setIv v).readByte o = s.readByte o :=
  readByte_congr (by simp) (by simp) o
@[simp] theorem memRead_setIv (v : Block) (o k : Nat) : (s.setIv v).memRead o k = s.memRead o k :=
  memRead_congr (by simp) (by simp) o k
@[simp] theorem readBlock_setIv (v : Block) (o : Nat) : (s.setIv v).readBlock o = s.readBlock o :=
  readBlock_congr (by simp) (by simp) o
@[simp] theorem readByte_setChain (v : Block) (o : Nat) : (s.setChain v).readByte o = s.readByte o :=
  readByte_congr (by simp) (by simp) o
@[simp] theorem memRead_setChain (v : Block) (o k : Nat) : (s.setChain v).memRead o k = s.memRead o k :=
  memRead_congr (by simp) (by simp) o k
@[simp] theorem readBlock_setChain (v : Block) (o : Nat) : (s.setChain v).readBlock o = s.readBlock o :=
  readBlock_congr (by simp) (by simp) o
@[simp] theorem readByte_setNonce (v : Nonce) (o : Nat) : (s.setNonce v).readByte o = s.readByte o :=
  readByte_congr (by simp) (by simp) o
@[simp] theorem memRead_setNonce (v : Nonce) (o k : Nat) : (s.setNonce v).memRead o k = s.memRead o k :=
  memRead_congr (by simp) (by simp) o k
@[simp] theorem readBlock_setNonce (v : Nonce) (o : Nat) : (s.setNonce v).readBlock o = s.readBlock o :=
  readBlock_congr (by simp) (by simp) o
@[simp] theorem readByte_setCtr (v : BitVec 64) (o : Nat) : (s.setCtr v).readByte o = s.readByte o :=
  readByte_congr (by simp) (by simp) o
@[simp] theorem memRead_setCtr (v : BitVec 64) (o k : Nat) : (s.setCtr v).memRead o k = s.memRead o k :=
  memRead_congr (by simp) (by simp) o k
@[simp] theorem readBlock_setCtr (v : BitVec 64) (o : Nat) : (s.setCtr v).readBlock o = s.readBlock o :=
  readBlock_congr (by simp) (by simp) o
@[simp] theorem readByte_setMtSeed (v : Word) (o : Nat) : (s.setMtSeed v).readByte o = s.readByte o :=
  readByte_congr (by simp) (by simp) o
@[simp] theorem memRead_setMtSeed (v : Word) (o k : Nat) : (s.setMtSeed v).memRead o k = s.memRead o k :=
  memRead_congr (by simp) (by simp) o k
@[simp] theorem readBlock_setMtSeed (v : Word) (o : Nat) : (s.setMtSeed v).readBlock o = s.readBlock o :=
  readBlock_congr (by simp) (by simp) o
@[simp] theorem readByte_setMtOut (v : Word) (o : Nat) : (s.setMtOut v).readByte o = s.readByte o :=
  readByte_congr (by simp) (by simp) o
@[simp] theorem memRead_setMtOut (v : Word) (o k : Nat) : (s.setMtOut v).memRead o k = s.memRead o k :=
  memRead_congr (by simp) (by simp) o k
@[simp] theorem readBlock_setMtOut (v : Word) (o : Nat) : (s.setMtOut v).readBlock o = s.readBlock o :=
  readBlock_congr (by simp) (by simp) o
@[simp] theorem readByte_setMtTin (v : Word) (o : Nat) : (s.setMtTin v).readByte o = s.readByte o :=
  readByte_congr (by simp) (by simp) o
@[simp] theorem memRead_setMtTin (v : Word) (o k : Nat) : (s.setMtTin v).memRead o k = s.memRead o k :=
  memRead_congr (by simp) (by simp) o k
@[simp] theorem readBlock_setMtTin (v : Word) (o : Nat) : (s.setMtTin v).readBlock o = s.readBlock o :=
  readBlock_congr (by simp) (by simp) o
@[simp] theorem readByte_setMtTout (v : Word) (o : Nat) : (s.setMtTout v).readByte o = s.readByte o :=
  readByte_congr (by simp) (by simp) o
@[simp] theorem memRead_setMtTout (v : Word) (o k : Nat) : (s.setMtTout v).memRead o k = s.memRead o k :=
  memRead_congr (by simp) (by simp) o k
@[simp] theorem readBlock_setMtTout (v : Word) (o : Nat) : (s.setMtTout v).readBlock o = s.readBlock o :=
  readBlock_congr (by simp) (by simp) o
@[simp] theorem readByte_setMt (v : MtArray) (o : Nat) : (s.setMt v).readByte o = s.readByte o :=
  readByte_congr (by simp) (by simp) o
@[simp] theorem memRead_setMt (v : MtArray) (o k : Nat) : (s.setMt v).memRead o k = s.memRead o k :=
  memRead_congr (by simp) (by simp) o k
@[simp] theorem readBlock_setMt (v : MtArray) (o : Nat) : (s.setMt v).readBlock o = s.readBlock o :=
  readBlock_congr (by simp) (by simp) o
@[simp] theorem readByte_setMtCursor (v : Fin 626) (o : Nat) : (s.setMtCursor v).readByte o = s.readByte o :=
  readByte_congr (by simp) (by simp) o
@[simp] theorem memRead_setMtCursor (v : Fin 626) (o k : Nat) : (s.setMtCursor v).memRead o k = s.memRead o k :=
  memRead_congr (by simp) (by simp) o k
@[simp] theorem readBlock_setMtCursor (v : Fin 626) (o : Nat) : (s.setMtCursor v).readBlock o = s.readBlock o :=
  readBlock_congr (by simp) (by simp) o
@[simp] theorem readByte_setMtCidx (v : Fin 624) (o : Nat) : (s.setMtCidx v).readByte o = s.readByte o :=
  readByte_congr (by simp) (by simp) o
@[simp] theorem memRead_setMtCidx (v : Fin 624) (o k : Nat) : (s.setMtCidx v).memRead o k = s.memRead o k :=
  memRead_congr (by simp) (by simp) o k
@[simp] theorem readBlock_setMtCidx (v : Fin 624) (o : Nat) : (s.setMtCidx v).readBlock o = s.readBlock o :=
  readBlock_congr (by simp) (by simp) o
@[simp] theorem readByte_setInputs (v : List BusEvent) (o : Nat) : (s.setInputs v).readByte o = s.readByte o :=
  readByte_congr (by simp) (by simp) o
@[simp] theorem memRead_setInputs (v : List BusEvent) (o k : Nat) : (s.setInputs v).memRead o k = s.memRead o k :=
  memRead_congr (by simp) (by simp) o k
@[simp] theorem readBlock_setInputs (v : List BusEvent) (o : Nat) : (s.setInputs v).readBlock o = s.readBlock o :=
  readBlock_congr (by simp) (by simp) o
@[simp] theorem readByte_setRdata (v : Word) (o : Nat) : (s.setRdata v).readByte o = s.readByte o :=
  readByte_congr (by simp) (by simp) o
@[simp] theorem memRead_setRdata (v : Word) (o k : Nat) : (s.setRdata v).memRead o k = s.memRead o k :=
  memRead_congr (by simp) (by simp) o k
@[simp] theorem readBlock_setRdata (v : Word) (o : Nat) : (s.setRdata v).readBlock o = s.readBlock o :=
  readBlock_congr (by simp) (by simp) o
@[simp] theorem readByte_softReset (o : Nat) : (s.softReset).readByte o = s.readByte o :=
  readByte_congr (by simp) (by simp) o
@[simp] theorem memRead_softReset (o k : Nat) : (s.softReset).memRead o k = s.memRead o k :=
  memRead_congr (by simp) (by simp) o k
@[simp] theorem readBlock_softReset (o : Nat) : (s.softReset).readBlock o = s.readBlock o :=
  readBlock_congr (by simp) (by simp) o
@[simp] theorem readByte_initChain (b : Bool) (o : Nat) : (s.initChain b).readByte o = s.readByte o :=
  readByte_congr (by simp) (by simp) o
@[simp] theorem memRead_initChain (b : Bool) (o k : Nat) : (s.initChain b).memRead o k = s.memRead o k :=
  memRead_congr (by simp) (by simp) o k
@[simp] theorem readBlock_initChain (b : Bool) (o : Nat) : (s.initChain b).readBlock o = s.readBlock o :=
  readBlock_congr (by simp) (by simp) o
@[simp] theorem readByte_initCtr (b : Bool) (o : Nat) : (s.initCtr b).readByte o = s.readByte o :=
  readByte_congr (by simp) (by simp) o
@[simp] theorem memRead_initCtr (b : Bool) (o k : Nat) : (s.initCtr b).memRead o k = s.memRead o k :=
  memRead_congr (by simp) (by simp) o k
@[simp] theorem readBlock_initCtr (b : Bool) (o : Nat) : (s.initCtr b).readBlock o = s.readBlock o :=
  readBlock_congr (by simp) (by simp) o

/-! ### The mode loops change no other field -/

@[simp] theorem ecbLoop_ie (f : Block → Block) (src dst n : Nat) : (ecbLoop f src dst n s).ie = s.ie := by
  induction n with
  | zero => rfl
  | succ n ih => simp [ecbLoop, ecbStep, ih]
@[simp] theorem ecbLoop_busy (f : Block → Block) (src dst n : Nat) : (ecbLoop f src dst n s).busy = s.busy := by
  induction n with
  | zero => rfl
  | succ n ih => simp [ecbLoop, ecbStep, ih]
@[simp] theorem ecbLoop_done (f : Block → Block) (src dst n : Nat) : (ecbLoop f src dst n s).done = s.done := by
  induction n with
  | zero => rfl
  | succ n ih => simp [ecbLoop, ecbStep, ih]
@[simp] theorem ecbLoop_buserr (f : Block → Block) (src dst n : Nat) : (ecbLoop f src dst n s).buserr = s.buserr := by
  induction n with
  | zero => rfl
  | succ n ih => simp [ecbLoop, ecbStep, ih]
@[simp] theorem ecbLoop_err (f : Block → Block) (src dst n : Nat) : (ecbLoop f src dst n s).err = s.err := by
  induction n with
  | zero => rfl
  | succ n ih => simp [ecbLoop, ecbStep, ih]
@[simp] theorem ecbLoop_cmd (f : Block → Block) (src dst n : Nat) : (ecbLoop f src dst n s).cmd = s.cmd := by
  induction n with
  | zero => rfl
  | succ n ih => simp [ecbLoop, ecbStep, ih]
@[simp] theorem ecbLoop_src (f : Block → Block) (src dst n : Nat) : (ecbLoop f src dst n s).src = s.src := by
  induction n with
  | zero => rfl
  | succ n ih => simp [ecbLoop, ecbStep, ih]
@[simp] theorem ecbLoop_dst (f : Block → Block) (src dst n : Nat) : (ecbLoop f src dst n s).dst = s.dst := by
  induction n with
  | zero => rfl
  | succ n ih => simp [ecbLoop, ecbStep, ih]
@[simp] theorem ecbLoop_len (f : Block → Block) (src dst n : Nat) : (ecbLoop f src dst n s).len = s.len := by
  induction n with
  | zero => rfl
  | succ n ih => simp [ecbLoop, ecbStep, ih]
@[simp] theorem ecbLoop_rlen (f : Block → Block) (src dst n : Nat) : (ecbLoop f src dst n s).rlen = s.rlen := by
  induction n with
  | zero => rfl
  | succ n ih => simp [ecbLoop, ecbStep, ih]
@[simp] theorem ecbLoop_key (f : Block → Block) (src dst n : Nat) : (ecbLoop f src dst n s).key = s.key := by
  induction n with
  | zero => rfl
  | succ n ih => simp [ecbLoop, ecbStep, ih]
@[simp] theorem ecbLoop_iv (f : Block → Block) (src dst n : Nat) : (ecbLoop f src dst n s).iv = s.iv := by
  induction n with
  | zero => rfl
  | succ n ih => simp [ecbLoop, ecbStep, ih]
@[simp] theorem ecbLoop_chain (f : Block → Block) (src dst n : Nat) : (ecbLoop f src dst n s).chain = s.chain := by
  induction n with
  | zero => rfl
  | succ n ih => simp [ecbLoop, ecbStep, ih]
@[simp] theorem ecbLoop_nonce (f : Block → Block) (src dst n : Nat) : (ecbLoop f src dst n s).nonce = s.nonce := by
  induction n with
  | zero => rfl
  | succ n ih => simp [ecbLoop, ecbStep, ih]
@[simp] theorem ecbLoop_ctr (f : Block → Block) (src dst n : Nat) : (ecbLoop f src dst n s).ctr = s.ctr := by
  induction n with
  | zero => rfl
  | succ n ih => simp [ecbLoop, ecbStep, ih]
@[simp] theorem ecbLoop_mtSeed (f : Block → Block) (src dst n : Nat) : (ecbLoop f src dst n s).mtSeed = s.mtSeed := by
  induction n with
  | zero => rfl
  | succ n ih => simp [ecbLoop, ecbStep, ih]
@[simp] theorem ecbLoop_mtOut (f : Block → Block) (src dst n : Nat) : (ecbLoop f src dst n s).mtOut = s.mtOut := by
  induction n with
  | zero => rfl
  | succ n ih => simp [ecbLoop, ecbStep, ih]
@[simp] theorem ecbLoop_mtTin (f : Block → Block) (src dst n : Nat) : (ecbLoop f src dst n s).mtTin = s.mtTin := by
  induction n with
  | zero => rfl
  | succ n ih => simp [ecbLoop, ecbStep, ih]
@[simp] theorem ecbLoop_mtTout (f : Block → Block) (src dst n : Nat) : (ecbLoop f src dst n s).mtTout = s.mtTout := by
  induction n with
  | zero => rfl
  | succ n ih => simp [ecbLoop, ecbStep, ih]
@[simp] theorem ecbLoop_mt (f : Block → Block) (src dst n : Nat) : (ecbLoop f src dst n s).mt = s.mt := by
  induction n with
  | zero => rfl
  | succ n ih => simp [ecbLoop, ecbStep, ih]
@[simp] theorem ecbLoop_mtCursor (f : Block → Block) (src dst n : Nat) : (ecbLoop f src dst n s).mtCursor = s.mtCursor := by
  induction n with
  | zero => rfl
  | succ n ih => simp [ecbLoop, ecbStep, ih]
@[simp] theorem ecbLoop_mtCidx (f : Block → Block) (src dst n : Nat) : (ecbLoop f src dst n s).mtCidx = s.mtCidx := by
  induction n with
  | zero => rfl
  | succ n ih => simp [ecbLoop, ecbStep, ih]
@[simp] theorem ecbLoop_bufSize (f : Block → Block) (src dst n : Nat) : (ecbLoop f src dst n s).bufSize = s.bufSize := by
  induction n with
  | zero => rfl
  | succ n ih => simp [ecbLoop, ecbStep, ih]
@[simp] theorem ecbLoop_inputs (f : Block → Block) (src dst n : Nat) : (ecbLoop f src dst n s).inputs = s.inputs := by
  induction n with
  | zero => rfl
  | succ n ih => simp [ecbLoop, ecbStep, ih]
@[simp] theorem ecbLoop_rdata (f : Block → Block) (src dst n : Nat) : (ecbLoop f src dst n s).rdata = s.rdata := by
  induction n with
  | zero => rfl
  | succ n ih => simp [ecbLoop, ecbStep, ih]
@[simp] theorem ecbLoop_busyReads (f : Block → Block) (src dst n : Nat) : (ecbLoop f src dst n s).busyReads = s.busyReads := by
  induction n with
  | zero => rfl
  | succ n ih => simp [ecbLoop, ecbStep, ih]
@[simp] theorem ecbLoop_powerOns (f : Block → Block) (src dst n : Nat) : (ecbLoop f src dst n s).powerOns = s.powerOns := by
  induction n with
  | zero => rfl
  | succ n ih => simp [ecbLoop, ecbStep, ih]
@[simp] theorem ecbLoop_bufBytes (f : Block → Block) (src dst n : Nat) : (ecbLoop f src dst n s).bufBytes = s.bufBytes := by
  simp [State.bufBytes]
@[simp] theorem cbcEncLoop_ie (f : Block → Block) (src dst n : Nat) : (cbcEncLoop f src dst n s).ie = s.ie := by
  induction n with
  | zero => rfl
  | succ n ih => simp [cbcEncLoop, cbcEncStep, ih]
@[simp] theorem cbcEncLoop_busy (f : Block → Block) (src dst n : Nat) : (cbcEncLoop f src dst n s).busy = s.busy := by
  induction n with
  | zero => rfl
  | succ n ih => simp [cbcEncLoop, cbcEncStep, ih]
@[simp] theorem cbcEncLoop_done (f : Block → Block) (src dst n : Nat) : (cbcEncLoop f src dst n s).done = s.done := by
  induction n with
  | zero => rfl
  | succ n ih => simp [cbcEncLoop, cbcEncStep, ih]
@[simp] theorem cbcEncLoop_buserr (f : Block → Block) (src dst n : Nat) : (cbcEncLoop f src dst n s).buserr = s.buserr := by
  induction n with
  | zero => rfl
  | succ n ih => simp [cbcEncLoop, cbcEncStep, ih]
@[simp] theorem cbcEncLoop_err (f : Block → Block) (src dst n : Nat) : (cbcEncLoop f src dst n s).err = s.err := by
  induction n with
  | zero => rfl
  | succ n ih => simp [cbcEncLoop, cbcEncStep, ih]
@[simp] theorem cbcEncLoop_cmd (f : Block → Block) (src dst n : Nat) : (cbcEncLoop f src dst n s).cmd = s.cmd := by
  induction n with
  | zero => rfl
  | succ n ih => simp [cbcEncLoop, cbcEncStep, ih]
@[simp] theorem cbcEncLoop_src (f : Block → Block) (src dst n : Nat) : (cbcEncLoop f src dst n s).src = s.src := by
  induction n with
  | zero => rfl
  | succ n ih => simp [cbcEncLoop, cbcEncStep, ih]
@[simp] theorem cbcEncLoop_dst (f : Block → Block) (src dst n : Nat) : (cbcEncLoop f src dst n s).dst = s.dst := by
  induction n with
  | zero => rfl
  | succ n ih => simp [cbcEncLoop, cbcEncStep, ih]
@[simp] theorem cbcEncLoop_len (f : Block → Block) (src dst n : Nat) : (cbcEncLoop f src dst n s).len = s.len := by
  induction n with
  | zero => rfl
  | succ n ih => simp [cbcEncLoop, cbcEncStep, ih]
@[simp] theorem cbcEncLoop_rlen (f : Block → Block) (src dst n : Nat) : (cbcEncLoop f src dst n s).rlen = s.rlen := by
  induction n with
  | zero => rfl
  | succ n ih => simp [cbcEncLoop, cbcEncStep, ih]
@[simp] theorem cbcEncLoop_key (f : Block → Block) (src dst n : Nat) : (cbcEncLoop f src dst n s).key = s.key := by
  induction n with
  | zero => rfl
  | succ n ih => simp [cbcEncLoop, cbcEncStep, ih]
@[simp] theorem cbcEncLoop_iv (f : Block → Block) (src dst n : Nat) : (cbcEncLoop f src dst n s).iv = s.iv := by
  induction n with
  | zero => rfl
  | succ n ih => simp [cbcEncLoop, cbcEncStep, ih]
@[simp] theorem cbcEncLoop_nonce (f : Block → Block) (src dst n : Nat) : (cbcEncLoop f src dst n s).nonce = s.nonce := by
  induction n with
  | zero => rfl
  | succ n ih => simp [cbcEncLoop, cbcEncStep, ih]
@[simp] theorem cbcEncLoop_ctr (f : Block → Block) (src dst n : Nat) : (cbcEncLoop f src dst n s).ctr = s.ctr := by
  induction n with
  | zero => rfl
  | succ n ih => simp [cbcEncLoop, cbcEncStep, ih]
@[simp] theorem cbcEncLoop_mtSeed (f : Block → Block) (src dst n : Nat) : (cbcEncLoop f src dst n s).mtSeed = s.mtSeed := by
  induction n with
  | zero => rfl
  | succ n ih => simp [cbcEncLoop, cbcEncStep, ih]
@[simp] theorem cbcEncLoop_mtOut (f : Block → Block) (src dst n : Nat) : (cbcEncLoop f src dst n s).mtOut = s.mtOut := by
  induction n with
  | zero => rfl
  | succ n ih => simp [cbcEncLoop, cbcEncStep, ih]
@[simp] theorem cbcEncLoop_mtTin (f : Block → Block) (src dst n : Nat) : (cbcEncLoop f src dst n s).mtTin = s.mtTin := by
  induction n with
  | zero => rfl
  | succ n ih => simp [cbcEncLoop, cbcEncStep, ih]
@[simp] theorem cbcEncLoop_mtTout (f : Block → Block) (src dst n : Nat) : (cbcEncLoop f src dst n s).mtTout = s.mtTout := by
  induction n with
  | zero => rfl
  | succ n ih => simp [cbcEncLoop, cbcEncStep, ih]
@[simp] theorem cbcEncLoop_mt (f : Block → Block) (src dst n : Nat) : (cbcEncLoop f src dst n s).mt = s.mt := by
  induction n with
  | zero => rfl
  | succ n ih => simp [cbcEncLoop, cbcEncStep, ih]
@[simp] theorem cbcEncLoop_mtCursor (f : Block → Block) (src dst n : Nat) : (cbcEncLoop f src dst n s).mtCursor = s.mtCursor := by
  induction n with
  | zero => rfl
  | succ n ih => simp [cbcEncLoop, cbcEncStep, ih]
@[simp] theorem cbcEncLoop_mtCidx (f : Block → Block) (src dst n : Nat) : (cbcEncLoop f src dst n s).mtCidx = s.mtCidx := by
  induction n with
  | zero => rfl
  | succ n ih => simp [cbcEncLoop, cbcEncStep, ih]
@[simp] theorem cbcEncLoop_bufSize (f : Block → Block) (src dst n : Nat) : (cbcEncLoop f src dst n s).bufSize = s.bufSize := by
  induction n with
  | zero => rfl
  | succ n ih => simp [cbcEncLoop, cbcEncStep, ih]
@[simp] theorem cbcEncLoop_inputs (f : Block → Block) (src dst n : Nat) : (cbcEncLoop f src dst n s).inputs = s.inputs := by
  induction n with
  | zero => rfl
  | succ n ih => simp [cbcEncLoop, cbcEncStep, ih]
@[simp] theorem cbcEncLoop_rdata (f : Block → Block) (src dst n : Nat) : (cbcEncLoop f src dst n s).rdata = s.rdata := by
  induction n with
  | zero => rfl
  | succ n ih => simp [cbcEncLoop, cbcEncStep, ih]
@[simp] theorem cbcEncLoop_busyReads (f : Block → Block) (src dst n : Nat) : (cbcEncLoop f src dst n s).busyReads = s.busyReads := by
  induction n with
  | zero => rfl
  | succ n ih => simp [cbcEncLoop, cbcEncStep, ih]
@[simp] theorem cbcEncLoop_powerOns (f : Block → Block) (src dst n : Nat) : (cbcEncLoop f src dst n s).powerOns = s.powerOns := by
  induction n with
  | zero => rfl
  | succ n ih => simp [cbcEncLoop, cbcEncStep, ih]
@[simp] theorem cbcEncLoop_bufBytes (f : Block → Block) (src dst n : Nat) : (cbcEncLoop f src dst n s).bufBytes = s.bufBytes := by
  simp [State.bufBytes]
@[simp] theorem cbcDecLoop_ie (f : Block → Block) (src dst n : Nat) : (cbcDecLoop f src dst n s).ie = s.ie := by
  induction n with
  | zero => rfl
  | succ n ih => simp [cbcDecLoop, cbcDecStep, ih]
@[simp] theorem cbcDecLoop_busy (f : Block → Block) (src dst n : Nat) : (cbcDecLoop f src dst n s).busy = s.busy := by
  induction n with
  | zero => rfl
  | succ n ih => simp [cbcDecLoop, cbcDecStep, ih]
@[simp] theorem cbcDecLoop_done (f : Block → Block) (src dst n : Nat) : (cbcDecLoop f src dst n s).done = s.done := by
  induction n with
  | zero => rfl
  | succ n ih => simp [cbcDecLoop, cbcDecStep, ih]
@[simp] theorem cbcDecLoop_buserr (f : Block → Block) (src dst n : Nat) : (cbcDecLoop f src dst n s).buserr = s.buserr := by
  induction n with
  | zero => rfl
  | succ n ih => simp [cbcDecLoop, cbcDecStep, ih]
@[simp] theorem cbcDecLoop_err (f : Block → Block) (src dst n : Nat) : (cbcDecLoop f src dst n s).err = s.err := by
  induction n with
  | zero => rfl
  | succ n ih => simp [cbcDecLoop, cbcDecStep, ih]
@[simp] theorem cbcDecLoop_cmd (f : Block → Block) (src dst n : Nat) : (cbcDecLoop f src dst n s).cmd = s.cmd := by
  induction n with
  | zero => rfl
  | succ n ih => simp [cbcDecLoop, cbcDecStep, ih]
@[simp] theorem cbcDecLoop_src (f : Block → Block) (src dst n : Nat) : (cbcDecLoop f src dst n s).src = s.src := by
  induction n with
  | zero => rfl
  | succ n ih => simp [cbcDecLoop, cbcDecStep, ih]
@[simp] theorem cbcDecLoop_dst (f : Block → Block) (src dst n : Nat) : (cbcDecLoop f src dst n s).dst = s.dst := by
  induction n with
  | zero => rfl
  | succ n ih => simp [cbcDecLoop, cbcDecStep, ih]
@[simp] theorem cbcDecLoop_len (f : Block → Block) (src dst n : Nat) : (cbcDecLoop f src dst n s).len = s.len := by
  induction n with
  | zero => rfl
  | succ n ih => simp [cbcDecLoop, cbcDecStep, ih]
@[simp] theorem cbcDecLoop_rlen (f : Block → Block) (src dst n : Nat) : (cbcDecLoop f src dst n s).rlen = s.rlen := by
  induction n with
  | zero => rfl
  | succ n ih => simp [cbcDecLoop, cbcDecStep, ih]
@[simp] theorem cbcDecLoop_key (f : Block → Block) (src dst n : Nat) : (cbcDecLoop f src dst n s).key = s.key := by
  induction n with
  | zero => rfl
  | succ n ih => simp [cbcDecLoop, cbcDecStep, ih]
@[simp] theorem cbcDecLoop_iv (f : Block → Block) (src dst n : Nat) : (cbcDecLoop f src dst n s).iv = s.iv := by
  induction n with
  | zero => rfl
  | succ n ih => simp [cbcDecLoop, cbcDecStep, ih]
@[simp] theorem cbcDecLoop_nonce (f : Block → Block) (src dst n : Nat) : (cbcDecLoop f src dst n s).nonce = s.nonce := by
  induction n with
  | zero => rfl
  | succ n ih => simp [cbcDecLoop, cbcDecStep, ih]
@[simp] theorem cbcDecLoop_ctr (f : Block → Block) (src dst n : Nat) : (cbcDecLoop f src dst n s).ctr = s.ctr := by
  induction n with
  | zero => rfl
  | succ n ih => simp [cbcDecLoop, cbcDecStep, ih]
@[simp] theorem cbcDecLoop_mtSeed (f : Block → Block) (src dst n : Nat) : (cbcDecLoop f src dst n s).mtSeed = s.mtSeed := by
  induction n with
  | zero => rfl
  | succ n ih => simp [cbcDecLoop, cbcDecStep, ih]
@[simp] theorem cbcDecLoop_mtOut (f : Block → Block) (src dst n : Nat) : (cbcDecLoop f src dst n s).mtOut = s.mtOut := by
  induction n with
  | zero => rfl
  | succ n ih => simp [cbcDecLoop, cbcDecStep, ih]
@[simp] theorem cbcDecLoop_mtTin (f : Block → Block) (src dst n : Nat) : (cbcDecLoop f src dst n s).mtTin = s.mtTin := by
  induction n with
  | zero => rfl
  | succ n ih => simp [cbcDecLoop, cbcDecStep, ih]
@[simp] theorem cbcDecLoop_mtTout (f : Block → Block) (src dst n : Nat) : (cbcDecLoop f src dst n s).mtTout = s.mtTout := by
  induction n with
  | zero => rfl
  | succ n ih => simp [cbcDecLoop, cbcDecStep, ih]
@[simp] theorem cbcDecLoop_mt (f : Block → Block) (src dst n : Nat) : (cbcDecLoop f src dst n s).mt = s.mt := by
  induction n with
  | zero => rfl
  | succ n ih => simp [cbcDecLoop, cbcDecStep, ih]
@[simp] theorem cbcDecLoop_mtCursor (f : Block → Block) (src dst n : Nat) : (cbcDecLoop f src dst n s).mtCursor = s.mtCursor := by
  induction n with
  | zero => rfl
  | succ n ih => simp [cbcDecLoop, cbcDecStep, ih]
@[simp] theorem cbcDecLoop_mtCidx (f : Block → Block) (src dst n : Nat) : (cbcDecLoop f src dst n s).mtCidx = s.mtCidx := by
  induction n with
  | zero => rfl
  | succ n ih => simp [cbcDecLoop, cbcDecStep, ih]
@[simp] theorem cbcDecLoop_bufSize (f : Block → Block) (src dst n : Nat) : (cbcDecLoop f src dst n s).bufSize = s.bufSize := by
  induction n with
  | zero => rfl
  | succ n ih => simp [cbcDecLoop, cbcDecStep, ih]
@[simp] theorem cbcDecLoop_inputs (f : Block → Block) (src dst n : Nat) : (cbcDecLoop f src dst n s).inputs = s.inputs := by
  induction n with
  | zero => rfl
  | succ n ih => simp [cbcDecLoop, cbcDecStep, ih]
@[simp] theorem cbcDecLoop_rdata (f : Block → Block) (src dst n : Nat) : (cbcDecLoop f src dst n s).rdata = s.rdata := by
  induction n with
  | zero => rfl
  | succ n ih => simp [cbcDecLoop, cbcDecStep, ih]
@[simp] theorem cbcDecLoop_busyReads (f : Block → Block) (src dst n : Nat) : (cbcDecLoop f src dst n s).busyReads = s.busyReads := by
  induction n with
  | zero => rfl
  | succ n ih => simp [cbcDecLoop, cbcDecStep, ih]
@[simp] theorem cbcDecLoop_powerOns (f : Block → Block) (src dst n : Nat) : (cbcDecLoop f src dst n s).powerOns = s.powerOns := by
  induction n with
  | zero => rfl
  | succ n ih => simp [cbcDecLoop, cbcDecStep, ih]
@[simp] theorem cbcDecLoop_bufBytes (f : Block → Block) (src dst n : Nat) : (cbcDecLoop f src dst n s).bufBytes = s.bufBytes := by
  simp [State.bufBytes]
@[simp] theorem ctrLoop_ie (f : Block → Block) (src dst len n : Nat) : (ctrLoop f src dst len n s).ie = s.ie := by
  induction n with
  | zero => rfl
  | succ n ih => simp [ctrLoop, ctrStep, ih]
@[simp] theorem ctrLoop_busy (f : Block → Block) (src dst len n : Nat) : (ctrLoop f src dst len n s).busy = s.busy := by
  induction n with
  | zero => rfl
  | succ n ih => simp [ctrLoop, ctrStep, ih]
@[simp] theorem ctrLoop_done (f : Block → Block) (src dst len n : Nat) : (ctrLoop f src dst len n s).done = s.done := by
  induction n with
  | zero => rfl
  | succ n ih => simp [ctrLoop, ctrStep, ih]
@[simp] theorem ctrLoop_buserr (f : Block → Block) (src dst len n : Nat) : (ctrLoop f src dst len n s).buserr = s.buserr := by
  induction n with
  | zero => rfl
  | succ n ih => simp [ctrLoop, ctrStep, ih]
@[simp] theorem ctrLoop_err (f : Block → Block) (src dst len n : Nat) : (ctrLoop f src dst len n s).err = s.err := by
  induction n with
  | zero => rfl
  | succ n ih => simp [ctrLoop, ctrStep, ih]
@[simp] theorem ctrLoop_cmd (f : Block → Block) (src dst len n : Nat) : (ctrLoop f src dst len n s).cmd = s.cmd := by
  induction n with
  | zero => rfl
  | succ n ih => simp [ctrLoop, ctrStep, ih]
@[simp] theorem ctrLoop_src (f : Block → Block) (src dst len n : Nat) : (ctrLoop f src dst len n s).src = s.src := by
  induction n with
  | zero => rfl
  | succ n ih => simp [ctrLoop, ctrStep, ih]
@[simp] theorem ctrLoop_dst (f : Block → Block) (src dst len n : Nat) : (ctrLoop f src dst len n s).dst = s.dst := by
  induction n with
  | zero => rfl
  | succ n ih => simp [ctrLoop, ctrStep, ih]
@[simp] theorem ctrLoop_len (f : Block → Block) (src dst len n : Nat) : (ctrLoop f src dst len n s).len = s.len := by
  induction n with
  | zero => rfl
  | succ n ih => simp [ctrLoop, ctrStep, ih]
@[simp] theorem ctrLoop_rlen (f : Block → Block) (src dst len n : Nat) : (ctrLoop f src dst len n s).rlen = s.rlen := by
  induction n with
  | zero => rfl
  | succ n ih => simp [ctrLoop, ctrStep, ih]
@[simp] theorem ctrLoop_key (f : Block → Block) (src dst len n : Nat) : (ctrLoop f src dst len n s).key = s.key := by
  induction n with
  | zero => rfl
  | succ n ih => simp [ctrLoop, ctrStep, ih]
@[simp] theorem ctrLoop_iv (f : Block → Block) (src dst len n : Nat) : (ctrLoop f src dst len n s).iv = s.iv := by
  induction n with
  | zero => rfl
  | succ n ih => simp [ctrLoop, ctrStep, ih]
@[simp] theorem ctrLoop_chain (f : Block → Block) (src dst len n : Nat) : (ctrLoop f src dst len n s).chain = s.chain := by
  induction n with
  | zero => rfl
  | succ n ih => simp [ctrLoop, ctrStep, ih]
@[simp] theorem ctrLoop_nonce (f : Block → Block) (src dst len n : Nat) : (ctrLoop f src dst len n s).nonce = s.nonce := by
  induction n with
  | zero => rfl
  | succ n ih => simp [ctrLoop, ctrStep, ih]
@[simp] theorem ctrLoop_mtSeed (f : Block → Block) (src dst len n : Nat) : (ctrLoop f src dst len n s).mtSeed = s.mtSeed := by
  induction n with
  | zero => rfl
  | succ n ih => simp [ctrLoop, ctrStep, ih]
@[simp] theorem ctrLoop_mtOut (f : Block → Block) (src dst len n : Nat) : (ctrLoop f src dst len n s).mtOut = s.mtOut := by
  induction n with
  | zero => rfl
  | succ n ih => simp [ctrLoop, ctrStep, ih]
@[simp] theorem ctrLoop_mtTin (f : Block → Block) (src dst len n : Nat) : (ctrLoop f src dst len n s).mtTin = s.mtTin := by
  induction n with
  | zero => rfl
  | succ n ih => simp [ctrLoop, ctrStep, ih]
@[simp] theorem ctrLoop_mtTout (f : Block → Block) (src dst len n : Nat) : (ctrLoop f src dst len n s).mtTout = s.mtTout := by
  induction n with
  | zero => rfl
  | succ n ih => simp [ctrLoop, ctrStep, ih]
@[simp] theorem ctrLoop_mt (f : Block → Block) (src dst len n : Nat) : (ctrLoop f src dst len n s).mt = s.mt := by
  induction n with
  | zero => rfl
  | succ n ih => simp [ctrLoop, ctrStep, ih]
@[simp] theorem ctrLoop_mtCursor (f : Block → Block) (src dst len n : Nat) : (ctrLoop f src dst len n s).mtCursor = s.mtCursor := by
  induction n with
  | zero => rfl
  | succ n ih => simp [ctrLoop, ctrStep, ih]
@[simp] theorem ctrLoop_mtCidx (f : Block → Block) (src dst len n : Nat) : (ctrLoop f src dst len n s).mtCidx = s.mtCidx := by
  induction n with
  | zero => rfl
  | succ n ih => simp [ctrLoop, ctrStep, ih]
@[simp] theorem ctrLoop_bufSize (f : Block → Block) (src dst len n : Nat) : (ctrLoop f src dst len n s).bufSize = s.bufSize := by
  induction n with
  | zero => rfl
  | succ n ih => simp [ctrLoop, ctrStep, ih]
@[simp] theorem ctrLoop_inputs (f : Block → Block) (src dst len n : Nat) : (ctrLoop f src dst len n s).inputs = s.inputs := by
  induction n with
  | zero => rfl
  | succ n ih => simp [ctrLoop, ctrStep, ih]
@[simp] theorem ctrLoop_rdata (f : Block → Block) (src dst len n : Nat) : (ctrLoop f src dst len n s).rdata = s.rdata := by
  induction n with
  | zero => rfl
  | succ n ih => simp [ctrLoop, ctrStep, ih]
@[simp] theorem ctrLoop_busyReads (f : Block → Block) (src dst len n : Nat) : (ctrLoop f src dst len n s).busyReads = s.busyReads := by
  induction n with
  | zero => rfl
  | succ n ih => simp [ctrLoop, ctrStep, ih]
@[simp] theorem ctrLoop_powerOns (f : Block → Block) (src dst len n : Nat) : (ctrLoop f src dst len n s).powerOns = s.powerOns := by
  induction n with
  | zero => rfl
  | succ n ih => simp [ctrLoop, ctrStep, ih]
@[simp] theorem ctrLoop_bufBytes (f : Block → Block) (src dst len n : Nat) : (ctrLoop f src dst len n s).bufBytes = s.bufBytes := by
  simp [State.bufBytes]

@[simp] theorem ctrLoop_ctr (f : Block → Block) (src dst len n : Nat) :
    (ctrLoop f src dst len n s).ctr = s.ctr + BitVec.ofNat 64 n := by
  induction n with
  | zero => simp [ctrLoop]
  | succ n ih => simp [ctrLoop, ctrStep, ih, BitVec.ofNat_add, BitVec.add_assoc]

end Sys2Proof.Machine
end

