-- ==== Sys2Proof/Laws/Memory.lean ====
section
/-!
SUPPORT. What the buffer operations do: reads after writes, the canonical form, the inside of the buffer.
-/

namespace Sys2Proof.Machine

open Sys2Proof

/-! ### The list -/

@[simp] theorem memLookup_nil (o : Nat) : memLookup [] o = none := rfl

/-- A read after one stored byte. -/
theorem memLookup_memInsert (m : Memory) (o a : Nat) (v : Byte) :
    memLookup (memInsert m o v) a = if a = o then some v else memLookup m a := by
  induction m with
  | nil => by_cases h : o = a <;> simp [memInsert, memLookup, h, eq_comm]
  | cons c m ih =>
    obtain ⟨k, b⟩ := c
    simp only [memInsert]
    split
    · by_cases h : o = a <;> simp [memLookup, h, eq_comm]
    · split
      · rename_i h1 h2
        subst h2
        by_cases h : o = a <;> simp [memLookup, h, eq_comm]
      · by_cases h : k = a
        · subst h
          simp [memLookup, eq_comm, *]
        · simp [memLookup, h, ih]

/-- A read after a stored byte string. -/
theorem memLookup_memInsertAll (vs : List Byte) (m : Memory) (o a : Nat) :
    memLookup (memInsertAll m o vs) a =
      if o ≤ a ∧ a < o + vs.length then vs[a - o]? else memLookup m a := by
  induction vs generalizing m o with
  | nil => simp [memInsertAll]
  | cons v vs ih =>
    simp only [memInsertAll, ih, memLookup_memInsert, List.length_cons]
    by_cases h : a = o
    · subst h; simp
    · by_cases h2 : o + 1 ≤ a ∧ a < o + 1 + vs.length
      · have h3 : o ≤ a ∧ a < o + (vs.length + 1) := by omega
        rw [if_pos h2, if_pos h3, show a - o = (a - (o + 1)) + 1 by omega]
        simp
      · have h3 : ¬(o ≤ a ∧ a < o + (vs.length + 1)) := by omega
        rw [if_neg h2, if_neg h3, if_neg h]

/-- Every entry after a stored byte is the stored one or an old one. -/
theorem mem_memInsert {m : Memory} {o : Nat} {v : Byte} {c : Host.Cell} (h : c ∈ memInsert m o v) :
    c = (o, v) ∨ c ∈ m := by
  induction m with
  | nil => simpa [memInsert] using h
  | cons x m ih =>
    obtain ⟨k, b⟩ := x
    simp only [memInsert] at h
    split at h
    · simpa using h
    · split at h
      · simp only [List.mem_cons] at h ⊢
        tauto
      · simp only [List.mem_cons] at h ⊢
        rcases h with h | h
        · exact .inr (.inl h)
        · exact (ih h).imp_right .inr

/-- Every entry after a stored byte string is an old one or one of the stored offsets. -/
theorem mem_memInsertAll {vs : List Byte} {m : Memory} {o : Nat} {c : Host.Cell}
    (h : c ∈ memInsertAll m o vs) : (o ≤ c.1 ∧ c.1 < o + vs.length) ∨ c ∈ m := by
  induction vs generalizing m o with
  | nil => exact .inr h
  | cons v vs ih =>
    rcases ih h with h | h
    · exact .inl (by simp only [List.length_cons]; omega)
    · rcases mem_memInsert h with h | h
      · exact .inl (by simp [h])
      · exact .inr h

/-- One stored byte keeps the canonical form. -/
theorem memInsert_wf {m : Memory} (h : m.wf) (o : Nat) (v : Byte) : (memInsert m o v).wf := by
  induction m with
  | nil => simp [memInsert, Memory.wf]
  | cons x m ih =>
    obtain ⟨k, b⟩ := x
    have hk : ∀ c ∈ m, k < c.1 := (List.pairwise_cons.mp h).1
    have hm : Memory.wf m := (List.pairwise_cons.mp h).2
    simp only [memInsert]
    split
    · rename_i hlt
      refine List.pairwise_cons.mpr ⟨fun c hc => ?_, h⟩
      rcases List.mem_cons.mp hc with rfl | hc
      · exact hlt
      · exact hlt.trans (hk c hc)
    · split
      · rename_i he
        exact List.pairwise_cons.mpr ⟨by simpa [he] using hk, hm⟩
      · rename_i h1 h2
        refine List.pairwise_cons.mpr ⟨fun c hc => ?_, ih hm⟩
        rcases mem_memInsert hc with rfl | hc
        · simp only; omega
        · exact hk c hc

/-- A stored byte string keeps the canonical form. -/
theorem memInsertAll_wf {m : Memory} (h : m.wf) (o : Nat) (vs : List Byte) :
    (memInsertAll m o vs).wf := by
  induction vs generalizing m o with
  | nil => exact h
  | cons v vs ih => exact ih (memInsert_wf h o v) (o + 1)

/-! ### Reads after writes -/

/-- `MemWrite` says at every offset what is read afterwards. -/
theorem readByte_memWrite (s : State) (a : Nat) (vs : List Byte) (o : Nat) :
    (s.memWrite a vs).readByte o =
      if a ≤ o ∧ o < a + vs.length then vs.getD (o - a) 0 else s.readByte o := by
  simp only [State.readByte, State.memWrite_buf, State.memWrite_powerOns, memLookup_memInsertAll]
  by_cases h : a ≤ o ∧ o < a + vs.length
  · have : o - a < vs.length := by omega
    simp [if_pos h, List.getElem?_eq_getElem this]
  · simp [if_neg h]

/-- `MemWrite` of a block says at every offset what is read afterwards. -/
theorem readByte_writeBlock (s : State) (a : Nat) (x : Block) (o : Nat) :
    (s.writeBlock a x).readByte o = if a ≤ o ∧ o < a + 16 then x.getD (o - a) 0 else s.readByte o := by
  rw [State.writeBlock, readByte_memWrite]
  simp only [Vector.length_toList]
  split
  · rename_i h
    have : o - a < 16 := by omega
    simp [List.getD_eq_getElem?_getD, this, Vector.getD]
  · rfl

@[simp] theorem memRead_length (s : State) (a n : Nat) : (s.memRead a n).length = n := by
  induction n generalizing a with
  | zero => rfl
  | succ n ih => simp [State.memRead, ih]

/-- Byte `i` of `MemRead(a, n)` is the byte at offset `a + i`. -/
theorem memRead_getD (s : State) (a n i : Nat) (h : i < n) :
    (s.memRead a n).getD i 0 = s.readByte (a + i) := by
  induction n generalizing a i with
  | zero => omega
  | succ n ih =>
    cases i with
    | zero => simp [State.memRead]
    | succ i =>
      have := ih (a + 1) i (by omega)
      simp only [State.memRead, List.getD_cons_succ, this]
      congr 1; omega

/-- Byte `i` of a block read from the buffer. -/
@[simp] theorem readBlock_getElem (s : State) (a i : Nat) (h : i < 16) :
    (s.readBlock a)[i] = s.readByte (a + i) := by
  simp [State.readBlock]

/-- A block read says the same as `MemRead(a, 16)`. -/
theorem readBlock_toList (s : State) (a : Nat) : (s.readBlock a).toList = s.memRead a 16 := by
  apply List.ext_getElem
  · simp
  · intro i h1 h2
    have hi : i < 16 := by simpa using h1
    have := memRead_getD s a 16 i hi
    rw [List.getD_eq_getElem _ _ (by simpa using hi)] at this
    rw [this]
    simp [State.readBlock]

/-- Two blocks read are equal when their bytes are. -/
theorem readBlock_ext {s t : State} {a b : Nat} (h : ∀ i < 16, s.readByte (a + i) = t.readByte (b + i)) :
    s.readBlock a = t.readBlock b := by
  apply Vector.ext
  intro i hi
  simp [h i hi]

/-- A block read after the block was written at the same offset. -/
theorem readBlock_writeBlock_same (s : State) (a : Nat) (x : Block) :
    (s.writeBlock a x).readBlock a = x := by
  apply Vector.ext
  intro i hi
  have : a ≤ a + i ∧ a + i < a + 16 := by omega
  simp [readByte_writeBlock, this, Vector.getD, hi]

/-- A block read away from the written block. -/
theorem readBlock_writeBlock_other (s : State) (a b : Nat) (x : Block) (h : b + 16 ≤ a ∨ a + 16 ≤ b) :
    (s.writeBlock a x).readBlock b = s.readBlock b := by
  apply readBlock_ext
  intro i hi
  rw [readByte_writeBlock, if_neg (by omega)]

/-- `MemWrite` keeps the canonical form. -/
theorem memWrite_wf {s : State} (h : s.buf.wf) (a : Nat) (vs : List Byte) : (s.memWrite a vs).buf.wf :=
  memInsertAll_wf h a vs

/-- `MemWrite` below a bound, such as BUF_BYTES, keeps the list below it. -/
theorem memWrite_inside {s : State} {n : Nat} (h : ∀ c ∈ s.buf, c.1 < n) {a : Nat} {vs : List Byte}
    (ha : a + vs.length ≤ n) : ∀ c ∈ (s.memWrite a vs).buf, c.1 < n := by
  intro c hc
  rcases mem_memInsertAll hc with hc | hc
  · omega
  · exact h c hc

/-- The reset buffer has the canonical form. -/
theorem reset_buf_wf : State.reset.buf.wf := List.Pairwise.nil

end Sys2Proof.Machine
end

