-- ==== Sys2Proof/Laws/Modes.lean ====
section
/-!
SUPPORT. What the mode loops do: their frame, the bytes outside the output, and every output block in
terms of the state before the loop. The operands are equal or disjoint (`Apart`), as the checks ensure.
-/

namespace Sys2Proof.Machine

open Sys2Proof

/-! ### ECB -/

/-- The ECB loop changes no byte outside its output. -/
theorem ecbLoop_readByte_outside (f : Block → Block) (src dst n : Nat) (s : State) (o : Nat)
    (h : o < dst ∨ dst + 16 * n ≤ o) : (ecbLoop f src dst n s).readByte o = s.readByte o := by
  induction n with
  | zero => rfl
  | succ n ih =>
    simp only [ecbLoop, ecbStep]
    rw [readByte_writeBlock, if_neg (by omega), ih (by omega)]

/-- Every output block of the ECB loop. -/
theorem ecbLoop_block (f : Block → Block) (src dst n : Nat) (s : State) (h : Apart src dst (16 * n))
    (i : Nat) (hi : i < n) :
    (ecbLoop f src dst n s).readBlock (dst + 16 * i) = f (s.readBlock (src + 16 * i)) := by
  induction n with
  | zero => omega
  | succ n ih =>
    have hn : Apart src dst (16 * n) := by unfold Apart at *; omega
    simp only [ecbLoop, ecbStep]
    by_cases he : i = n
    · subst he
      rw [readBlock_writeBlock_same]
      refine congrArg f (readBlock_ext ?_)
      intro k hk
      apply ecbLoop_readByte_outside
      unfold Apart at h; omega
    · rw [readBlock_writeBlock_other _ _ _ _ (by omega), ih hn (by omega)]

/-! ### CBC encryption -/

/-- The CBC_ENC loop changes no byte outside its output. -/
theorem cbcEncLoop_readByte_outside (e : Block → Block) (src dst n : Nat) (s : State) (o : Nat)
    (h : o < dst ∨ dst + 16 * n ≤ o) : (cbcEncLoop e src dst n s).readByte o = s.readByte o := by
  induction n with
  | zero => rfl
  | succ n ih =>
    simp only [cbcEncLoop, cbcEncStep]
    rw [readByte_setChain, readByte_writeBlock,
      if_neg (by omega), ih (by omega)]

/-- CHAIN after the CBC_ENC loop: the last block written, or the starting value. -/
theorem cbcEncLoop_chain (e : Block → Block) (src dst n : Nat) (s : State) :
    (cbcEncLoop e src dst n s).chain =
      if n = 0 then s.chain else (cbcEncLoop e src dst n s).readBlock (dst + 16 * (n - 1)) := by
  cases n with
  | zero => rfl
  | succ n =>
    simp only [cbcEncLoop, cbcEncStep, Nat.add_one_ne_zero, if_false, Nat.add_sub_cancel,
      readBlock_setChain, readBlock_writeBlock_same, State.setChain_chain]

/-- Every output block of the CBC_ENC loop: Enc of the input block XOR the previous output block, or
the starting CHAIN. -/
theorem cbcEncLoop_block (e : Block → Block) (src dst n : Nat) (s : State) (h : Apart src dst (16 * n))
    (i : Nat) (hi : i < n) :
    (cbcEncLoop e src dst n s).readBlock (dst + 16 * i) =
      e (xorBlock (s.readBlock (src + 16 * i))
        (if i = 0 then s.chain else (cbcEncLoop e src dst n s).readBlock (dst + 16 * (i - 1)))) := by
  induction n with
  | zero => omega
  | succ n ih =>
    have hn : Apart src dst (16 * n) := by unfold Apart at *; omega
    have hold : ∀ k, k < n → (cbcEncLoop e src dst (n + 1) s).readBlock (dst + 16 * k) =
        (cbcEncLoop e src dst n s).readBlock (dst + 16 * k) := by
      intro k hk
      simp only [cbcEncLoop, cbcEncStep]
      rw [readBlock_setChain, readBlock_writeBlock_other _ _ _ _ (by omega)]
    by_cases he : i = n
    · subst he
      have hprev : (if i = 0 then s.chain
          else (cbcEncLoop e src dst (i + 1) s).readBlock (dst + 16 * (i - 1))) =
          (cbcEncLoop e src dst i s).chain := by
        rw [cbcEncLoop_chain e src dst i s]
        split
        · rfl
        · rw [hold _ (by omega)]
      rw [hprev]
      simp only [cbcEncLoop, cbcEncStep]
      rw [readBlock_setChain, readBlock_writeBlock_same]
      refine congrArg (fun x => e (xorBlock x _)) (readBlock_ext ?_)
      intro k hk
      apply cbcEncLoop_readByte_outside
      unfold Apart at h; omega
    · rw [hold i (by omega), ih hn (by omega)]
      split
      · rfl
      · rw [hold (i - 1) (by omega)]

/-! ### CBC decryption -/

/-- The CBC_DEC loop changes no byte outside its output. -/
theorem cbcDecLoop_readByte_outside (d : Block → Block) (src dst n : Nat) (s : State) (o : Nat)
    (h : o < dst ∨ dst + 16 * n ≤ o) : (cbcDecLoop d src dst n s).readByte o = s.readByte o := by
  induction n with
  | zero => rfl
  | succ n ih =>
    simp only [cbcDecLoop, cbcDecStep]
    rw [readByte_setChain, readByte_writeBlock,
      if_neg (by omega), ih (by omega)]

/-- An input block not yet overwritten. -/
theorem cbcDecLoop_readBlock_ahead (d : Block → Block) (src dst n m : Nat) (s : State)
    (h : Apart src dst (16 * m)) (hn : n < m) :
    (cbcDecLoop d src dst n s).readBlock (src + 16 * n) = s.readBlock (src + 16 * n) := by
  apply readBlock_ext
  intro k hk
  apply cbcDecLoop_readByte_outside
  unfold Apart at h; omega

/-- CHAIN after the CBC_DEC loop: the last input block, or the starting value. -/
theorem cbcDecLoop_chain (d : Block → Block) (src dst n : Nat) (s : State)
    (h : Apart src dst (16 * n)) :
    (cbcDecLoop d src dst n s).chain =
      if n = 0 then s.chain else s.readBlock (src + 16 * (n - 1)) := by
  cases n with
  | zero => rfl
  | succ n =>
    simp only [cbcDecLoop, cbcDecStep, Nat.add_one_ne_zero, if_false, Nat.add_sub_cancel]
    exact cbcDecLoop_readBlock_ahead d src dst n (n + 1) s h (by omega)

/-- Every output block of the CBC_DEC loop: Dec of the input block XOR the previous input block, or the
starting CHAIN. -/
theorem cbcDecLoop_block (d : Block → Block) (src dst n : Nat) (s : State) (h : Apart src dst (16 * n))
    (i : Nat) (hi : i < n) :
    (cbcDecLoop d src dst n s).readBlock (dst + 16 * i) =
      xorBlock (d (s.readBlock (src + 16 * i)))
        (if i = 0 then s.chain else s.readBlock (src + 16 * (i - 1))) := by
  induction n with
  | zero => omega
  | succ n ih =>
    have hn : Apart src dst (16 * n) := by unfold Apart at *; omega
    simp only [cbcDecLoop, cbcDecStep]
    rw [readBlock_setChain]
    by_cases he : i = n
    · subst he
      rw [readBlock_writeBlock_same, cbcDecLoop_chain d src dst i s hn,
        cbcDecLoop_readBlock_ahead d src dst i (i + 1) s h (by omega)]
    · rw [readBlock_writeBlock_other _ _ _ _ (by omega), ih hn (by omega)]

/-! ### CTR -/

/-- The CTR loop changes no byte outside its output. -/
theorem ctrLoop_readByte_outside (e : Block → Block) (src dst len n : Nat) (s : State) (o : Nat)
    (h : o < dst ∨ dst + min len (16 * n) ≤ o) :
    (ctrLoop e src dst len n s).readByte o = s.readByte o := by
  induction n with
  | zero => rfl
  | succ n ih =>
    simp only [ctrLoop, ctrStep]
    rw [readByte_setCtr, readByte_memWrite,
      if_neg, ih (by omega)]
    simp only [xorBytes_length, memRead_length, Vector.length_toList]
    omega

/-- Every output byte of the CTR loop. -/
theorem ctrLoop_byte (e : Block → Block) (src dst len n : Nat) (s : State) (h : Apart src dst len)
    (k : Nat) (hk : k < len) (hn : k < 16 * n) :
    (ctrLoop e src dst len n s).readByte (dst + k) =
      s.readByte (src + k) ^^^
        (keystream e s.nonce (s.ctr + BitVec.ofNat 64 (k / 16))).getD (k % 16) 0 := by
  induction n with
  | zero => omega
  | succ n ih =>
    simp only [ctrLoop, ctrStep]
    rw [readByte_setCtr, readByte_memWrite]
    simp only [xorBytes_length, memRead_length, Vector.length_toList]
    by_cases he : k < 16 * n
    · rw [if_neg (by omega), ih he]
    · have hq : k / 16 = n := by omega
      have hr : k % 16 = k - 16 * n := by omega
      rw [if_pos (by omega), xorBytes_getD _ _ _ (by simp; omega) (by simp; omega),
        memRead_getD _ _ _ _ (by omega), ctrLoop_readByte_outside e src dst len n s _
          (by unfold Apart at h; omega), ctrLoop_nonce, ctrLoop_ctr, hq, hr]
      have hb : k - 16 * n < 16 := by omega
      have h1 : dst + k - (dst + 16 * n) = k - 16 * n := by omega
      have h2 : src + 16 * n + (k - 16 * n) = src + k := by omega
      rw [h1, h2]
      simp [List.getD_eq_getElem?_getD, hb, Vector.getD]

end Sys2Proof.Machine
end

