-- ==== Sys2Proof/Laws/Ops.lean ====
section
/-!
SUPPORT. What the shared operations can do: the common checks, `finish`, the bus accesses and one turn.
Later proofs cite these and do not unfold the operations again.
-/

namespace Sys2Proof.Machine

open Sys2Proof

/-! ### The common checks -/

/-- RangeOK on integers. -/
theorem rangeOk_some (s : State) (n : Nat) :
    s.rangeOk (some n) = true ↔
      s.src.toNat + s.len.toNat ≤ s.bufBytes ∧ s.dst.toNat + n ≤ s.bufBytes := by
  simp only [State.rangeOk, Bool.and_eq_true, decide_eq_true_eq]
  rfl

/-- RangeOK of STRIP looks at the input alone. -/
theorem rangeOk_none (s : State) :
    s.rangeOk none = true ↔ s.src.toNat + s.len.toNat ≤ s.bufBytes := by
  simp only [State.rangeOk, Bool.and_true, decide_eq_true_eq]
  rfl

/-- Overlaps on integers. -/
theorem overlaps_some (s : State) (n : Nat) :
    s.overlaps (some n) = true ↔
      s.src.toNat ≠ s.dst.toNat ∧ 0 < s.len.toNat ∧ 0 < n ∧ s.src.toNat < s.dst.toNat + n ∧
        s.dst.toNat < s.src.toNat + s.len.toNat := by
  simp only [State.overlaps, Bool.and_eq_true, decide_eq_true_eq, and_assoc]
  rfl

@[simp] theorem overlaps_none (s : State) : s.overlaps none = false := rfl

/-- What the buffer checks can answer, and when. -/
theorem bufferCheck_cases (s : State) (out : Option Nat) :
    (s.rangeOk out = false ∧ s.bufferCheck out = .range) ∨
    (s.rangeOk out = true ∧ s.overlaps out = true ∧ s.bufferCheck out = .overlap) ∨
    (s.rangeOk out = true ∧ s.overlaps out = false ∧ s.bufferCheck out = .ok) := by
  unfold State.bufferCheck
  cases h1 : s.rangeOk out <;> cases h2 : s.overlaps out <;> simp

/-- The buffer checks pass exactly when the range is right and nothing overlaps. -/
theorem bufferCheck_eq_ok (s : State) (out : Option Nat) :
    s.bufferCheck out = .ok ↔ s.rangeOk out = true ∧ s.overlaps out = false := by
  rcases bufferCheck_cases s out with ⟨h1, h⟩ | ⟨h1, h2, h⟩ | ⟨h1, h2, h⟩ <;> simp [*]

/-- The buffer checks of a command whose output length is LEN. -/
theorem bufferCheck_len_eq_ok (s : State) : s.bufferCheck (some s.lenBytes) = .ok ↔ CopyOperandsOk s := by
  rw [bufferCheck_eq_ok, rangeOk_some, ← Bool.not_eq_true, overlaps_some]
  unfold CopyOperandsOk Apart State.lenBytes
  omega

/-- The checks of the whole-block commands. -/
theorem blockCheck_eq_ok (s : State) :
    s.blockCheck = .ok ↔ s.len.toNat % 16 = 0 ∧ CopyOperandsOk s := by
  rw [← bufferCheck_len_eq_ok]
  unfold State.blockCheck State.lenBytes Config.blk
  split <;> simp_all

/-! ### Execution after the checks -/

/-- Everything `finish` can do. -/
theorem finish_cases (s : State) (c : ErrCode) (p : State → Except ErrCode State) :
    (c ≠ .ok ∧ s.finish c p = .next (s.complete c)) ∨
    (c = .ok ∧ ∃ u, p s = .ok u ∧ s.finish c p = .next (u.complete .ok)) ∨
    (c = .ok ∧ ∃ e, p s = .error e ∧ s.finish c p = .next (s.complete e)) := by
  unfold State.finish
  by_cases h : c = .ok
  · cases hp : p s <;> simp [h]
  · simp [h]

/-- `finish` where the checks pass and `Perform` cannot fail. -/
theorem finish_perform (s : State) (c : ErrCode) (f : State → State) :
    s.finish c (fun s => .ok (f s)) =
      if c = .ok then .next ((f s).complete .ok) else .next (s.complete c) := rfl

/-- `finish` where a check fails. -/
theorem finish_error (s : State) (c : ErrCode) (p : State → Except ErrCode State) (h : c ≠ .ok) :
    s.finish c p = .next (s.complete c) := by
  simp [State.finish, h]

/-- `finish` always answers a next state. -/
theorem finish_next (s : State) (c : ErrCode) (p : State → Except ErrCode State) :
    ∃ t, s.finish c p = .next t := by
  rcases finish_cases s c p with ⟨_, h⟩ | ⟨_, u, _, h⟩ | ⟨_, e, _, h⟩ <;> exact ⟨_, h⟩

/-- `afterExec` is the next state that `exec` answers. -/
theorem exec_next (i : Instr) (s : State) : exec i s = .next (afterExec i s) := by
  have h : ∃ t, exec i s = .next t := by
    cases i <;> simp only [exec] <;> exact finish_next s _ _
  obtain ⟨t, h⟩ := h
  simp [afterExec, h]

/-! ### Turns -/

/-- Everything the engine's turn can do. -/
theorem engineStep_cases (s : State) :
    (s.busy = false ∧ s.engineStep = .next s) ∨
    (s.busy = true ∧ ∃ i, decode s.cmd = .ok i ∧ s.engineStep = exec i s) ∨
    (s.busy = true ∧ ∃ e, decode s.cmd = .error e ∧ s.engineStep = .next (s.complete .illegalCmd)) := by
  unfold State.engineStep
  cases hb : s.busy
  · simp
  · cases hd : decode s.cmd <;> simp

/-- A step of the machine is one turn. -/
theorem step_nil {s : State} (h : s.inputs = []) : step s = s.engineStep := by
  simp [step, State.turn, h]

/-- A step of the machine with an entry of `inputs`. -/
theorem step_cons {s : State} {e : BusEvent} {rest : List BusEvent} (h : s.inputs = e :: rest) :
    step s = (s.setInputs rest).applyEvent e := by
  simp [step, State.turn, h]

/-! ### Bus accesses -/

/-- Everything a host read can do. -/
theorem hostRead_cases (s : State) (a : Addr) :
    (busTarget s.bufBytes a = none ∧ s.hostRead a = s.busError.setRdata 0) ∨
    (∃ t, busTarget s.bufBytes a = some t ∧ s.busy = true ∧ t.readableBusy = false ∧ s.hostRead a = s.drawRead) ∨
    (∃ t, busTarget s.bufBytes a = some t ∧ (s.busy = false ∨ t.readableBusy = true) ∧
      s.hostRead a = s.setRdata (s.busValue t)) := by
  unfold State.hostRead
  cases ht : busTarget s.bufBytes a with
  | none => simp
  | some t => cases hb : s.busy <;> cases hr : t.readableBusy <;> simp [hr]

/-- Everything a host write can do. -/
theorem hostWrite_cases (s : State) (a : Addr) (v : Word) :
    s.hostWrite a v = s.busError ∨
    (busTarget s.bufBytes a = some .status ∧ s.hostWrite a v = s.writeStatus v) ∨
    (busTarget s.bufBytes a = some .ctrl ∧ s.hostWrite a v = s.writeCtrl v) ∨
    (∃ t, busTarget s.bufBytes a = some t ∧ s.busy = false ∧ t.readOnly = false ∧ t ≠ .status ∧ t ≠ .ctrl ∧
      s.hostWrite a v = s.writeIdle v t) := by
  unfold State.hostWrite
  cases ht : busTarget s.bufBytes a with
  | none => simp
  | some t =>
    simp only [Option.some.injEq, exists_eq_left']
    cases hr : t.readOnly with
    | true => simp
    | false =>
      by_cases h1 : t = .status
      · simp [h1]
      · by_cases h2 : t = .ctrl
        · simp [h2]
        · cases hb : s.busy <;> simp [h1, h2]

/-- A buffer word of the address map lies inside the buffer. -/
theorem busTarget_buf {s : State} {a : Addr} {o : Nat} (h : busTarget s.bufBytes a = some (.buf o)) :
    o + 4 ≤ s.bufBytes ∧ o % 4 = 0 ∧ a.toNat = 0x1000 + o := by
  unfold busTarget at h
  split at h
  · split at h
    · simp only [Option.some.injEq, BusTarget.buf.injEq] at h
      have hb := s.bufBytes_legal.1
      omega
    · unfold registerAt at h
      split at h <;> simp at h
  · simp at h

end Sys2Proof.Machine
end

