-- ==== Sys2Proof/Laws/Mt19937.lean ====
section
/-!
SUPPORT. The MT19937 datapath: the words of the seeding recurrence, and what one iteration of the twist
changes.
-/

namespace Sys2Proof.Machine

open Sys2Proof

/-- Word `k` of the seeding tail satisfies the recurrence from the word before it. -/
theorem seedTail_getElem (n i : Nat) (p : Word) (k : Nat) (h : k < n) :
    (seedTail n i p).getD k 0 =
      seedNext (if k = 0 then p else (seedTail n i p).getD (k - 1) 0) (i + k) := by
  induction n generalizing i p k with
  | zero => omega
  | succ n ih =>
    cases k with
    | zero => simp [seedTail]
    | succ k =>
      simp only [seedTail, List.getD_cons_succ, ih (i + 1) (seedNext p i) k (by omega),
        Nat.add_one_ne_zero, if_false, Nat.add_sub_cancel]
      cases k with
      | zero => simp
      | succ k => simp [Nat.add_comm, Nat.add_left_comm]

/-- An iteration of the twist writes its own word only. -/
theorem twistStep_getElem_other (mt : MtArray) (i k : Nat) (hk : k < 624) (h : k ≠ i) :
    (twistStep mt i)[k] = mt[k] := by
  simp only [twistStep]
  rw [Vector.getElem_setIfInBounds hk, if_neg (by omega)]

/-- The iterations of the twist from `n` on leave the words below `n` alone. -/
theorem twistLoop_getElem_ahead (mt : MtArray) (n k : Nat) (hk : k < 624) (h : n ≤ k) :
    (twistLoop n mt)[k] = mt[k] := by
  induction n with
  | zero => rfl
  | succ n ih =>
    simp only [twistLoop]
    rw [twistStep_getElem_other _ _ _ hk (by omega), ih (by omega)]

/-- A word once written by the twist stays. -/
theorem twistLoop_getElem_behind (mt : MtArray) (n m k : Nat) (hk : k < 624) (h : k < n) (hm : n ≤ m) :
    (twistLoop m mt)[k] = (twistLoop n mt)[k] := by
  induction m with
  | zero => omega
  | succ m ih =>
    rcases Nat.lt_or_ge m n with hlt | hge
    · have : n = m + 1 := by omega
      rw [this]
    · simp only [twistLoop]
      rw [twistStep_getElem_other _ _ _ hk (by omega), ih hge]

/-- The twist before the first extraction, or nothing. -/
theorem twistIfDue_cases (s : State) :
    (s.mtCursor.val = 624 ∧ s.twistIfDue = (s.setMt (twist s.mt)).setMtCursor 0) ∨
    (s.mtCursor.val ≠ 624 ∧ s.twistIfDue = s) := by
  unfold State.twistIfDue
  split <;> simp [*]

/-- Everything `Perform_MT_EXTRACT` can do. -/
theorem performMtExtract_cases (s : State) :
    (624 < s.mtCursor.val ∧ performMtExtract s = .error .notSeeded) ∨
    (s.mtCursor.val ≤ 624 ∧ performMtExtract s =
      .ok ((s.twistIfDue.setMtOut (temper (s.twistIfDue.mt.getD s.twistIfDue.mtCursor.val 0))).setMtCursor
        (s.twistIfDue.mtCursor + 1))) := by
  unfold performMtExtract
  split
  · exact .inl ⟨by omega, rfl⟩
  · exact .inr ⟨by omega, rfl⟩

end Sys2Proof.Machine
end

