-- ==== Sys2Proof/Laws/PerInstr.lean ====
section
/-!
SUPPORT. Families of statements about every command, one lemma per constructor.
-/

namespace Sys2Proof.Laws.OpcodeRow

open Sys2Proof

/-- The `match` and `mask` of a command's row of spec/opcode_table.json (30_encoding.md R65). -/
def row : Instr → Word × Word
  | .nop => (0x00000000, 0xFFFFFFFF)
  | .ecbEnc => (0x00000001, 0xFFFFFFFF)
  | .ecbDec => (0x00000002, 0xFFFFFFFF)
  | .cbcEnc _ => (0x00000003, 0xFFFFFEFF)
  | .cbcDec _ => (0x00000004, 0xFFFFFEFF)
  | .ctrXf _ => (0x00000005, 0xFFFFFEFF)
  | .pad _ => (0x00000006, 0xFF00FFFF)
  | .strip => (0x00000007, 0xFFFFFFFF)
  | .mtSeed => (0x00000010, 0xFFFFFFFF)
  | .mtExtract => (0x00000011, 0xFFFFFFFF)
  | .mtTemper => (0x00000012, 0xFFFFFFFF)
  | .mtUntemper => (0x00000013, 0xFFFFFFFF)
  | .mtClone => (0x00000014, 0xFFFFFFFF)

/-- The word of a well-formed command matches its own row of the opcode table (30_encoding.md R65). -/
def Statement (i : Instr) : Prop := i.wf = true → encode i &&& (row i).2 = (row i).1

theorem nop : Statement .nop := by unfold Statement; decide

theorem ecbEnc : Statement .ecbEnc := by unfold Statement; decide

theorem ecbDec : Statement .ecbDec := by unfold Statement; decide

theorem cbcEnc (init : Bool) : Statement (.cbcEnc init) := by
  unfold Statement; revert init; decide

theorem cbcDec (init : Bool) : Statement (.cbcDec init) := by
  unfold Statement; revert init; decide

theorem ctrXf (init : Bool) : Statement (.ctrXf init) := by
  unfold Statement; revert init; decide

theorem pad (bs : Nat) : Statement (.pad bs) := by
  intro h
  have hp : ∀ b : Fin 256, encode (.pad b.val) &&& 0xFF00FFFF#32 = 0x00000006#32 := by decide +kernel
  exact hp ⟨bs, of_decide_eq_true h⟩

theorem strip : Statement .strip := by unfold Statement; decide

theorem mtSeed : Statement .mtSeed := by unfold Statement; decide

theorem mtExtract : Statement .mtExtract := by unfold Statement; decide

theorem mtTemper : Statement .mtTemper := by unfold Statement; decide

theorem mtUntemper : Statement .mtUntemper := by unfold Statement; decide

theorem mtClone : Statement .mtClone := by unfold Statement; decide

end Sys2Proof.Laws.OpcodeRow
end

