-- ==== Sys2Proof/Laws/Pkcs7.lean ====
section
/-!
SUPPORT. The padding: what PAD's value can be, what STRIP's loop says, what STRIP can do.
-/

namespace Sys2Proof.Machine

open Sys2Proof

/-- The padding value is at least 1, at most the block size, and completes the block. -/
theorem padValue_spec {bs : Nat} (h : 0 < bs) (len : Nat) :
    0 < padValue bs len ∧ padValue bs len ≤ bs ∧ (len + padValue bs len) % bs = 0 := by
  unfold padValue
  have h1 : len % bs < bs := Nat.mod_lt _ h
  refine ⟨by omega, by omega, ?_⟩
  have h2 : len = bs * (len / bs) + len % bs := (Nat.div_add_mod len bs).symm
  have h3 : len + (bs - len % bs) = bs * (len / bs + 1) := by
    rw [Nat.mul_add, Nat.mul_one]; omega
  rw [h3, Nat.mul_mod_right]

/-- STRIP's loop says that each of the last bytes is `p`. -/
theorem lastBytesAre_iff (s : State) (stop : Nat) (p : Byte) (n : Nat) :
    lastBytesAre s stop p n = true ↔ ∀ k, 1 ≤ k → k ≤ n → s.readByte (stop - k) = p := by
  induction n with
  | zero => simp [lastBytesAre]; omega
  | succ n ih =>
    simp only [lastBytesAre, Bool.and_eq_true, beq_iff_eq, ih]
    constructor
    · rintro ⟨h1, h2⟩ k hk hn
      rcases Nat.lt_or_ge n k with h | h
      · have : k = n + 1 := by omega
        rw [this]; exact h1
      · exact h2 k hk h
    · intro h
      exact ⟨h (n + 1) (by omega) (by omega), fun k hk hn => h k hk (by omega)⟩

/-- Everything `Perform_STRIP` can do. -/
theorem performStrip_cases (s : State) :
    (ValidPadding s s.src.toNat s.len.toNat ∧ performStrip s = .ok (s.setRlen (BitVec.ofNat 32
      (s.len.toNat - (s.readByte (s.src.toNat + s.len.toNat - 1)).toNat)))) ∨
    (¬ ValidPadding s s.src.toNat s.len.toNat ∧ performStrip s = .error .invalidPadding) := by
  unfold performStrip ValidPadding State.lenBytes State.srcOff
  by_cases h0 : s.len.toNat = 0
  · simp [h0]
  by_cases h1 : (s.readByte (s.src.toNat + s.len.toNat - 1)).toNat = 0
  · simp [h0, h1]
  by_cases h2 : s.len.toNat < (s.readByte (s.src.toNat + s.len.toNat - 1)).toNat
  · right
    refine ⟨fun h => by omega, ?_⟩
    simp only [if_neg h0, if_neg h1, if_pos h2]
  simp only [if_neg h0, if_neg h1, if_neg h2]
  by_cases h3 : lastBytesAre s (s.src.toNat + s.len.toNat) (s.readByte (s.src.toNat + s.len.toNat - 1))
      (s.readByte (s.src.toNat + s.len.toNat - 1)).toNat = true
  · left
    rw [if_pos h3]
    exact ⟨⟨by omega, by omega, by omega, (lastBytesAre_iff _ _ _ _).mp h3⟩, rfl⟩
  · right
    rw [if_neg h3]
    exact ⟨fun h => h3 ((lastBytesAre_iff _ _ _ _).mpr h.2.2.2), rfl⟩

end Sys2Proof.Machine
end

