-- ==== Sys2Proof/Tests/Slice0.lean ====
section
/-!
SUPPORT. Tests: words written out from the spec's encoding, one-step runs of the spec's vectors
(95_test_vectors.md), and for each statement with hypotheses a state that meets them.
-/

namespace Sys2Proof.Tests

-- One theorem at a time: each theorem in flight holds a thread of its own.
set_option Elab.async false

open Sys2Proof Sys2Proof.Machine

/-! ### Well-formedness: the one check, BS below 256 (30_encoding.md R63) -/

theorem test_wf_pad_256_refused : Instr.wf (.pad 256) = false := by decide

theorem test_wf_pad_limits : Instr.wf (.pad 0) = true ∧ Instr.wf (.pad 255) = true := by decide

/-! ### Decoding: words written out bit by bit from 30_encoding.md R61 and R65 -/

theorem test_decode_nop : decode 0b00000000000000000000000000000000#32 = .ok .nop := by decide

theorem test_decode_ecb :
    decode 0b00000000000000000000000000000001#32 = .ok .ecbEnc ∧
    decode 0b00000000000000000000000000000010#32 = .ok .ecbDec := by decide

theorem test_decode_cbc_enc :
    decode 0b00000000000000000000000000000011#32 = .ok (.cbcEnc false) ∧
    decode 0b00000000000000000000000100000011#32 = .ok (.cbcEnc true) := by decide

theorem test_decode_cbc_dec :
    decode 0b00000000000000000000000000000100#32 = .ok (.cbcDec false) ∧
    decode 0b00000000000000000000000100000100#32 = .ok (.cbcDec true) := by decide

theorem test_decode_ctr :
    decode 0b00000000000000000000000000000101#32 = .ok (.ctrXf false) ∧
    decode 0b00000000000000000000000100000101#32 = .ok (.ctrXf true) := by decide

theorem test_decode_pad :
    decode 0b00000000000100000000000000000110#32 = .ok (.pad 16) ∧
    decode 0b00000000111111110000000000000110#32 = .ok (.pad 255) ∧
    decode 0b00000000000000000000000000000110#32 = .ok (.pad 0) := by decide

theorem test_decode_strip : decode 0b00000000000000000000000000000111#32 = .ok .strip := by decide

theorem test_decode_mt :
    decode 0b00000000000000000000000000010000#32 = .ok .mtSeed ∧
    decode 0b00000000000000000000000000010001#32 = .ok .mtExtract ∧
    decode 0b00000000000000000000000000010010#32 = .ok .mtTemper ∧
    decode 0b00000000000000000000000000010011#32 = .ok .mtUntemper ∧
    decode 0b00000000000000000000000000010100#32 = .ok .mtClone := by decide

/-- The illegal words of V-DEC. -/
theorem test_decode_illegal :
    ([0x00000100, 0x00000101, 0x00000305, 0x00100007, 0x00000008, 0x0000000F, 0x00000015, 0x000000FF,
      0x00000200, 0x01000001, 0x80000000, 0x00000114, 0x00010010, 0x00100005] : List Word).all
      (fun w => (decode w).toOption.isNone) = true := by decide +kernel

/-- The host's view: a word of the table, and a word too wide for a command. -/
theorem test_table_word :
    decodeTableWord 32 0x00100006 = some (.pad 16) ∧ decodeTableWord 32 0x00000104 = some (.cbcDec true) ∧
    decodeTableWord 40 0x0100000000 = none := by decide

/-! ### Helpers -/

/-- The reset state with SRC, DST and LEN. -/
def opnd (src dst len : Word) : State := { State.reset with src := src, dst := dst, len := len }

/-- The same with bytes written at buffer offset 0. -/
def loaded (bs : List Byte) (dst : Word) : State :=
  (opnd 0 dst (BitVec.ofNat 32 bs.length)).memWrite 0 bs

/-- The next step, with the command word `w` in the latch, answers a state with `p`. -/
def runs (s : State) (w : Nat) (p : State → Bool) : Bool :=
  match step (s.withFetchWord 32 w) with
  | .next t => p t
  | _ => false

/-- The 16 bytes of one value. -/
def blockOf (b : Byte) : Block := Vector.replicate 16 b

/-- "ICE ICE BABY". -/
def ice : List Byte := [0x49, 0x43, 0x45, 0x20, 0x49, 0x43, 0x45, 0x20, 0x42, 0x41, 0x42, 0x59]

/-! ### One step per command -/

/-- 40_command_cycle.md R80, worked example. -/
theorem test_nop : runs State.reset 0x0 (fun t => t.statusWord == 0x2#32) = true := by decide +kernel

/-- V-ECB-4: LEN = 20 is INVALID_LENGTH and RLEN keeps its value. -/
theorem test_ecb_enc_length :
    runs { opnd 0 0x100 20 with rlen := 32 } 0x1 (fun t => t.statusWord == 0x102#32 && t.rlen == 32#32) = true := by
  decide +kernel

/-- V-ECB-5: LEN = 0. -/
theorem test_ecb_dec_empty :
    runs { opnd 0 0 0 with rlen := 32 } 0x2 (fun t => t.statusWord == 0x2#32 && t.rlen == 0#32) = true := by
  decide +kernel

/-- V-ORD: RANGE, and OVERLAP. -/
theorem test_ecb_enc_range_overlap :
    (runs (opnd 0xFF0 0 32) 0x1 (fun t => t.statusWord == 0x602#32) &&
      runs (opnd 0 8 16) 0x1 (fun t => t.statusWord == 0x702#32)) = true := by decide +kernel

/-- V-CBC-7, encryption with the toy cipher `x XOR K`. -/
theorem test_cbc_enc_toy :
    let s := { loaded (List.replicate 16 0xA0#8 ++ List.replicate 16 0x0B#8) 0x100 with iv := blockOf 1 }
    let t := performCbcEnc (fun x => xorBlock x (blockOf 0x10)) true s
    t.memRead 0x100 32 = List.replicate 16 0xB1#8 ++ List.replicate 16 0xAA#8 ∧ t.chain = blockOf 0xAA := by
  decide +kernel

/-- V-CBC-6 (a): a failed CBC_ENC performs no INIT copy. -/
theorem test_cbc_enc_failed_init :
    runs { opnd 0 0 20 with iv := blockOf 0x55, chain := blockOf 0xAA } 0x103
      (fun t => t.statusWord == 0x102#32 && t.chain == blockOf 0xAA) = true := by decide +kernel

/-- V-CBC-7, decryption with the toy cipher. -/
theorem test_cbc_dec_toy :
    let s := { loaded (List.replicate 16 0xB1#8 ++ List.replicate 16 0xAA#8) 0x200 with iv := blockOf 1 }
    let t := performCbcDec (fun x => xorBlock x (blockOf 0x10)) true s
    t.memRead 0x200 32 = List.replicate 16 0xA0#8 ++ List.replicate 16 0x0B#8 ∧ t.chain = blockOf 0xAA := by
  decide +kernel

/-- V-CBC-6 (b): LEN = 0 with INIT copies IV to CHAIN. -/
theorem test_cbc_dec_empty_init :
    runs { opnd 0 0 0 with iv := blockOf 0x55, chain := blockOf 0xAA } 0x104
      (fun t => t.statusWord == 0x2#32 && t.chain == blockOf 0x55) = true := by decide +kernel

/-- V-CTR-6: the counter wraps, with the toy cipher under the zero key. -/
theorem test_ctr_wrap :
    let s := { loaded (List.replicate 20 0#8) 0x100 with
      nonce := #v[1, 2, 3, 4, 5, 6, 7, 8], ctr := 0xFFFFFFFFFFFFFFFF }
    let t := performCtr id false s
    t.memRead 0x100 20 = [1, 2, 3, 4, 5, 6, 7, 8, 0xFF, 0xFF, 0xFF, 0xFF, 0xFF, 0xFF, 0xFF, 0xFF, 1, 2, 3, 4] ∧
      t.ctr = 1 := by decide +kernel

/-- V-CTR-5: LEN = 0, without and with INIT. -/
theorem test_ctr_empty :
    (runs { opnd 0 0 0 with ctr := 7 } 0x5 (fun t => t.ctr == 7#64) &&
      runs { opnd 0 0 0 with ctr := 7 } 0x105 (fun t => t.ctr == 0#64)) = true := by decide +kernel

/-- V-PAD-1. -/
theorem test_pad_ice :
    runs (loaded ice 0x100) 0x100006 (fun t => t.statusWord == 0x2#32 && t.rlen == 16#32 &&
      t.memRead 0x100 16 == ice ++ [4, 4, 4, 4]) = true := by decide +kernel

/-- V-PAD-7: BS = 0; V-PAD-11: RANGE of the output. -/
theorem test_pad_errors :
    (runs (loaded [0x41] 0x100) 0x6 (fun t => t.statusWord == 0x502#32) &&
      runs (opnd 0 0xFF0 16) 0x100006 (fun t => t.statusWord == 0x602#32)) = true := by decide +kernel

/-- V-STRIP-3 and V-STRIP-11. -/
theorem test_strip_valid :
    (runs (loaded (ice ++ [4, 4, 4, 4]) 0) 0x7 (fun t => t.statusWord == 0x2#32 && t.rlen == 12#32) &&
      runs (loaded (List.replicate 32 0x11#8) 0) 0x7 (fun t => t.rlen == 15#32)) = true := by decide +kernel

/-- V-STRIP-1, 2, 4, 5 and 7. -/
theorem test_strip_invalid :
    ([ice ++ [5, 5, 5, 5], ice ++ [1, 2, 3, 4], [], ice ++ [0, 0, 0, 0], List.replicate 16 0x11#8].all
      fun bs => runs (loaded bs 0) 0x7 (fun t => t.statusWord == 0x202#32 && t.rlen == 0#32)) = true := by
  decide +kernel

/-- 44_mt19937.md R106, worked example (V-MT-3). -/
theorem test_mt_seed :
    runs { State.reset with mtSeed := 5489 } 0x10 (fun t => t.statusWord == 0xA#32 && t.mtCursor == 624 &&
      t.mt.getD 1 0 == 0x4D98EE96#32 && t.mt.getD 623 0 == 0x04C46D8C#32) = true := by decide +kernel

/-- The first two words of the array after the twist (V-MT-3). -/
theorem test_mt_twist_words :
    (twistStep (seedWords 5489) 0).getD 0 0 = 0x9B0AFA27#32 ∧
    (twistLoop 2 (seedWords 5489)).getD 1 0 = 0xE99DE361#32 := by decide +kernel

/-- The first output of seed 5489 (V-MT-1, V-MT-3), with word 0 of the twisted array at the cursor. -/
theorem test_mt_extract_first :
    runs { State.reset with mt := Vector.replicate 624 0x9B0AFA27, mtCursor := 0 } 0x11
      (fun t => t.mtOut == 0xD091BB5C#32 && t.mtCursor == 1) = true := by decide +kernel

/-- V-MT-8, step 1: Unseeded. -/
theorem test_mt_extract_unseeded :
    runs State.reset 0x11 (fun t => t.statusWord == 0x302#32 && t.mtCursor == 625) = true := by decide +kernel

/-- V-MT-6. -/
theorem test_mt_temper :
    runs { State.reset with mtTin := 0xDEADBEEF } 0x12 (fun t => t.mtTout == 0xE016575D#32) = true := by
  decide +kernel

/-- V-MT-6. -/
theorem test_mt_untemper :
    runs { State.reset with mtTin := 0xDEADBEEF } 0x13 (fun t => t.mtTout == 0x8F3A6C09#32) = true := by
  decide +kernel

/-- V-MT-8, step 3: the first MT_CLONE of a load unseeds the engine. -/
theorem test_mt_clone_first :
    runs { State.reset with mtTin := 0xD091BB5C, mtCursor := 624 } 0x14 (fun t => t.statusWord == 0x2#32 &&
      t.mtCidx == 1 && t.mtCursor == 625 && t.mtTout == 0x9B0AFA27#32 && t.mt.getD 0 0 == 0x9B0AFA27#32) = true := by
  decide +kernel

/-- 44_mt19937.md R110: the 624th MT_CLONE seeds the engine. -/
theorem test_mt_clone_last :
    runs { State.reset with mtCidx := 623 } 0x14 (fun t => t.statusWord == 0xA#32 && t.mtCidx == 0 &&
      t.mtCursor == 624) = true := by decide +kernel

/-! ### The bus and the resets -/

/-- V-BUS-1: a soft reset with BUSY = 1 and IE set abandons the command; the buffer stays. -/
theorem test_soft_reset :
    let s := { (loaded [0x0D, 0xF0, 0xFE, 0xCA] 0) with busy := true, cmd := 0x10, ie := true, mtSeed := 5489 }
    let t := s.hostWrite 0x008 3
    t.statusWord = 0 ∧ t.ctrlWord = 0 ∧ t.cmd = 0 ∧ t.mtSeed = 0 ∧ (t.hostRead 0x1000).rdata = 0xCAFEF00D := by
  decide +kernel

/-- V-BUS-1: a misaligned write, unmapped reads and writes of RO registers set BUSERR. -/
theorem test_bus_errors :
    (State.reset.hostWrite 0x1002 5).statusWord = 4 ∧ (State.reset.hostRead 0x088).statusWord = 4 ∧
    (State.reset.hostWrite 0x000 0).statusWord = 4 ∧ (State.reset.hostWrite 0x080 0).mtCursor = 625 ∧
    (State.reset.hostRead 0xFFFC).statusWord = 4 ∧ (State.reset.hostRead 0x2000).statusWord = 4 ∧
    (State.reset.hostRead 0x030).statusWord = 0 := by decide +kernel

/-- V-BUS-2: byte order of the buffer, of KEY and of CTR. -/
theorem test_bus_packing :
    (State.reset.hostWrite 0x1000 0x03020100).memRead 0 4 = [0, 1, 2, 3] ∧
    (State.reset.hostWrite 0x030 0x4C4C4559).key.getD 0 0 = 0x59 ∧
    (State.reset.hostWrite 0x03C 0x454E4952).key.getD 15 0 = 0x45 ∧
    (State.reset.hostWrite 0x068 1).ctr = 1 ∧ (State.reset.hostWrite 0x06C 1).ctr = 0x100000000 := by
  decide +kernel

/-- 20_memory.md R51: an operand write of a busy block is dropped and sets BUSERR. -/
theorem test_busy_write_dropped :
    let t := { State.reset with busy := true }.hostWrite 0x014 5
    t.src = 0 ∧ t.statusWord = 5 := by decide +kernel

/-- The command placed for the host's check runs as the first after reset. -/
theorem test_with_fetch_word :
    runs State.reset 0x80000000 (fun t => t.statusWord == 0x402#32 && t.cmd == 0x80000000#32) = true := by
  decide +kernel

/-! ### Witnesses: for each statement with hypotheses, states and operands that meet them -/

/-- A busy block with the command word `w` in the latch. -/
def pending (w : Word) : State := { State.reset with cmd := w, busy := true }

/-- A step of a state with a list of bus events, as its next state. -/
theorem step_write (s : State) (a : Addr) (v : Word) (rest : List BusEvent) :
    step { s with inputs := .write a v :: rest } = .next (State.hostWrite { s with inputs := rest } a v) := rfl

theorem step_read (s : State) (a : Addr) (rest : List BusEvent) :
    step { s with inputs := .read a :: rest } = .next (State.hostRead { s with inputs := rest } a) := rfl

theorem witness_DecodeOfEncode : ∀ i ∈ [Instr.nop, .cbcEnc true, .ctrXf false, .pad 0, .pad 255, .mtClone],
    i.wf = true := by decide

theorem witness_EncodeOfDecode : decode 0x00FF0006 = .ok (.pad 255) ∧ decode 0x00000105 = .ok (.ctrXf true) := by
  decide

theorem witness_IllegalWords :
    (State.reset.busy = false ∧ decode 0x00000200 = .error .reservedBits) ∧
    ((pending 0x00000100).busy = true ∧ decode (pending 0x00000100).cmd = .error .initNotAllowed) ∧
    (pending 0x00010010).busy = true ∧ decode (pending 0x00010010).cmd = .error .bsNotAllowed := by decide

theorem witness_StepRunsDecodedCommand :
    ((pending 0x14).busy = true ∧ decode (pending 0x14).cmd = .ok .mtClone ∧ (pending 0x14).inputs = []) ∧
    ({ pending 0x7 with inputs := [.engine, .read 0] } : State).inputs = .engine :: [.read 0] := by decide

theorem witness_StepRunsHostEntry :
    ({ State.reset with inputs := [.read 0x00C] } : State).inputs = .read 0x00C :: [] ∧
    ({ pending 0 with inputs := [.reset, .read 0] } : State).inputs = .reset :: [.read 0] ∧
    ((pending 0x00000200).busy = true ∧ decode (pending 0x00000200).cmd = .error .reservedBits ∧
      (pending 0x00000200).inputs = []) ∧
    (State.reset.busy = false ∧ State.reset.inputs = []) ∧
    ({ State.reset with inputs := [.write 0x010 5] } : State).inputs = .write 0x010 5 :: [] ∧
    ({ State.reset with inputs := [.engine] } : State).inputs = .engine :: [] := by decide +kernel

/-- The smallest, the default and the largest buffer. -/
theorem witness_BufferSizes :
    (State.resetWith 0).bufBytes = 16 ∧ (State.resetWith 255).bufBytes = 4096 ∧
    (State.resetWith 3839).bufBytes = 0xF000 ∧ 16 % 16 = 0 ∧ 0xF000 % 16 = 0 ∧
    step State.reset = .next State.reset := ⟨rfl, rfl, rfl, rfl, rfl, rfl⟩

theorem witness_StepKeepsStateInv :
    StateInv (loaded [1, 2] 0) ∧ StateInv (pending 0x14) ∧
    StateInv { pending 0x14 with mtCidx := 623, buf := [(4095, 0)], inputs := [.reset] } := by
  refine ⟨⟨?_, ?_, ?_, ?_⟩, ⟨?_, ?_, ?_, ?_⟩, ⟨?_, ?_, ?_, ?_⟩⟩ <;> decide +kernel

theorem witness_PendingCommandEnds : ({ pending 0x6 with inputs := [.read 0, .write 0x00C 6] } : State).busy = true :=
  rfl

theorem witness_CompletionSetsDone :
    (pending 0).engineStep = .next (afterExec .nop (pending 0)) ∧
    step (pending 0) = .next (afterExec .nop (pending 0)) ∧ (pending 0).busy = true ∧
    (pending 0).done = false ∧ (afterExec .nop (pending 0)).done = true := ⟨rfl, rfl, rfl, rfl, rfl⟩

theorem witness_FailedCommandIsPrecise :
    (pending 0x6).busy = true ∧ (pending 0x6).engineStep = .next (completedWith (pending 0x6) .badArg) ∧
    (completedWith (pending 0x6) .badArg).err ≠ .ok := ⟨rfl, rfl, by decide⟩

/-- Each register of the frame is written by one of its commands. -/
theorem witness_CommandFrame :
    (afterExec (.cbcEnc true) { opnd 0 0 0 with iv := blockOf 1 }).chain ≠ blockOf 0 ∧
    (afterExec (.ctrXf true) { opnd 0 0 0 with ctr := 1 }).ctr ≠ 1 ∧
    (afterExec .mtExtract { State.reset with mtCursor := 0, mtOut := 1 }).mtOut ≠ 1 ∧
    (afterExec .mtTemper { State.reset with mtTin := 1 }).mtTout ≠ 0 ∧
    (afterExec .mtClone State.reset).mtCidx ≠ 0 ∧ (afterExec .mtSeed State.reset).mtCursor ≠ 625 ∧
    (afterExec .strip (loaded [7, 1] 0)).rlen ≠ 0 ∧ (afterExec (.pad 1) (loaded [7] 0)).rlen ≠ 0 ∧
    (afterExec (.pad 2) { loaded [7, 8] 0 with len := 1 }).readByte 1 ≠ (loaded [7, 8] 0).readByte 1 := by
  decide +kernel

theorem witness_EngineStaysInsideBuffer :
    exec (.pad 1) (opnd 0 4095 0) = .next (afterExec (.pad 1) (opnd 0 4095 0)) ∧ (opnd 0 4095 0).bufBytes ≤ 4096 ∧
    (afterExec (.pad 1) (opnd 0 4095 0)).err = .ok ∧
    ∀ o, o < (opnd 0 4095 0).bufBytes →
      State.readByte { opnd 0 4095 0 with buf := [(4096, 7)] } o = (opnd 0 4095 0).readByte o := by
  refine ⟨exec_next _ _, by decide, by decide +kernel, fun o ho => ?_⟩
  have h4 : (opnd 0 4095 0).bufBytes = 4096 := rfl
  have h : 4096 ≠ o := by omega
  simp [State.readByte, memLookup, h, opnd, State.reset, State.resetWith]

/-- A dropped operand write, a hidden read and a CTRL write leave the command pending. -/
theorem witness_OperandsFrozenWhileBusy :
    (step { pending 0 with inputs := [.write 0x014 5] } =
        .next (State.hostWrite { pending 0 with inputs := [] } 0x014 5) ∧
      (State.hostWrite { pending 0 with inputs := [] } 0x014 5).busy = true) ∧
    (State.hostWrite { pending 0 with inputs := [] } 0x008 1).busy = true ∧
    (State.hostRead { pending 0 with inputs := [] } 0x014).busy = true :=
  ⟨⟨step_write _ _ _ _, by decide +kernel⟩, by decide +kernel, by decide +kernel⟩

theorem witness_InvalidLength :
    (Instr.cbcDec true ∈ [Instr.ecbEnc, .ecbDec, .cbcEnc true, .cbcDec true] ∧ (opnd 0 0 15).len.toNat % 16 ≠ 0) ∧
    ((opnd 0 0 0).len.toNat % 16 = 0 ∧ exec .ecbEnc (opnd 0 0 0) = .next (afterExec .ecbEnc (opnd 0 0 0))) ∧
    exec (.ctrXf true) (opnd 0 0 1) = .next (afterExec (.ctrXf true) (opnd 0 0 1)) :=
  ⟨by decide, ⟨by decide, exec_next _ _⟩, exec_next _ _⟩

/-- Both sides of each bound: 4096 passes, 4097 does not, and a sum past 2^32 does not. -/
theorem witness_RangeError :
    (¬ ((opnd 4081 0 16).src.toNat + (opnd 4081 0 16).len.toNat ≤ State.reset.bufBytes ∧
        (opnd 4081 0 16).dst.toNat + (opnd 4081 0 16).len.toNat ≤ State.reset.bufBytes)) ∧
    (opnd 4080 4080 16).src.toNat + (opnd 4080 4080 16).len.toNat ≤ State.reset.bufBytes ∧
    (opnd 4096 0 0).src.toNat + (opnd 4096 0 0).len.toNat ≤ State.reset.bufBytes ∧
    (opnd 0 4081 0).dst.toNat + ((opnd 0 4081 0).len.toNat + (16 - (opnd 0 4081 0).len.toNat % 16)) >
      State.reset.bufBytes ∧
    (opnd 0 4080 0).dst.toNat + ((opnd 0 4080 0).len.toNat + (16 - (opnd 0 4080 0).len.toNat % 16)) ≤
      State.reset.bufBytes ∧
    State.reset.bufBytes < (opnd 0xFFFFFFFF 0 1).src.toNat + (opnd 0xFFFFFFFF 0 1).len.toNat := by decide

/-- One byte of overlap and adjacency, for a copying command and for PAD (3 bytes of output at 0). -/
theorem witness_OverlapError :
    ((opnd 0 15 16).len.toNat % 16 = 0 ∧ ¬ Apart 0 15 16 ∧ Apart 0 16 16 ∧ Apart 5 5 16) ∧
    ((opnd 0 15 16).src.toNat + (opnd 0 15 16).len.toNat ≤ State.reset.bufBytes ∧
      (opnd 0 15 16).dst.toNat + (opnd 0 15 16).len.toNat ≤ State.reset.bufBytes) ∧
    (3 = (opnd 2 0 1).len.toNat + (3 - (opnd 2 0 1).len.toNat % 3) ∧ 0 < (opnd 2 0 1).len.toNat ∧
      (opnd 2 0 1).src.toNat < (opnd 2 0 1).dst.toNat + 3 ∧
      (opnd 2 0 1).dst.toNat < (opnd 2 0 1).src.toNat + (opnd 2 0 1).len.toNat) ∧
    (opnd 3 0 1).dst.toNat + 3 ≤ (opnd 3 0 1).src.toNat ∧
    exec .strip (opnd 0 1 2) = .next (afterExec .strip (opnd 0 1 2)) := by
  refine ⟨?_, by decide, by decide, by decide, exec_next _ _⟩
  unfold Apart
  decide

theorem witness_ErrorOrder :
    ((pending 0x00000101).busy = true ∧ decode (pending 0x00000101).cmd = .error .initNotAllowed) ∧
    (opnd 0xFF0 0 20).len.toNat % 16 ≠ 0 ∧
    (State.reset.bufBytes < (opnd 0xFF8 0xFF0 16).src.toNat + (opnd 0xFF8 0xFF0 16).len.toNat) ∧
    (Instr.ctrXf false ∉ [Instr.pad 1, .strip] ∧ State.reset.bufBytes < (opnd 0 4095 2).dst.toNat + 2) ∧
    exec .mtExtract (opnd 9 9 9) = .next (afterExec .mtExtract (opnd 9 9 9)) :=
  ⟨by decide, by decide, by decide, by decide, exec_next _ _⟩

/-- Operands of EcbEncResult, EcbDecResult, CbcEncResult, CbcDecResult and CtrXfResult: in place at the end
of the buffer, disjoint and adjacent, and empty at BUF_BYTES; for CTR_XF a partial block too. -/
theorem witness_ModeResults :
    (CopyOperandsOk (opnd 4080 4080 16) ∧ (opnd 4080 4080 16).len.toNat % 16 = 0) ∧
    (CopyOperandsOk (opnd 0 32 32) ∧ (opnd 0 32 32).len.toNat % 16 = 0) ∧
    (CopyOperandsOk (opnd 4096 4096 0) ∧ (opnd 4096 4096 0).len.toNat % 16 = 0) ∧
    CopyOperandsOk (opnd 0 52 52) := by
  unfold CopyOperandsOk Apart
  decide

theorem witness_EcbEqualBlocks :
    exec .ecbEnc (opnd 0 32 32) = .next (afterExec .ecbEnc (opnd 0 32 32)) ∧
    (afterExec .ecbEnc (opnd 0 32 32)).err = .ok ∧ 0 < (opnd 0 32 32).len.toNat / 16 ∧
    1 < (opnd 0 32 32).len.toNat / 16 := ⟨exec_next _ _, by decide +kernel, by decide, by decide⟩

theorem witness_EcbCbcRoundTrip :
    (∃ t v, exec .ecbEnc (opnd 0 16 16) = .next t ∧ t.err = .ok ∧
      exec .ecbDec { t with src := 16, dst := 32 } = .next v ∧ v.err = .ok) ∧
    ∃ t v, exec (.cbcEnc true) (opnd 0 16 16) = .next t ∧ t.err = .ok ∧
      exec (.cbcDec true) { t with src := 16, dst := 16 } = .next v ∧ v.err = .ok :=
  ⟨⟨_, _, exec_next _ _, by decide +kernel, exec_next _ _, by decide +kernel⟩,
    ⟨_, _, exec_next _ _, by decide +kernel, exec_next _ _, by decide +kernel⟩⟩

theorem witness_CbcChainsAcrossCommands :
    (opnd 0 32 32).len.toNat = 16 * (1 + 1) ∧
    exec (.cbcEnc true) (opnd 0 32 32) = .next (afterExec (.cbcEnc true) (opnd 0 32 32)) ∧
    (afterExec (.cbcEnc true) (opnd 0 32 32)).err = .ok ∧
    exec (.cbcDec true) (opnd 0 32 32) = .next (afterExec (.cbcDec true) (opnd 0 32 32)) ∧
    (afterExec (.cbcDec true) (opnd 0 32 32)).err = .ok :=
  ⟨by decide, exec_next _ _, by decide +kernel, exec_next _ _, by decide +kernel⟩

/-- One ciphertext byte changed, and one IV byte changed. -/
theorem witness_CbcMalleability :
    (∃ s s' : State, s.len.toNat = 32 ∧ s' = { s with buf := s'.buf } ∧
      (∀ o, s'.readByte o = if o = s.src.toNat + 16 * 0 + 5 then s.readByte o ^^^ 1 else s.readByte o) ∧
      (afterExec (.cbcDec true) s).err = .ok ∧ (afterExec (.cbcDec true) s').err = .ok) ∧
    (∀ m, m < 16 → (#v[1, 0, 0, 0, 0, 0, 0, 0, 0, 0, 0, 0, 0, 0, 0, 0] : Block).getD m 0 =
      if m = 0 then (opnd 0 32 16).iv.getD m 0 ^^^ 1 else (opnd 0 32 16).iv.getD m 0) ∧
    (afterExec (.cbcDec true) (opnd 0 32 16)).err = .ok := by
  refine ⟨⟨{ opnd 0 32 32 with buf := [(5, 8)] }, { opnd 0 32 32 with buf := [(5, 9)] }, by decide, rfl, ?_,
    by decide +kernel, by decide +kernel⟩, by decide, by decide +kernel⟩
  intro o
  by_cases h : 5 = o
  · subst h; decide +kernel
  · have h' : o ≠ 5 := fun e => h e.symm
    simp [State.readByte, memLookup, h, h', opnd, State.reset, State.resetWith]

theorem witness_CtrInvolution :
    ∃ t v, exec (.ctrXf true) (opnd 0 52 52) = .next t ∧ t.err = .ok ∧
      exec (.ctrXf true) { t with src := 52, dst := 52, ctr := 0 } = .next v ∧ v.err = .ok :=
  ⟨_, _, exec_next _ _, by decide +kernel, exec_next _ _, by decide +kernel⟩

theorem witness_CtrRandomAccess :
    exec (.ctrXf true) (opnd 64 64 52) = .next (afterExec (.ctrXf true) (opnd 64 64 52)) ∧
    (afterExec (.ctrXf true) (opnd 64 64 52)).err = .ok ∧ 16 * (37 / 16) + (20 : Word).toNat ≤ 52 ∧
    (afterExec (.ctrXf false) { opnd 96 96 20 with ctr := 2 }).err = .ok :=
  ⟨exec_next _ _, by decide +kernel, by decide, by decide +kernel⟩

theorem witness_CtrMalleability :
    ∃ s s' : State, 5 < s.len.toNat ∧ s' = { s with buf := s'.buf } ∧
      (∀ o, s'.readByte o = if o = s.src.toNat + 5 then s.readByte o ^^^ 1 else s.readByte o) ∧
      (afterExec (.ctrXf true) s).err = .ok ∧ (afterExec (.ctrXf true) s').err = .ok := by
  refine ⟨{ opnd 0 32 20 with buf := [(5, 8)] }, { opnd 0 32 20 with buf := [(5, 9)] }, by decide, rfl, ?_,
    by decide +kernel, by decide +kernel⟩
  intro o
  by_cases h : 5 = o
  · subst h; decide +kernel
  · have h' : o ≠ 5 := fun e => h e.symm
    simp [State.readByte, memLookup, h, h', opnd, State.reset, State.resetWith]

theorem witness_CtrContinuation :
    ((opnd 0 64 37).len.toNat = 16 * 2 + 5 ∧ (afterExec (.ctrXf true) (opnd 0 64 37)).err = .ok) ∧
    (opnd 0 64 5).len.toNat % 16 ≠ 0 ∧
    ∃ t v, exec (.ctrXf true) (opnd 0 64 5) = .next t ∧ t.err = .ok ∧
      exec (.ctrXf false) { t with src := 0, dst := 80, len := 16 } = .next v ∧ v.err = .ok :=
  ⟨⟨by decide, by decide +kernel⟩, by decide,
    ⟨_, _, exec_next _ _, by decide +kernel, exec_next _ _, by decide +kernel⟩⟩

/-- The block sizes 1 and 255, in place and at the end of the buffer. -/
theorem witness_PadResult :
    (0 < 1 ∧ 1 < 256 ∧ 1 = 1 - (opnd 7 7 4088).len.toNat % 1 ∧ 7 + 4088 ≤ State.reset.bufBytes ∧
      7 + (4088 + 1) ≤ State.reset.bufBytes) ∧
    (255 < 256 ∧ 255 = 255 - (opnd 0 3841 0).len.toNat % 255 ∧ 3841 + (0 + 255) ≤ State.reset.bufBytes) := by decide

theorem witness_StripResult :
    ValidPadding (loaded [9, 2, 2] 0) 0 3 ∧ ¬ ValidPadding (loaded [9, 3, 2] 0) 0 3 ∧
    (loaded [9, 2, 2] 0).src.toNat + (loaded [9, 2, 2] 0).len.toNat ≤ State.reset.bufBytes := by
  have e2 : (loaded [9, 2, 2] 0).readByte (0 + 3 - 1) = 2 := by decide +kernel
  have e3 : (loaded [9, 3, 2] 0).readByte (0 + 3 - 1) = 2 := by decide +kernel
  refine ⟨⟨by decide, by rw [e2]; decide, by rw [e2]; decide, ?_⟩, ?_, by decide +kernel⟩
  · intro k h1 h2
    rw [e2] at h2 ⊢
    have h2' : k ≤ 2 := h2
    rcases (show k = 1 ∨ k = 2 by omega) with rfl | rfl <;> decide +kernel
  · intro h
    have := h.2.2.2 2 (by decide) (by rw [e3]; decide)
    rw [e3] at this
    exact absurd this (by decide +kernel)

theorem witness_PadThenStrip :
    (exec (.pad 16) (loaded ice 0x100) = .next (afterExec (.pad 16) (loaded ice 0x100)) ∧
      (afterExec (.pad 16) (loaded ice 0x100)).err = .ok) ∧
    (afterExec (.pad 16) (opnd 0 0 16)).err = .ok ∧ (opnd 0 0 16).len.toNat % 16 = 0 ∧
    (afterExec (.pad 255) (opnd 0 3841 0)).err = .ok :=
  ⟨⟨exec_next _ _, by decide +kernel⟩, by decide +kernel, by decide, by decide +kernel⟩

/-- The cursors at which each clause of MtExtractResult applies. -/
theorem witness_MtExtractResult :
    (623 : Fin 626).val < 624 ∧ (624 : Fin 626).val = 624 ∧ State.reset.mtCursor.val = 625 := by decide

theorem witness_CloneLaw : (afterExec .mtSeed State.reset).mtCursor = 624 ∧ State.reset.mtCidx = 0 := by
  decide +kernel

theorem witness_UnseededStateUnobservable :
    MtHidden State.reset (Vector.replicate 624 7) ∧
    step { State.reset with inputs := [.write 0x010 0x14] } =
      .next (State.hostWrite { State.reset with inputs := [] } 0x010 0x14) :=
  ⟨⟨rfl, fun j h hj => absurd hj (by simp [State.reset, State.resetWith])⟩, step_write _ _ _ _⟩

/-- Boundary addresses of the unmapped ranges, inside and outside. -/
theorem witness_HostReadAnswers :
    (∀ a ∈ ([0x024, 0x02C, 0x088, 0xFFC, 0x2000, 0xFFFC] : List Addr), Unmapped State.reset.bufBytes a) ∧
    (∀ a ∈ ([0x020, 0x030, 0x084, 0x1000, 0x1FFC] : List Addr), ¬ Unmapped State.reset.bufBytes a ∧ a.toNat % 4 = 0) ∧
    (0x002 : Addr).toNat % 4 ≠ 0 ∧ (pending 0).busy = true ∧
    (0x014 : Addr) ∉ ([0x000, 0x004, 0x008, 0x00C, 0x010, 0x030, 0x034, 0x038, 0x03C] : List Addr) ∧
    ((0x084 : Addr), BitVec.ofNat 32 State.reset.mtCidx.val) ∈ registerReads State.reset := by
  refine ⟨?_, ?_, by decide, rfl, by decide, ?_⟩
  · simp [Unmapped]
  · simp [Unmapped]
  · simp [registerReads]

theorem witness_HostWriteEffects :
    IllegalAccess State.reset (.write 0x084 0) ∧ IllegalAccess (pending 0) (.write 0x010 0) ∧
    (4 : Word).getLsbD 1 = false ∧ State.reset.busy = false ∧
    ((0x010 : Addr), State.issue State.reset 5) ∈ registerWrites State.reset 5 ∧
    (0x1FFC : Addr).toNat % 4 = 0 ∧ (0x1FFC : Addr).toNat < 0x1000 + State.reset.bufBytes := by
  refine ⟨?_, ?_, by decide, rfl, ?_, by decide, by decide⟩
  · exact .inr (.inr (.inl (by decide)))
  · exact .inr (.inr (.inr (by decide)))
  · exact List.mem_cons_self

theorem witness_BusErrorsExactly :
    (IllegalAccess State.reset (.read 0x088) ∧ State.reset.buserr = false ∧
      step { State.reset with inputs := [.read 0x088] } =
        .next (State.hostRead { State.reset with inputs := [] } 0x088)) ∧
    (State.hostWrite { State.reset with buserr := true } 0x00C 4).buserr = false := by
  refine ⟨⟨.inr ?_, rfl, step_read _ _ _⟩, by decide +kernel⟩
  unfold Unmapped; decide

theorem witness_OnlyCmdWriteIssues :
    State.reset.busy = false ∧ (pending 0).busy = true ∧
    step { State.reset with inputs := [.write 0x010 5] } =
      .next (State.hostWrite { State.reset with inputs := [] } 0x010 5) ∧
    (State.hostWrite { State.reset with inputs := [] } 0x010 5).busy = true :=
  ⟨rfl, rfl, step_write _ _ _ _, by decide +kernel⟩

/-- A completion with IE set, and IE set while DONE is set, raise the interrupt. -/
theorem witness_InterruptLevel :
    (step { pending 0 with ie := true } = .next (afterExec .nop { pending 0 with ie := true }) ∧
      ({ pending 0 with ie := true } : State).irq = false ∧
      (afterExec .nop { pending 0 with ie := true }).irq = true) ∧
    ({ State.reset with done := true } : State).irq = false ∧
    (State.hostWrite { State.reset with done := true } 0x008 1).irq = true ∧
    (2 : Word).getLsbD 1 = true ∧ (2 : Word).getLsbD 0 = false := ⟨⟨rfl, rfl, rfl⟩, by decide +kernel⟩

/-- Every key agrees with itself; and a command that reads no key, under another key. -/
theorem witness_KeyIsolation :
    (exec .ecbEnc (opnd 0 16 16) = .next (afterExec .ecbEnc (opnd 0 16 16)) ∧
      ∀ x, Config.enc (opnd 0 16 16).key x = Config.enc (opnd 0 16 16).key x ∧
        Config.dec (opnd 0 16 16).key x = Config.dec (opnd 0 16 16).key x) ∧
    exec (.pad 16) (opnd 0 0 1) = .next (afterExec (.pad 16) (opnd 0 0 1)) ∧ blockOf 1 ≠ (opnd 0 0 1).key :=
  ⟨⟨exec_next _ _, fun _ => ⟨rfl, rfl⟩⟩, exec_next _ _, by decide +kernel⟩

theorem witness_SoftReset :
    ({ pending 0x10 with inputs := [.write 0x008 3, .engine] } : State).busy = true ∧
    (3 : Word).getLsbD 1 = true := by decide

/-- A legal address of the idle block, STATUS of a busy block, and a misaligned one. -/
theorem witness_ReadsHaveNoSideEffect :
    ((0x00C : Addr).toNat % 4 = 0 ∧ ¬ Unmapped State.reset.bufBytes 0x00C) ∧ State.reset.busy = false ∧
    (0x00C : Addr) ∈ ([0x000, 0x004, 0x008, 0x00C, 0x010, 0x030, 0x034, 0x038, 0x03C] : List Addr) ∧
    (0x00D : Addr).toNat % 4 ≠ 0 ∧ Unmapped State.reset.bufBytes 0x024 := by
  refine ⟨⟨by decide, by simp [Unmapped]⟩, rfl, by decide, by decide, by simp [Unmapped]⟩

/-- Two buffer sizes: the last buffer word of the larger one is unmapped in the smaller one. -/
theorem test_buffer_size :
    ((State.resetWith 1).hostRead 0x1010).statusWord = 0 ∧
    ((State.resetWith 0).hostRead 0x1010).statusWord = 4 ∧
    runs { State.resetWith 1 with dst := 17 } 0x00100006 (fun t => t.statusWord == 0x602#32) = true ∧
    runs { State.resetWith 1 with dst := 16 } 0x00100006 (fun t => t.rlen == 16) = true ∧
    (State.resetWith 3839).hardReset.bufBytes = 0xF000 ∧ (State.resetWith 0).softReset.bufBytes = 16 := by
  decide +kernel

/-- Bytes 0 to 15 of the input of the second keystream block of counter 0xFF (20_memory.md R44). -/
theorem test_counter_bytes :
    counterBlock #v[1, 2, 3, 4, 5, 6, 7, 8] (0xFF + 1) =
      #v[1, 2, 3, 4, 5, 6, 7, 8, 0, 1, 0, 0, 0, 0, 0, 0] := by decide +kernel

theorem witness_HardResetValues :
    State.hardReset (pending 0x10) = (pending 0x10).hardReset ∧ State.reset = State.resetWith 255 := ⟨rfl, rfl⟩

theorem witness_TwistRecurrence :
    (623 : Nat) < 624 ∧ ¬ (623 + 1 < 624) ∧ (226 : Nat) < 227 ∧ ¬ ((227 : Nat) < 227) := by decide

end Sys2Proof.Tests
end

section
/-!
PROOFS. The parameter BUF_BYTES (00_scope.md R8): which sizes a block can have, and that no operation of the
block changes its own. The frame lemmas follow the layers of the model: the commands' `Perform`, `exec`, the
engine's turn, the host's accesses, the step.
-/

namespace Sys2Proof.Machine

open Sys2Proof

/-! ### The legal sizes -/

/-- Every legal size is the size of a block right after reset: size number `n / 16 - 1`. -/
theorem exists_resetWith_bufBytes_eq {n : Nat} (hmod : n % 16 = 0) (hmin : 16 ≤ n) (hmax : n ≤ 0xF000) :
    ∃ z, (State.resetWith z).bufBytes = n := by
  refine ⟨⟨n / 16 - 1, by omega⟩, ?_⟩
  simp only [State.bufBytes, State.resetWith_bufSize, Config.bufBytesOf, Config.blk]
  omega

/-! ### A command as its checks and its `Perform` -/

/-- The checks of a command, before its `Perform` (40_command_cycle.md R72). -/
def checkOf : Instr → State → ErrCode
  | .ecbEnc, s | .ecbDec, s | .cbcEnc _, s | .cbcDec _, s => s.blockCheck
  | .ctrXf _, s => s.bufferCheck (some s.lenBytes)
  | .pad bs, s => s.padCheck bs
  | .strip, s => s.bufferCheck none
  | .nop, _ | .mtSeed, _ | .mtExtract, _ | .mtTemper, _ | .mtUntemper, _ | .mtClone, _ => .ok

/-- `Perform` of a command (40_command_cycle.md R72). Only STRIP and MT_EXTRACT can fail in it. -/
def performOf : Instr → State → Except ErrCode State
  | .nop, s => .ok s
  | .ecbEnc, s => .ok (performEcb (Config.enc s.key) s)
  | .ecbDec, s => .ok (performEcb (Config.dec s.key) s)
  | .cbcEnc init, s => .ok (performCbcEnc (Config.enc s.key) init s)
  | .cbcDec init, s => .ok (performCbcDec (Config.dec s.key) init s)
  | .ctrXf init, s => .ok (performCtr (Config.enc s.key) init s)
  | .pad bs, s => .ok (performPad bs s)
  | .strip, s => performStrip s
  | .mtSeed, s => .ok (performMtSeed s)
  | .mtExtract, s => performMtExtract s
  | .mtTemper, s => .ok (s.setMtTout (temper s.mtTin))
  | .mtUntemper, s => .ok (s.setMtTout (untemper s.mtTin))
  | .mtClone, s => .ok (performMtClone s)

/-- `Execute` of every command has the one shape of 40_command_cycle.md R72. -/
theorem exec_eq_finish (i : Instr) (s : State) : exec i s = s.finish (checkOf i s) (performOf i) := by
  cases i <;> rfl

/-! ### The commands -/

@[simp] theorem performEcb_bufBytes (f : Block → Block) (s : State) :
    (performEcb f s).bufBytes = s.bufBytes := by
  simp [performEcb]

@[simp] theorem performCbcEnc_bufBytes (e : Block → Block) (init : Bool) (s : State) :
    (performCbcEnc e init s).bufBytes = s.bufBytes := by
  simp [performCbcEnc]

@[simp] theorem performCbcDec_bufBytes (d : Block → Block) (init : Bool) (s : State) :
    (performCbcDec d init s).bufBytes = s.bufBytes := by
  simp [performCbcDec]

@[simp] theorem performCtr_bufBytes (e : Block → Block) (init : Bool) (s : State) :
    (performCtr e init s).bufBytes = s.bufBytes := by
  simp [performCtr]

@[simp] theorem performPad_bufBytes (bs : Nat) (s : State) : (performPad bs s).bufBytes = s.bufBytes := by
  simp [performPad]

theorem performStrip_bufBytes {s t : State} (h : performStrip s = .ok t) : t.bufBytes = s.bufBytes := by
  rcases performStrip_cases s with ⟨-, hs⟩ | ⟨-, hs⟩ <;> rw [hs] at h <;> cases h
  exact State.setRlen_bufBytes ..

@[simp] theorem performMtSeed_bufBytes (s : State) : (performMtSeed s).bufBytes = s.bufBytes := by
  simp [performMtSeed]

@[simp] theorem twistIfDue_bufBytes (s : State) : s.twistIfDue.bufBytes = s.bufBytes := by
  rcases twistIfDue_cases s with ⟨-, h⟩ | ⟨-, h⟩ <;> simp [h]

theorem performMtExtract_bufBytes {s t : State} (h : performMtExtract s = .ok t) :
    t.bufBytes = s.bufBytes := by
  rcases performMtExtract_cases s with ⟨-, hs⟩ | ⟨-, hs⟩ <;> rw [hs] at h <;> cases h
  simp

@[simp] theorem performMtClone_bufBytes (s : State) : (performMtClone s).bufBytes = s.bufBytes := by
  simp only [performMtClone]
  split <;> split <;> simp

/-- Completion, with OK or with an error, keeps the size when `Perform` does. -/
theorem finish_bufBytes {s t : State} {c : ErrCode} {p : State → Except ErrCode State}
    (hp : ∀ u, p s = .ok u → u.bufBytes = s.bufBytes) (h : s.finish c p = .next t) :
    t.bufBytes = s.bufBytes := by
  rcases finish_cases s c p with ⟨-, hf⟩ | ⟨-, u, hu, hf⟩ | ⟨-, e, -, hf⟩ <;> rw [hf] at h <;> cases h
  · exact State.complete_bufBytes ..
  · exact (State.complete_bufBytes ..).trans (hp u hu)
  · exact State.complete_bufBytes ..

theorem performOf_bufBytes {i : Instr} {s t : State} (h : performOf i s = .ok t) : t.bufBytes = s.bufBytes := by
  cases i with
  | strip => exact performStrip_bufBytes h
  | mtExtract => exact performMtExtract_bufBytes h
  | nop | ecbEnc | ecbDec | cbcEnc | cbcDec | ctrXf | pad | mtSeed | mtTemper | mtUntemper | mtClone =>
    cases h
    simp

theorem exec_bufBytes {i : Instr} {s t : State} (h : exec i s = .next t) : t.bufBytes = s.bufBytes := by
  rw [exec_eq_finish] at h
  exact finish_bufBytes (fun _ => performOf_bufBytes) h

/-! ### The turns -/

theorem engineStep_bufBytes {s t : State} (h : s.engineStep = .next t) : t.bufBytes = s.bufBytes := by
  rcases engineStep_cases s with ⟨-, hs⟩ | ⟨-, i, -, hs⟩ | ⟨-, e, -, hs⟩ <;> rw [hs] at h
  · cases h
    rfl
  · exact exec_bufBytes h
  · cases h
    exact State.complete_bufBytes ..

@[simp] theorem hostRead_bufBytes (s : State) (a : Addr) : (s.hostRead a).bufBytes = s.bufBytes := by
  rcases hostRead_cases s a with ⟨-, h⟩ | ⟨_, -, -, -, h⟩ | ⟨_, -, -, h⟩ <;> simp [h]

@[simp] theorem writeCtrl_bufBytes (s : State) (v : Word) : (s.writeCtrl v).bufBytes = s.bufBytes := by
  simp only [State.writeCtrl]
  split <;> simp

@[simp] theorem writeIdle_bufBytes (s : State) (v : Word) (t : BusTarget) :
    (s.writeIdle v t).bufBytes = s.bufBytes := by
  cases t <;> simp [State.writeIdle]

@[simp] theorem hostWrite_bufBytes (s : State) (a : Addr) (v : Word) :
    (s.hostWrite a v).bufBytes = s.bufBytes := by
  rcases hostWrite_cases s a v with h | ⟨-, h⟩ | ⟨-, h⟩ | ⟨_, -, -, -, -, -, h⟩ <;> simp [h]

theorem applyEvent_bufBytes {s t : State} {e : BusEvent} (h : s.applyEvent e = .next t) :
    t.bufBytes = s.bufBytes := by
  cases e with
  | read a => cases h; exact hostRead_bufBytes s a
  | write a v => cases h; exact hostWrite_bufBytes s a v
  | engine => exact engineStep_bufBytes h
  | reset => cases h; exact State.hardReset_bufBytes s

/-- Whatever agent takes the turn, the block keeps its BUF_BYTES (00_scope.md R8). -/
theorem step_bufBytes {s t : State} (h : step s = .next t) : t.bufBytes = s.bufBytes := by
  cases hi : s.inputs with
  | nil =>
    rw [step_nil hi] at h
    exact engineStep_bufBytes h
  | cons e rest =>
    rw [step_cons hi] at h
    exact (applyEvent_bufBytes h).trans (State.setInputs_bufBytes ..)

/-- Settles O57: the sizes are legal by the type of the parameter, each is reached by a reset, and the frame
of the step is `step_bufBytes`. -/
theorem bufferSizes : Obligations.BufferSizes :=
  ⟨State.bufBytes_legal, fun _ => exists_resetWith_bufBytes_eq, State.reset_bufBytes, fun _ _ => step_bufBytes⟩

end Sys2Proof.Machine
end

section
/-!
PROOFS. Bus errors (20_memory.md R49). First the two facts the flag rests on: which accesses the address map
makes illegal, and that an engine turn writes none of the host side's state. Then the law of the flag, from the
host's accesses up to the step.
-/

namespace Sys2Proof.Machine

open Sys2Proof

/-! ### The register window by address -/

theorem registerAt_eq_some_bounds {n : Nat} {t : BusTarget} (h : registerAt n = some t) :
    n % 4 = 0 ∧ n < 0x88 := by
  unfold registerAt at h
  split at h <;> cases h <;> decide

/-- The word-aligned addresses that name no register: the hole (10_state.md R15), and all from 0x088 on. -/
theorem registerAt_eq_none_iff {n : Nat} (hn : n % 4 = 0) :
    registerAt n = none ↔ (0x24 ≤ n ∧ n ≤ 0x2F) ∨ 0x88 ≤ n := by
  have window : ∀ m < 0x88, m % 4 = 0 → (registerAt m = none ↔ 0x24 ≤ m ∧ m ≤ 0x2F) := by decide
  by_cases hlt : n < 0x88
  · rw [window n hlt hn]
    omega
  · have hnone : registerAt n = none :=
      Option.eq_none_iff_forall_ne_some.2 fun t ht => hlt (registerAt_eq_some_bounds ht).2
    simp only [hnone, true_iff]
    omega

theorem registerAt_eq_status_iff (n : Nat) : registerAt n = some .status ↔ n = 0x00C := by
  unfold registerAt
  split <;> simp_all

theorem registerAt_eq_ctrl_iff (n : Nat) : registerAt n = some .ctrl ↔ n = 0x008 := by
  unfold registerAt
  split <;> simp_all

theorem readOnly_registerAt_iff {n : Nat} {t : BusTarget} (h : registerAt n = some t) :
    t.readOnly = true ↔ n ∈ readOnlyAddrs.map BitVec.toNat := by
  unfold registerAt at h
  split at h <;> cases h <;> decide

/-! ### The address map by address -/

/-- Everything the address map can answer. -/
theorem busTarget_cases (size : Nat) (a : Addr) :
    (a.toNat % 4 ≠ 0 ∧ busTarget size a = none) ∨
    (a.toNat % 4 = 0 ∧ 0x1000 ≤ a.toNat ∧ a.toNat < 0x1000 + size ∧
      busTarget size a = some (.buf (a.toNat - 0x1000))) ∨
    (a.toNat % 4 = 0 ∧ (a.toNat < 0x1000 ∨ 0x1000 + size ≤ a.toNat) ∧
      busTarget size a = registerAt a.toNat) := by
  unfold busTarget
  split
  next hmod =>
    split
    next hbuf => exact .inr (.inl ⟨hmod, hbuf.1, hbuf.2, rfl⟩)
    next hreg => exact .inr (.inr ⟨hmod, by omega, rfl⟩)
  next hmod => exact .inl ⟨hmod, rfl⟩

/-- The map has no target exactly at the misaligned (R46) and the unmapped (R40) addresses. -/
theorem busTarget_eq_none_iff (size : Nat) (a : Addr) :
    busTarget size a = none ↔ a.toNat % 4 ≠ 0 ∨ Unmapped size a := by
  unfold Unmapped
  rcases busTarget_cases size a with ⟨hmod, h⟩ | ⟨hmod, hlo, hhi, h⟩ | ⟨hmod, hreg, h⟩
  · simp [h, hmod]
  · simp only [h, reduceCtorEq, false_iff]
    omega
  · rw [h, registerAt_eq_none_iff hmod]
    omega

/-- A register is the target of its address in the window alone. -/
theorem busTarget_eq_register_iff {t : BusTarget} (ht : ∀ o, t ≠ .buf o) (size : Nat) (a : Addr) :
    busTarget size a = some t ↔ registerAt a.toNat = some t := by
  rcases busTarget_cases size a with ⟨hmod, h⟩ | ⟨hmod, hlo, hhi, h⟩ | ⟨hmod, hreg, h⟩
  · simp only [h, reduceCtorEq, false_iff]
    exact fun hr => hmod (registerAt_eq_some_bounds hr).1
  · simp only [h, Option.some.injEq, (ht _).symm, false_iff]
    intro hr
    have hlt := (registerAt_eq_some_bounds hr).2
    omega
  · rw [h]

theorem busTarget_eq_status_iff (size : Nat) (a : Addr) : busTarget size a = some .status ↔ a = 0x00C := by
  rw [busTarget_eq_register_iff (by simp), registerAt_eq_status_iff, ← BitVec.toNat_inj]
  rfl

theorem busTarget_eq_ctrl_iff (size : Nat) (a : Addr) : busTarget size a = some .ctrl ↔ a = 0x008 := by
  rw [busTarget_eq_register_iff (by simp), registerAt_eq_ctrl_iff, ← BitVec.toNat_inj]
  rfl

theorem readOnly_busTarget_iff {size : Nat} {a : Addr} {t : BusTarget} (ht : busTarget size a = some t) :
    t.readOnly = true ↔ a ∈ readOnlyAddrs := by
  rcases busTarget_cases size a with ⟨hmod, h⟩ | ⟨hmod, hlo, hhi, h⟩ | ⟨hmod, hreg, h⟩ <;> rw [h] at ht
  · cases ht
  · cases ht
    have hbelow : ∀ b ∈ readOnlyAddrs, b.toNat < 0x1000 := by simp [readOnlyAddrs]
    refine iff_of_false Bool.false_ne_true fun ha => ?_
    have hlt := hbelow a ha
    omega
  · rw [readOnly_registerAt_iff ht, List.mem_map_of_injective BitVec.toNat_injective]

/-! ### Illegal accesses by target -/

theorem illegalAccess_read_iff (s : State) (a : Addr) :
    IllegalAccess s (.read a) ↔ busTarget s.bufBytes a = none :=
  (busTarget_eq_none_iff s.bufBytes a).symm

/-- A write is illegal exactly when `HostWrite` finds no target, an RO register, or BUSY = 1 at a target other
than STATUS and CTRL. -/
theorem illegalAccess_write_iff (s : State) (a : Addr) (v : Word) :
    IllegalAccess s (.write a v) ↔ ∀ t, busTarget s.bufBytes a = some t →
      t.readOnly = true ∨ (s.busy = true ∧ t ≠ .status ∧ t ≠ .ctrl) := by
  simp only [IllegalAccess]
  rw [← or_assoc, ← busTarget_eq_none_iff, ne_eq a, ← busTarget_eq_status_iff s.bufBytes, ne_eq a,
    ← busTarget_eq_ctrl_iff s.bufBytes]
  cases ht : busTarget s.bufBytes a with
  | none => simp
  | some t => simp [readOnly_busTarget_iff ht]

/-! ### The host's accesses -/

theorem State.reset_buserr : State.reset.buserr = false := rfl

/-- An illegal read returns 0 and sets BUSERR, and does nothing else. -/
theorem hostRead_of_illegal {s : State} {a : Addr} (h : IllegalAccess s (.read a)) :
    s.hostRead a = s.busError.setRdata 0 := by
  rw [illegalAccess_read_iff] at h
  simp [State.hostRead, h]

theorem hostRead_buserr (s : State) (a : Addr) :
    (s.hostRead a).buserr = true ↔ IllegalAccess s (.read a) ∨ s.buserr = true := by
  rw [illegalAccess_read_iff]
  rcases hostRead_cases s a with ⟨ht, h⟩ | ⟨t, ht, -, -, h⟩ | ⟨t, ht, -, h⟩ <;> simp [h, ht]

/-- An illegal write is dropped and sets BUSERR, and does nothing else. -/
theorem hostWrite_of_illegal {s : State} {a : Addr} {v : Word} (h : IllegalAccess s (.write a v)) :
    s.hostWrite a v = s.busError := by
  rw [illegalAccess_write_iff] at h
  unfold State.hostWrite
  cases ht : busTarget s.bufBytes a with
  | none => rfl
  | some t =>
    rcases h t ht with hro | ⟨hbusy, hstatus, hctrl⟩
    · simp [hro]
    · simp [hbusy, hstatus, hctrl]

/-- Everything a legal write can do. -/
theorem hostWrite_of_legal {s : State} {a : Addr} {v : Word} (h : ¬ IllegalAccess s (.write a v)) :
    (a = 0x00C ∧ s.hostWrite a v = s.writeStatus v) ∨
    (a = 0x008 ∧ s.hostWrite a v = s.writeCtrl v) ∨
    (a ≠ 0x00C ∧ a ≠ 0x008 ∧ s.busy = false ∧ ∃ t, busTarget s.bufBytes a = some t ∧ t.readOnly = false ∧
      t ≠ .status ∧ t ≠ .ctrl ∧ s.hostWrite a v = s.writeIdle v t) := by
  by_cases hC : a = 0x00C
  · have ht := (busTarget_eq_status_iff s.bufBytes a).2 hC
    exact .inl ⟨hC, by simp [State.hostWrite, ht, BusTarget.readOnly]⟩
  by_cases h8 : a = 0x008
  · have ht := (busTarget_eq_ctrl_iff s.bufBytes a).2 h8
    exact .inr (.inl ⟨h8, by simp [State.hostWrite, ht, BusTarget.readOnly]⟩)
  simp only [illegalAccess_write_iff, not_forall, not_or, Bool.not_eq_true] at h
  obtain ⟨t, ht, hro, hbusy⟩ := h
  have hstatus : t ≠ .status := fun he => hC ((busTarget_eq_status_iff _ a).1 (he ▸ ht))
  have hctrl : t ≠ .ctrl := fun he => h8 ((busTarget_eq_ctrl_iff _ a).1 (he ▸ ht))
  have hidle : s.busy = false := by simpa [hstatus, hctrl] using hbusy
  exact .inr (.inr ⟨hC, h8, hidle, t, ht, hro, hstatus, hctrl, by
    simp [State.hostWrite, ht, hro, hstatus, hctrl, hidle]⟩)

/-- A write of a writable target other than STATUS and CTRL leaves the flag alone. -/
theorem writeIdle_buserr {t : BusTarget} (hro : t.readOnly = false) (hstatus : t ≠ .status) (hctrl : t ≠ .ctrl)
    (s : State) (v : Word) : (s.writeIdle v t).buserr = s.buserr := by
  cases t with
  | status => exact absurd rfl hstatus
  | ctrl => exact absurd rfl hctrl
  | id | version | rlen | mtOut | mtTout | mtCursor | mtCidx => cases hro
  | cmd | src | dst | len | key | iv | chain | nonce | ctrLo | ctrHi | mtSeed | mtTin | buf => rfl

theorem writeCtrl_buserr (s : State) (v : Word) :
    (s.writeCtrl v).buserr = (s.buserr && !v.getLsbD 1) := by
  unfold State.writeCtrl
  split
  next hsrst =>
    rw [hsrst, Bool.not_true, Bool.and_false]
    exact State.reset_buserr
  next hsrst => rw [State.setIe_buserr, eq_false_of_ne_true hsrst, Bool.not_false, Bool.and_true]

theorem hostWrite_buserr (s : State) (a : Addr) (v : Word) :
    (s.hostWrite a v).buserr = true ↔
      IllegalAccess s (.write a v) ∨ (s.buserr = true ∧ ¬ ClearsBuserr (.write a v)) := by
  by_cases hill : IllegalAccess s (.write a v)
  · simp [hostWrite_of_illegal hill, hill]
  · rcases hostWrite_of_legal hill with ⟨ha, h⟩ | ⟨ha, h⟩ | ⟨hC, h8, -, t, -, hro, hstatus, hctrl, h⟩
    · have hclears : ClearsBuserr (.write a v) ↔ v.getLsbD 2 = true := by simp [ClearsBuserr, ha]
      simp [h, hill, hclears]
    · have hclears : ClearsBuserr (.write a v) ↔ v.getLsbD 1 = true := by simp [ClearsBuserr, ha]
      simp [h, hill, hclears, writeCtrl_buserr]
    · have hclears : ¬ ClearsBuserr (.write a v) := by
        rintro (⟨ha, -⟩ | ⟨ha, -⟩)
        · exact hC ha
        · exact h8 ha
      simp [h, hill, hclears, writeIdle_buserr hro hstatus hctrl]

/-! ### The engine's frame -/

/-- `t` differs from `s` at most in what an engine turn may write: BUSY, DONE, ERR, the registers of
30_encoding.md R65 and the buffer. -/
def EngineFrame (s t : State) : Prop :=
  t = { s with
    busy := t.busy, done := t.done, err := t.err, rlen := t.rlen, chain := t.chain, ctr := t.ctr,
    mtOut := t.mtOut, mtTout := t.mtTout, mt := t.mt, mtCursor := t.mtCursor, mtCidx := t.mtCidx,
    buf := t.buf }

theorem EngineFrame.buserr {s t : State} (h : EngineFrame s t) : t.buserr = s.buserr := by rw [h]

/-- Completion adds nothing to the frame. -/
theorem EngineFrame.complete {s t : State} (h : EngineFrame s t) (c : ErrCode) :
    EngineFrame s (t.complete c) := by
  unfold EngineFrame at *
  rw [h]
  rfl

theorem EngineFrame.refl (s : State) : EngineFrame s s := rfl

theorem performMtExtract_engineFrame {s t : State} (h : performMtExtract s = .ok t) : EngineFrame s t := by
  rcases performMtExtract_cases s with ⟨-, hs⟩ | ⟨-, hs⟩ <;> rw [hs] at h <;> cases h
  rcases twistIfDue_cases s with ⟨-, hd⟩ | ⟨-, hd⟩ <;> simp [hd, EngineFrame, State.ext_iff]

theorem performStrip_engineFrame {s t : State} (h : performStrip s = .ok t) : EngineFrame s t := by
  rcases performStrip_cases s with ⟨-, hs⟩ | ⟨-, hs⟩ <;> rw [hs] at h <;> cases h
  rfl

theorem performMtClone_engineFrame (s : State) : EngineFrame s (performMtClone s) := by
  unfold performMtClone
  split <;> split <;> simp [EngineFrame, State.ext_iff]

theorem performOf_engineFrame {i : Instr} {s t : State} (h : performOf i s = .ok t) : EngineFrame s t := by
  cases i with
  | strip => exact performStrip_engineFrame h
  | mtExtract => exact performMtExtract_engineFrame h
  | mtClone => cases h; exact performMtClone_engineFrame s
  | nop => cases h; exact .refl s
  | pad => cases h; simp [EngineFrame, State.ext_iff, performPad]
  | mtSeed => cases h; simp [EngineFrame, State.ext_iff, performMtSeed]
  | mtTemper | mtUntemper => cases h; simp [EngineFrame, State.ext_iff]
  | ecbEnc | ecbDec => cases h; simp [EngineFrame, State.ext_iff, performEcb]
  | cbcEnc => cases h; simp [EngineFrame, State.ext_iff, performCbcEnc]
  | cbcDec => cases h; simp [EngineFrame, State.ext_iff, performCbcDec]
  | ctrXf => cases h; simp [EngineFrame, State.ext_iff, performCtr]

theorem exec_engineFrame {i : Instr} {s t : State} (h : exec i s = .next t) : EngineFrame s t := by
  rw [exec_eq_finish] at h
  rcases finish_cases s (checkOf i s) (performOf i) with ⟨-, hf⟩ | ⟨-, u, hu, hf⟩ | ⟨-, e, -, hf⟩ <;>
    rw [hf] at h <;> cases h
  · exact (EngineFrame.refl s).complete _
  · exact (performOf_engineFrame hu).complete _
  · exact (EngineFrame.refl s).complete _

/-- An engine turn writes no host-side state: not CTRL.IE, not BUSERR, no operand register. -/
theorem engineStep_engineFrame {s t : State} (h : s.engineStep = .next t) : EngineFrame s t := by
  rcases engineStep_cases s with ⟨-, hs⟩ | ⟨-, i, -, hs⟩ | ⟨-, e, -, hs⟩ <;> rw [hs] at h
  · cases h
    exact .refl s
  · exact exec_engineFrame h
  · cases h
    exact (EngineFrame.refl s).complete _

/-! ### The law of the flag -/

/-- After an event BUSERR stands exactly when the event was an illegal access, or it stood before and the event
does not clear it. -/
theorem applyEvent_buserr {s t : State} {e : BusEvent} (h : s.applyEvent e = .next t) :
    t.buserr = true ↔ IllegalAccess s e ∨ (s.buserr = true ∧ ¬ ClearsBuserr e) := by
  cases e with
  | read a => cases h; simp [hostRead_buserr, ClearsBuserr]
  | write a v => cases h; exact hostWrite_buserr s a v
  | engine => simp [(engineStep_engineFrame h).buserr, IllegalAccess, ClearsBuserr]
  | reset => cases h; simp [IllegalAccess, ClearsBuserr, State.reset_buserr]

/-- Which accesses are illegal does not depend on the schedule. -/
theorem illegalAccess_setInputs (s : State) (l : List BusEvent) (e : BusEvent) :
    IllegalAccess (s.setInputs l) e ↔ IllegalAccess s e := by
  cases e <;> rfl

/-- The law of the flag for a step with an entry of `inputs`. -/
theorem step_cons_buserr {s t : State} {e : BusEvent} {rest : List BusEvent} (hi : s.inputs = e :: rest)
    (h : step s = .next t) :
    t.buserr = true ↔ IllegalAccess s e ∨ (s.buserr = true ∧ ¬ ClearsBuserr e) := by
  rw [step_cons hi] at h
  rw [applyEvent_buserr h, illegalAccess_setInputs, State.setInputs_buserr]

/-- The law of the flag for a step with no entry of `inputs`. -/
theorem step_nil_buserr {s t : State} (hi : s.inputs = []) (h : step s = .next t) : t.buserr = s.buserr := by
  rw [step_nil hi] at h
  exact (engineStep_engineFrame h).buserr

theorem step_raises_buserr_iff {s t : State} (h : step s = .next t) (hs : s.buserr = false) :
    t.buserr = true ↔ ∃ e rest, s.inputs = e :: rest ∧ IllegalAccess s e := by
  cases hi : s.inputs with
  | nil => simp [step_nil_buserr hi h, hs]
  | cons e rest => simp [step_cons_buserr hi h, hs]

theorem clearsBuserr_of_step {s t : State} (h : step s = .next t) (hs : s.buserr = true) (ht : t.buserr = false) :
    ∃ e rest, s.inputs = e :: rest ∧ ClearsBuserr e := by
  cases hi : s.inputs with
  | nil => simp [step_nil_buserr hi h, hs] at ht
  | cons e rest =>
    have hlaw := step_cons_buserr hi h
    simp only [ht, hs, Bool.false_eq_true, true_and, false_iff, not_or, not_not] at hlaw
    exact ⟨e, rest, rfl, hlaw.2⟩

/-- Settles O47: the law of the flag at the two values it can have before the step, and what an illegal access
does. -/
theorem busErrorsExactly : Obligations.BusErrorsExactly :=
  ⟨fun _ _ => step_raises_buserr_iff, fun _ _ => clearsBuserr_of_step,
    fun _ _ => hostRead_of_illegal, fun _ _ _ => hostWrite_of_illegal⟩

end Sys2Proof.Machine
end

section
/-!
PROOFS. Illegal command words (30_encoding.md R61, R66): the decoder's fields as bit arithmetic on the word, when
each kind of row and then the whole decoder answers an error, and what the block does with such a word.
-/

namespace Sys2Proof

/-! ### The fields of a command word (R61 to R63) -/

theorem opcField_eq_mod (w : Word) : opcField w = w.toNat % 256 := by
  simp [opcField, BitVec.extractLsb'_toNat]

theorem bsField_eq_div_mod (w : Word) : bsField w = w.toNat / 2 ^ 16 % 256 := by
  simp [bsField, BitVec.extractLsb'_toNat, Nat.shiftRight_eq_div_pow]

theorem initField_eq_true_iff (w : Word) : initField w = true ↔ w.toNat / 2 ^ 8 % 2 = 1 := by
  simp [initField, BitVec.getLsbD, Nat.testBit_eq_decide_div_mod_eq]

theorem reservedZero_eq_true_iff (w : Word) :
    reservedZero w = true ↔ w.toNat / 2 ^ 9 % 2 ^ 7 = 0 ∧ w.toNat / 2 ^ 24 = 0 := by
  have hw := w.isLt
  simp only [reservedZero, Bool.and_eq_true, beq_iff_eq, ← BitVec.toNat_inj, BitVec.extractLsb'_toNat,
    BitVec.toNat_ofNat, Nat.shiftRight_eq_div_pow]
  omega

/-! ### The rows of the opcode map (R65) -/

theorem decodePlain_eq_error_iff (w : Word) (i : Instr) :
    (∃ e, decodePlain w i = .error e) ↔ initField w = true ∨ bsField w ≠ 0 := by
  unfold decodePlain
  split
  next hinit => simp [hinit]
  next hinit => split <;> simp_all

theorem decodeInit_eq_error_iff (w : Word) (i : Bool → Instr) :
    (∃ e, decodeInit w i = .error e) ↔ bsField w ≠ 0 := by
  unfold decodeInit
  split <;> simp_all

theorem decodeBs_eq_error_iff (w : Word) (i : Nat → Instr) :
    (∃ e, decodeBs w i = .error e) ↔ initField w = true := by
  unfold decodeBs
  split <;> simp_all

/-- The four conditions of R66, on the fields: with the reserved bits 0 and OPC known, what is left of them is the
row's own condition. -/
theorem decode_eq_error_iff (w : Word) :
    (∃ e, decode w = .error e) ↔
      opcField w ∉ [0x00, 0x01, 0x02, 0x03, 0x04, 0x05, 0x06, 0x07, 0x10, 0x11, 0x12, 0x13, 0x14] ∨
      ¬ reservedZero w = true ∨
      (initField w = true ∧ opcField w ∉ [0x03, 0x04, 0x05]) ∨
      (bsField w ≠ 0 ∧ opcField w ≠ 0x06) := by
  unfold decode
  split
  next hres =>
    split <;> simp_all [decodePlain_eq_error_iff, decodeInit_eq_error_iff, decodeBs_eq_error_iff]
  next hres => simp [hres]

/-- The four conditions of R66, as bit arithmetic on the word. -/
theorem decode_eq_error_iff_toNat (w : Word) :
    (∃ e, decode w = .error e) ↔
      (w.toNat % 256 ∉ [0x00, 0x01, 0x02, 0x03, 0x04, 0x05, 0x06, 0x07, 0x10, 0x11, 0x12, 0x13, 0x14] ∨
        (w.toNat / 2 ^ 9 % 2 ^ 7 ≠ 0 ∨ w.toNat / 2 ^ 24 ≠ 0) ∨
        (w.toNat / 2 ^ 8 % 2 = 1 ∧ w.toNat % 256 ∉ [0x03, 0x04, 0x05]) ∨
        (w.toNat / 2 ^ 16 % 256 ≠ 0 ∧ w.toNat % 256 ≠ 0x06)) := by
  rw [decode_eq_error_iff, reservedZero_eq_true_iff, initField_eq_true_iff, opcField_eq_mod, bsField_eq_div_mod,
    not_and_or]

end Sys2Proof

namespace Sys2Proof.Machine

open Sys2Proof

/-! ### Acceptance and completion (R66, 40_command_cycle.md R70, R71) -/

theorem busTarget_cmd (size : Nat) : busTarget size 0x010 = some .cmd :=
  (busTarget_eq_register_iff (by simp) size 0x010).2 rfl

/-- The idle block issues every word written to CMD, whatever it decodes to. -/
theorem hostWrite_cmd_of_idle {s : State} (hidle : s.busy = false) (w : Word) : s.hostWrite 0x010 w = s.issue w := by
  unfold State.hostWrite
  rw [busTarget_cmd]
  simp [BusTarget.readOnly, State.writeIdle, hidle]

theorem engineStep_of_illegal {s : State} {e : Illegal} (hbusy : s.busy = true) (hd : decode s.cmd = .error e) :
    s.engineStep = .next (s.complete .illegalCmd) := by
  rcases engineStep_cases s with ⟨hidle, -⟩ | ⟨-, i, hi, -⟩ | ⟨-, -, -, hs⟩
  · rw [hbusy] at hidle
    cases hidle
  · rw [hd] at hi
    cases hi
  · exact hs

/-- Settles O3: the decoder's error condition, the acceptance of any CMD write by the idle block, and the engine's
turn on an undecodable word. -/
theorem illegalWords : Obligations.IllegalWords :=
  ⟨decode_eq_error_iff_toNat, fun _ w _ hidle _ => hostWrite_cmd_of_idle hidle w,
    fun _ _ => engineStep_of_illegal⟩

end Sys2Proof.Machine
end

section
/-!
PROOFS. The command cycle (40_command_cycle.md R71 to R79): what `Execute` can do, from the shape that every command
has; the codes it can report; the checks of the buffer commands in their order; and the commands that have no check.
-/

namespace Sys2Proof.Machine

open Sys2Proof

/-! ### What a command can do, and the codes it reports -/

/-- Everything `Execute` can do (R72, R78): a check reports its error, or `Perform` succeeds, or `Perform` reports
an error. -/
theorem exec_cases (i : Instr) (s : State) :
    (checkOf i s ≠ .ok ∧ exec i s = .next (completedWith s (checkOf i s))) ∨
    (checkOf i s = .ok ∧ ∃ u, performOf i s = .ok u ∧ exec i s = .next (completedWith u .ok)) ∨
    (checkOf i s = .ok ∧ ∃ e, performOf i s = .error e ∧ exec i s = .next (completedWith s e)) := by
  rw [exec_eq_finish]
  exact finish_cases s (checkOf i s) (performOf i)

theorem exec_of_check {i : Instr} {s : State} {c : ErrCode} (h : checkOf i s = c) (hc : c ≠ .ok) :
    exec i s = .next (completedWith s c) := by
  rw [exec_eq_finish, h]
  exact finish_error s c (performOf i) hc

/-- Only STRIP and MT_EXTRACT can fail in `Perform`, each with a code of its own. -/
theorem performOf_eq_error {i : Instr} {s : State} {e : ErrCode} (h : performOf i s = .error e) :
    (i = .strip ∧ e = .invalidPadding) ∨ (i = .mtExtract ∧ e = .notSeeded) := by
  cases i with
  | strip =>
    rcases performStrip_cases s with ⟨-, hs⟩ | ⟨-, hs⟩ <;> cases hs.symm.trans h
    exact .inl ⟨rfl, rfl⟩
  | mtExtract =>
    rcases performMtExtract_cases s with ⟨-, hs⟩ | ⟨-, hs⟩ <;> cases hs.symm.trans h
    exact .inr ⟨rfl, rfl⟩
  | nop | ecbEnc | ecbDec | cbcEnc | cbcDec | ctrXf | pad | mtSeed | mtTemper | mtUntemper | mtClone => cases h

/-- The code a command reports: that of its checks, or that of a `Perform` that can fail. -/
theorem exec_err_cases {i : Instr} {s t : State} (h : exec i s = .next t) :
    t.err = checkOf i s ∨ (i = .strip ∧ t.err = .invalidPadding) ∨ (i = .mtExtract ∧ t.err = .notSeeded) := by
  rcases exec_cases i s with ⟨-, hs⟩ | ⟨hok, u, -, hs⟩ | ⟨-, e, he, hs⟩ <;> cases hs.symm.trans h
  · exact .inl rfl
  · exact .inl hok.symm
  · exact .inr (performOf_eq_error he)

/-- A code that only checks report is not reported where the command's checks do not report it. -/
theorem err_ne_of_check_ne {i : Instr} {s t : State} {c : ErrCode} (h : exec i s = .next t)
    (hcheck : checkOf i s ≠ c) (hpadding : c ≠ .invalidPadding) (hseeded : c ≠ .notSeeded) : t.err ≠ c := by
  rintro rfl
  rcases exec_err_cases h with hc | ⟨-, hc⟩ | ⟨-, hc⟩
  · exact hcheck hc.symm
  · exact hpadding hc
  · exact hseeded hc

/-! ### Failed commands (R79) -/

theorem exec_of_err_ne_ok {i : Instr} {s t : State} (h : exec i s = .next t) (herr : t.err ≠ .ok) :
    t = completedWith s t.err := by
  rcases exec_cases i s with ⟨-, hs⟩ | ⟨-, u, -, hs⟩ | ⟨-, e, -, hs⟩ <;> cases hs.symm.trans h
  · rfl
  · exact absurd rfl herr
  · rfl

/-- Settles O11: an illegal word completes the state as it is, and so does a command that ends with an error. -/
theorem failedCommandIsPrecise : Obligations.FailedCommandIsPrecise := by
  intro s t hbusy h herr
  rcases engineStep_cases s with ⟨hidle, -⟩ | ⟨-, i, -, hs⟩ | ⟨-, e, -, hs⟩
  · exact absurd (hbusy.symm.trans hidle) Bool.noConfusion
  · exact exec_of_err_ne_ok (hs.symm.trans h) herr
  · cases hs.symm.trans h
    rfl

/-! ### The checks of the buffer commands (R74, R75, R77) -/

/-- The whole-block commands (R74), the CBC commands in one INIT form. -/
def wholeBlockCommands (init : Bool) : List Instr := [.ecbEnc, .ecbDec, .cbcEnc init, .cbcDec init]

/-- The mode commands, in one INIT form: the whole-block commands and CTR_XF. -/
def modeCommands (init : Bool) : List Instr := wholeBlockCommands init ++ [.ctrXf init]

theorem checkOf_wholeBlock {init : Bool} {i : Instr} (hi : i ∈ wholeBlockCommands init) (s : State) :
    checkOf i s = s.blockCheck := by
  simp only [wholeBlockCommands, List.mem_cons, List.not_mem_nil, or_false] at hi
  rcases hi with rfl | rfl | rfl | rfl <;> rfl

theorem blockCheck_of_partial {s : State} (hlen : s.len.toNat % 16 ≠ 0) : s.blockCheck = .invalidLength :=
  if_neg hlen

theorem blockCheck_of_whole {s : State} (hlen : s.len.toNat % 16 = 0) :
    s.blockCheck = s.bufferCheck (some s.lenBytes) :=
  if_pos hlen

/-- Past the length check, every mode command has the buffer checks with OUTLEN = LEN. -/
theorem checkOf_mode {init : Bool} {i : Instr} {s : State} (hi : i ∈ modeCommands init)
    (hlen : s.len.toNat % 16 = 0 ∨ i = .ctrXf init) : checkOf i s = s.bufferCheck (some s.lenBytes) := by
  by_cases hctr : i = .ctrXf init
  · rw [hctr]
    rfl
  · have hwhole : i ∈ wholeBlockCommands init := by simpa [modeCommands, hctr] using hi
    rw [checkOf_wholeBlock hwhole, blockCheck_of_whole (hlen.resolve_right hctr)]

/-- Past the check of BS, PAD has the buffer checks with OUTLEN = LEN + p. -/
theorem checkOf_pad {bs : Nat} (hbs : 0 < bs) (s : State) :
    checkOf (.pad bs) s = s.bufferCheck (some (s.lenBytes + padValue bs s.lenBytes)) :=
  if_neg (Nat.ne_of_gt hbs)

theorem bufferCheck_ne_invalidLength (s : State) (out : Option Nat) : s.bufferCheck out ≠ .invalidLength := by
  rcases bufferCheck_cases s out with ⟨-, h⟩ | ⟨-, -, h⟩ | ⟨-, -, h⟩ <;> simp [h]

theorem padCheck_ne_invalidLength (s : State) (bs : Nat) : s.padCheck bs ≠ .invalidLength := by
  unfold State.padCheck
  split
  next => simp
  next => exact bufferCheck_ne_invalidLength s _

theorem bufferCheck_eq_range_iff (s : State) (out : Option Nat) :
    s.bufferCheck out = .range ↔ ¬ s.rangeOk out = true := by
  rcases bufferCheck_cases s out with ⟨hr, h⟩ | ⟨hr, -, h⟩ | ⟨hr, -, h⟩ <;> simp [hr, h]

/-! ### INVALID_LENGTH (R74) -/

theorem exec_wholeBlock_of_partial {init : Bool} {i : Instr} {s : State} (hi : i ∈ wholeBlockCommands init)
    (hlen : s.len.toNat % 16 ≠ 0) : exec i s = .next (completedWith s .invalidLength) :=
  exec_of_check ((checkOf_wholeBlock hi s).trans (blockCheck_of_partial hlen)) (by decide)

/-- A command past the length check, or without one, does not report INVALID_LENGTH. -/
theorem err_ne_invalidLength {i : Instr} {s t : State} (hcheck : checkOf i s ≠ .invalidLength)
    (h : exec i s = .next t) : t.err ≠ .invalidLength :=
  err_ne_of_check_ne h hcheck (by decide) (by decide)

theorem checkOf_ne_invalidLength_of_whole {init : Bool} {i : Instr} {s : State} (hi : i ∈ wholeBlockCommands init)
    (hlen : s.len.toNat % 16 = 0) : checkOf i s ≠ .invalidLength := by
  rw [checkOf_wholeBlock hi, blockCheck_of_whole hlen]
  exact bufferCheck_ne_invalidLength s _

theorem checkOf_ne_invalidLength_of_unchecked {init : Bool} {bs : Nat} {i : Instr}
    (hi : i ∈ [Instr.ctrXf init, .pad bs, .strip]) (s : State) : checkOf i s ≠ .invalidLength := by
  simp only [List.mem_cons, List.not_mem_nil, or_false] at hi
  rcases hi with rfl | rfl | rfl
  · exact bufferCheck_ne_invalidLength s _
  · exact padCheck_ne_invalidLength s bs
  · exact bufferCheck_ne_invalidLength s _

/-- Settles O15: the length check comes first for the whole-block commands, and no other check of a buffer command
answers INVALID_LENGTH. -/
theorem invalidLength : Obligations.InvalidLength := fun s _ _ =>
  ⟨fun _ hi => ⟨exec_wholeBlock_of_partial hi,
      fun hlen _ => err_ne_invalidLength (checkOf_ne_invalidLength_of_whole hi hlen)⟩,
    fun _ hi _ => err_ne_invalidLength (checkOf_ne_invalidLength_of_unchecked hi s)⟩

/-! ### RANGE (R75) -/

theorem exec_of_range {i : Instr} {s : State} {out : Option Nat} (hcheck : checkOf i s = s.bufferCheck out)
    (hrange : ¬ s.rangeOk out = true) : exec i s = .next (completedWith s .range) :=
  exec_of_check (hcheck.trans ((bufferCheck_eq_range_iff s out).2 hrange)) (by decide)

theorem err_ne_range {i : Instr} {s t : State} {out : Option Nat} (hcheck : checkOf i s = s.bufferCheck out)
    (hrange : s.rangeOk out = true) (h : exec i s = .next t) : t.err ≠ .range := by
  have hne : checkOf i s ≠ .range := by
    rw [hcheck, ne_eq, bufferCheck_eq_range_iff, not_not]
    exact hrange
  exact err_ne_of_check_ne h hne (by decide) (by decide)

theorem exec_mode_of_range {init : Bool} {i : Instr} {s : State} (hi : i ∈ modeCommands init)
    (hlen : s.len.toNat % 16 = 0 ∨ i = .ctrXf init)
    (hrange : ¬ (s.src.toNat + s.len.toNat ≤ s.bufBytes ∧ s.dst.toNat + s.len.toNat ≤ s.bufBytes)) :
    exec i s = .next (completedWith s .range) :=
  exec_of_range (checkOf_mode hi hlen) (mt (rangeOk_some s s.lenBytes).1 hrange)

theorem exec_pad_of_range {bs : Nat} {s : State} (hbs : 0 < bs)
    (hrange : ¬ (s.src.toNat + s.len.toNat ≤ s.bufBytes ∧
      s.dst.toNat + (s.len.toNat + (bs - s.len.toNat % bs)) ≤ s.bufBytes)) :
    exec (.pad bs) s = .next (completedWith s .range) :=
  exec_of_range (checkOf_pad hbs s) (mt (rangeOk_some s _).1 hrange)

theorem exec_strip_of_range {s : State} (hrange : s.bufBytes < s.src.toNat + s.len.toNat) :
    exec .strip s = .next (completedWith s .range) :=
  exec_of_range rfl (mt (rangeOk_none s).1 (Nat.not_le.2 hrange))

/-- Settles O16: `RangeOK` on integers for the three output lengths, LEN, LEN + p and none. -/
theorem rangeError : Obligations.RangeError := fun s _ _ =>
  ⟨fun _ hi hlen => ⟨exec_mode_of_range hi hlen,
      fun hsrc hdst _ => err_ne_range (checkOf_mode hi hlen) ((rangeOk_some s s.lenBytes).2 ⟨hsrc, hdst⟩)⟩,
    fun hbs => ⟨exec_pad_of_range hbs,
      fun hsrc hdst _ => err_ne_range (checkOf_pad hbs s) ((rangeOk_some s _).2 ⟨hsrc, hdst⟩)⟩,
    exec_strip_of_range,
    fun hsrc _ => err_ne_range rfl ((rangeOk_none s).2 hsrc)⟩

/-! ### The commands that take no buffer operand (R77) -/

/-- NOP and the MT commands. -/
def operandlessCommands : List Instr := [.nop, .mtSeed, .mtExtract, .mtTemper, .mtUntemper, .mtClone]

theorem checkOf_operandless {i : Instr} (hi : i ∈ operandlessCommands) (s : State) : checkOf i s = .ok := by
  simp only [operandlessCommands, List.mem_cons, List.not_mem_nil, or_false] at hi
  rcases hi with rfl | rfl | rfl | rfl | rfl | rfl <;> rfl

theorem err_of_operandless {i : Instr} {s t : State} (hi : i ∈ operandlessCommands) (h : exec i s = .next t) :
    t.err = .ok ∨ (t.err = .notSeeded ∧ i = .mtExtract) := by
  rcases exec_err_cases h with hc | ⟨rfl, -⟩ | ⟨hx, hc⟩
  · exact .inl (hc.trans (checkOf_operandless hi s))
  · exact absurd hi (by decide)
  · exact .inr ⟨hc, hx⟩

/-- `s` with the three operand registers of the buffer commands written. -/
def State.setOperands (s : State) (a b c : Word) : State := ((s.setSrc a).setDst b).setLen c

@[simp] theorem State.setOperands_mtCursor (s : State) (a b c : Word) :
    (s.setOperands a b c).mtCursor = s.mtCursor := rfl
@[simp] theorem State.setOperands_mtCidx (s : State) (a b c : Word) :
    (s.setOperands a b c).mtCidx = s.mtCidx := rfl

theorem twistIfDue_setOperands (s : State) (a b c : Word) :
    (s.setOperands a b c).twistIfDue = s.twistIfDue.setOperands a b c := by
  unfold State.twistIfDue
  by_cases hdue : s.mtCursor.val = 624
  · simp only [State.setOperands_mtCursor, hdue, if_true]
    rfl
  · simp only [State.setOperands_mtCursor, hdue, if_false]

theorem performMtExtract_setOperands (s : State) (a b c : Word) :
    performMtExtract (s.setOperands a b c) = (performMtExtract s).map (·.setOperands a b c) := by
  unfold performMtExtract
  rw [twistIfDue_setOperands]
  by_cases hunseeded : 624 < s.mtCursor.val <;>
    simp only [State.setOperands_mtCursor, hunseeded, if_true, if_false] <;> rfl

theorem performMtClone_setOperands (s : State) (a b c : Word) :
    performMtClone (s.setOperands a b c) = (performMtClone s).setOperands a b c := by
  unfold performMtClone
  by_cases hfirst : s.mtCidx.val = 0
  · simp only [State.setOperands_mtCidx, hfirst, if_true]
    rfl
  · by_cases hlast : s.mtCidx.val = 623 <;>
      simp only [State.setOperands_mtCidx, hfirst, hlast, if_true, if_false] <;> rfl

/-- `Perform` of these commands neither reads nor writes SRC, DST and LEN. -/
theorem performOf_setOperands {i : Instr} (hi : i ∈ operandlessCommands) (s : State) (a b c : Word) :
    performOf i (s.setOperands a b c) = (performOf i s).map (·.setOperands a b c) := by
  simp only [operandlessCommands, List.mem_cons, List.not_mem_nil, or_false] at hi
  rcases hi with rfl | rfl | rfl | rfl | rfl | rfl
  case inr.inr.inl => exact performMtExtract_setOperands s a b c
  case inr.inr.inr.inr.inr => exact congrArg Except.ok (performMtClone_setOperands s a b c)
  all_goals rfl

theorem exec_setOperands {i : Instr} {s t : State} (hi : i ∈ operandlessCommands) (h : exec i s = .next t)
    (a b c : Word) : exec i (s.setOperands a b c) = .next (t.setOperands a b c) := by
  rw [exec_eq_finish, checkOf_operandless hi] at h ⊢
  have hperform := performOf_setOperands hi s a b c
  rcases finish_cases s .ok (performOf i) with ⟨hne, -⟩ | ⟨-, u, hp, hs⟩ | ⟨-, e, hp, hs⟩
  · exact absurd rfl hne
  all_goals
    cases hs.symm.trans h
    rw [hp] at hperform
    simp only [State.finish, hperform, Except.map, if_true]
    rfl

/-! ### The order of the checks (R77) -/

/-- A range outside the buffer is reported before any overlap and before any padding. -/
theorem exec_buffer_of_range {init : Bool} {bs : Nat} {i : Instr} {s : State}
    (hi : i ∈ modeCommands init ++ [.pad bs, .strip])
    (hlen : s.len.toNat % 16 = 0 ∨ i ∉ wholeBlockCommands init) (hpad : i ≠ .pad 0)
    (hrange : s.bufBytes < s.src.toNat + s.len.toNat ∨
      (i ∉ [Instr.pad bs, .strip] ∧ s.bufBytes < s.dst.toNat + s.len.toNat) ∨
      (i = .pad bs ∧ s.bufBytes < s.dst.toNat + (s.len.toNat + (bs - s.len.toNat % bs)))) :
    exec i s = .next (completedWith s .range) := by
  simp only [List.mem_append, List.mem_cons, List.not_mem_nil, or_false] at hi
  rcases hi with hmode | rfl | rfl
  · have hnotPad : i ≠ .pad bs := by
      rintro rfl
      simp [modeCommands, wholeBlockCommands] at hmode
    have hctr : s.len.toNat % 16 = 0 ∨ i = .ctrXf init :=
      hlen.imp_right fun hn => by simpa [modeCommands, hn] using hmode
    simp only [hnotPad, false_and, or_false] at hrange
    exact exec_mode_of_range hmode hctr (by omega)
  · have hbs : 0 < bs := Nat.pos_of_ne_zero fun h0 => hpad (by rw [h0])
    simp only [List.mem_cons, true_or, not_true_eq_false, false_and, true_and, false_or] at hrange
    exact exec_pad_of_range hbs (by omega)
  · simp only [List.mem_cons, true_or, or_true, not_true_eq_false, false_and, reduceCtorEq, or_false] at hrange
    exact exec_strip_of_range hrange

/-- Settles O18: one clause per pair of checks, each from the check that comes first, and the commands without
checks. -/
theorem errorOrder : Obligations.ErrorOrder :=
  ⟨fun _ _ => engineStep_of_illegal,
    fun _ => exec_of_check (i := .pad 0) rfl (by decide),
    fun _ _ _ => exec_wholeBlock_of_partial,
    fun _ _ _ _ => exec_buffer_of_range,
    fun _ _ _ hi h => ⟨err_of_operandless hi h, exec_setOperands hi h⟩⟩

end Sys2Proof.Machine
end

section
/-!
PROOFS. The issue of a command (40_command_cycle.md R70, R71): the CMD write of the idle and of the busy block, and
that no other turn raises BUSY.
-/

namespace Sys2Proof.Machine

open Sys2Proof

theorem busTarget_eq_cmd_iff (size : Nat) (a : Addr) : busTarget size a = some .cmd ↔ a = 0x010 := by
  have hreg : registerAt a.toNat = some .cmd ↔ a.toNat = 0x010 := by
    unfold registerAt
    split <;> simp_all
  rw [busTarget_eq_register_iff (by simp), hreg, ← BitVec.toNat_inj]
  rfl

/-- The busy block drops a CMD write with a bus error. -/
theorem hostWrite_cmd_of_busy {s : State} (hbusy : s.busy = true) (v : Word) :
    s.hostWrite 0x010 v = s.busError :=
  hostWrite_of_illegal (.inr (.inr (.inr ⟨hbusy, by decide, by decide⟩)))

theorem exec_busy {i : Instr} {s t : State} (h : exec i s = .next t) : t.busy = false := by
  rcases exec_cases i s with ⟨-, hs⟩ | ⟨-, u, -, hs⟩ | ⟨-, e, -, hs⟩ <;> cases hs.symm.trans h <;> rfl

/-- The engine leaves the block idle: it starts no command by itself (R71). -/
theorem engineStep_busy {s t : State} (h : s.engineStep = .next t) : t.busy = false := by
  rcases engineStep_cases s with ⟨hidle, hs⟩ | ⟨-, i, -, hs⟩ | ⟨-, e, -, hs⟩
  · cases hs.symm.trans h
    exact hidle
  · exact exec_busy (hs.symm.trans h)
  · cases hs.symm.trans h
    rfl

@[simp] theorem hostRead_busy (s : State) (a : Addr) : (s.hostRead a).busy = s.busy := by
  rcases hostRead_cases s a with ⟨-, h⟩ | ⟨_, -, -, -, h⟩ | ⟨_, -, -, h⟩ <;> simp [h]

/-- A CTRL write keeps the idle block idle, with SRST or without. -/
theorem writeCtrl_busy_of_idle {s : State} (hidle : s.busy = false) (v : Word) : (s.writeCtrl v).busy = false := by
  unfold State.writeCtrl
  split
  next => rfl
  next => exact hidle

theorem writeIdle_busy_of_ne_cmd {s : State} (hidle : s.busy = false) (v : Word) {t : BusTarget} (ht : t ≠ .cmd) :
    (s.writeIdle v t).busy = false := by
  cases t with
  | cmd => exact absurd rfl ht
  | ctrl => exact writeCtrl_busy_of_idle hidle v
  | id | version | status | src | dst | len | rlen | key | iv | chain | nonce | ctrLo | ctrHi | mtSeed | mtOut | mtTin
  | mtTout | mtCursor | mtCidx | buf => exact hidle

/-- A host write that raises BUSY is a write of CMD. -/
theorem hostWrite_raises_busy {s : State} {a : Addr} {v : Word} (hidle : s.busy = false)
    (h : (s.hostWrite a v).busy = true) : a = 0x010 := by
  by_contra ha
  have hkeeps : (s.hostWrite a v).busy = false := by
    rcases hostWrite_cases s a v with hw | ⟨-, hw⟩ | ⟨-, hw⟩ | ⟨t, ht, -, -, -, -, hw⟩ <;> rw [hw]
    · exact hidle
    · exact hidle
    · exact writeCtrl_busy_of_idle hidle v
    · exact writeIdle_busy_of_ne_cmd hidle v fun hc => ha ((busTarget_eq_cmd_iff _ a).1 (hc ▸ ht))
  exact absurd (h.symm.trans hkeeps) Bool.noConfusion

/-- An event that raises BUSY is a CMD write, and its word stands in CMD. -/
theorem applyEvent_raises_busy {s t : State} {e : BusEvent} (h : s.applyEvent e = .next t) (hidle : s.busy = false)
    (hbusy : t.busy = true) : ∃ v, e = .write 0x010 v ∧ t.cmd = v := by
  cases e with
  | read a =>
    cases h
    exact absurd (hbusy.symm.trans ((hostRead_busy s a).trans hidle)) Bool.noConfusion
  | write a v =>
    cases h
    obtain rfl := hostWrite_raises_busy hidle hbusy
    exact ⟨v, rfl, by rw [hostWrite_cmd_of_idle hidle, State.issue_cmd]⟩
  | engine => exact absurd (hbusy.symm.trans (engineStep_busy h)) Bool.noConfusion
  | reset =>
    cases h
    exact absurd hbusy Bool.noConfusion

theorem step_raises_busy {s t : State} (h : step s = .next t) (hidle : s.busy = false) (hbusy : t.busy = true) :
    ∃ v rest, s.inputs = .write 0x010 v :: rest ∧ t.cmd = v := by
  cases hi : s.inputs with
  | nil =>
    rw [step_nil hi] at h
    exact absurd (hbusy.symm.trans (engineStep_busy h)) Bool.noConfusion
  | cons e rest =>
    rw [step_cons hi] at h
    obtain ⟨v, rfl, hcmd⟩ := applyEvent_raises_busy h hidle hbusy
    exact ⟨v, rest, rfl, hcmd⟩

/-- Settles O48: the CMD write at both values of BUSY, and the turns of every agent. -/
theorem onlyCmdWriteIssues : Obligations.OnlyCmdWriteIssues :=
  ⟨fun _ v hidle => hostWrite_cmd_of_idle hidle v, fun _ v hbusy => hostWrite_cmd_of_busy hbusy v,
    fun _ _ => step_raises_busy⟩

end Sys2Proof.Machine
end

section
/-!
PROOFS. The whole-block commands ECB and CBC (41_ecb_cbc.md R83 to R88): when such a command completes with OK and in
what state, its output blocks, and the laws of equal blocks and of the round trip.
-/

namespace Sys2Proof.Machine

open Sys2Proof

/-! ### The cipher (00_scope.md R7) -/

theorem dec_enc (k x : Block) : Config.dec k (Config.enc k x) = x := (Config.cipher k).symm_apply_apply x

theorem enc_inj {k x y : Block} : Config.enc k x = Config.enc k y ↔ x = y := (Config.cipher k).injective.eq_iff

/-! ### Blocks and bytes -/

theorem xorBlock_getD (a b : Block) {i : Nat} (h : i < 16) :
    (xorBlock a b).getD i 0 = a.getD i 0 ^^^ b.getD i 0 := by
  simp [getD_eq_getElem _ _ _ h]

/-- Byte `k` from an offset, found in the block that holds it. -/
theorem readByte_eq_readBlock_getD (s : State) (a k : Nat) :
    s.readByte (a + k) = (s.readBlock (a + 16 * (k / 16))).getD (k % 16) 0 := by
  rw [getD_eq_getElem _ _ _ (by omega), readBlock_getElem]
  congr 1
  omega

theorem Apart.mono {src dst m n : Nat} (h : Apart src dst n) (hmn : m ≤ n) : Apart src dst m := by
  unfold Apart at *
  omega

theorem CopyOperandsOk.apart_blocks {s : State} (h : CopyOperandsOk s) :
    Apart s.src.toNat s.dst.toNat (16 * (s.len.toNat / 16)) := by
  obtain ⟨-, -, hapart⟩ := h
  exact hapart.mono (by omega)

/-! ### Completion with OK (40_command_cycle.md R72, R78) -/

/-- A command whose `Perform` cannot fail: its checks alone decide how it completes. -/
theorem exec_of_performOf_ok {i : Instr} {s u : State} (hu : performOf i s = .ok u) :
    exec i s = if checkOf i s = .ok then .next (completedWith u .ok) else .next (completedWith s (checkOf i s)) := by
  rw [exec_eq_finish, State.finish, hu]
  rfl

/-- A whole-block command completes with OK exactly when its operands pass the checks, and then in the state of its
`Perform`. -/
theorem exec_wholeBlock_ok_iff {init : Bool} {i : Instr} {s t u : State} (hi : i ∈ wholeBlockCommands init)
    (hu : performOf i s = .ok u) :
    (exec i s = .next t ∧ t.err = .ok) ↔
      (s.len.toNat % 16 = 0 ∧ CopyOperandsOk s) ∧ completedWith u .ok = t := by
  rw [← blockCheck_eq_ok, ← checkOf_wholeBlock hi, exec_of_performOf_ok hu]
  by_cases hc : checkOf i s = .ok
  · rw [if_pos hc, Host.Outcome.next.injEq, and_iff_right hc]
    exact and_iff_left_of_imp fun h => h ▸ rfl
  · rw [if_neg hc, Host.Outcome.next.injEq]
    refine ⟨fun ⟨h, herr⟩ => absurd herr (h ▸ hc), fun ⟨h, _⟩ => absurd h hc⟩

theorem whole_of_completed {init : Bool} {i : Instr} {s t : State} (hi : i ∈ wholeBlockCommands init)
    (h : exec i s = .next t) (hok : t.err = .ok) : s.len.toNat % 16 = 0 := by
  by_contra hpartial
  cases (exec_wholeBlock_of_partial hi hpartial).symm.trans h
  cases hok

/-! ### The output blocks of a completed command (R83 to R86) -/

theorem performEcb_block (f : Block → Block) {s : State} (h : CopyOperandsOk s) {i : Nat} (hi : i < s.len.toNat / 16) :
    (performEcb f s).readBlock (s.dst.toNat + 16 * i) = f (s.readBlock (s.src.toNat + 16 * i)) := by
  rw [performEcb, readBlock_setRlen]
  exact ecbLoop_block f _ _ _ s h.apart_blocks i hi

theorem performCbcEnc_block (e : Block → Block) (init : Bool) {s : State} (h : CopyOperandsOk s) {i : Nat}
    (hi : i < s.len.toNat / 16) :
    (performCbcEnc e init s).readBlock (s.dst.toNat + 16 * i) =
      e (xorBlock (s.readBlock (s.src.toNat + 16 * i))
        (if i = 0 then (if init then s.iv else s.chain)
          else (performCbcEnc e init s).readBlock (s.dst.toNat + 16 * (i - 1)))) := by
  have hblock := cbcEncLoop_block e _ _ _ (s.initChain init) h.apart_blocks i hi
  rw [readBlock_initChain, State.initChain_chain] at hblock
  rw [performCbcEnc, readBlock_setRlen, readBlock_setRlen]
  exact hblock

theorem performCbcDec_block (d : Block → Block) (init : Bool) {s : State} (h : CopyOperandsOk s) {i : Nat}
    (hi : i < s.len.toNat / 16) :
    (performCbcDec d init s).readBlock (s.dst.toNat + 16 * i) =
      xorBlock (d (s.readBlock (s.src.toNat + 16 * i)))
        (if i = 0 then (if init then s.iv else s.chain) else s.readBlock (s.src.toNat + 16 * (i - 1))) := by
  have hblock := cbcDecLoop_block d _ _ _ (s.initChain init) h.apart_blocks i hi
  rw [readBlock_initChain, readBlock_initChain, State.initChain_chain] at hblock
  rw [performCbcDec, readBlock_setRlen]
  exact hblock

section
variable {s t : State} {init : Bool} {i : Nat}

theorem ecbEnc_block (h : exec .ecbEnc s = .next t) (hok : t.err = .ok) (hi : i < s.len.toNat / 16) :
    t.readBlock (s.dst.toNat + 16 * i) = Config.enc s.key (s.readBlock (s.src.toNat + 16 * i)) := by
  obtain ⟨⟨-, hops⟩, rfl⟩ := (exec_wholeBlock_ok_iff (init := true) (by simp [wholeBlockCommands]) rfl).1 ⟨h, hok⟩
  exact performEcb_block _ hops hi

theorem ecbDec_block (h : exec .ecbDec s = .next t) (hok : t.err = .ok) (hi : i < s.len.toNat / 16) :
    t.readBlock (s.dst.toNat + 16 * i) = Config.dec s.key (s.readBlock (s.src.toNat + 16 * i)) := by
  obtain ⟨⟨-, hops⟩, rfl⟩ := (exec_wholeBlock_ok_iff (init := true) (by simp [wholeBlockCommands]) rfl).1 ⟨h, hok⟩
  exact performEcb_block _ hops hi

theorem cbcEnc_block (h : exec (.cbcEnc init) s = .next t) (hok : t.err = .ok) (hi : i < s.len.toNat / 16) :
    t.readBlock (s.dst.toNat + 16 * i) =
      Config.enc s.key (xorBlock (s.readBlock (s.src.toNat + 16 * i))
        (if i = 0 then (if init then s.iv else s.chain) else t.readBlock (s.dst.toNat + 16 * (i - 1)))) := by
  obtain ⟨⟨-, hops⟩, rfl⟩ := (exec_wholeBlock_ok_iff (init := init) (by simp [wholeBlockCommands]) rfl).1 ⟨h, hok⟩
  exact performCbcEnc_block _ init hops hi

theorem cbcDec_block (h : exec (.cbcDec init) s = .next t) (hok : t.err = .ok) (hi : i < s.len.toNat / 16) :
    t.readBlock (s.dst.toNat + 16 * i) =
      xorBlock (Config.dec s.key (s.readBlock (s.src.toNat + 16 * i)))
        (if i = 0 then (if init then s.iv else s.chain) else s.readBlock (s.src.toNat + 16 * (i - 1))) := by
  obtain ⟨⟨-, hops⟩, rfl⟩ := (exec_wholeBlock_ok_iff (init := init) (by simp [wholeBlockCommands]) rfl).1 ⟨h, hok⟩
  exact performCbcDec_block _ init hops hi

end

/-! ### Equal blocks and round trips (R87, R88) -/

/-- Settles O25: each output block is Enc of its input block, and Enc is injective under one key. -/
theorem ecbEqualBlocks : Obligations.EcbEqualBlocks := by
  intro s t i j h hok hi hj
  rw [ecbEnc_block h hok hi, ecbEnc_block h hok hj, enc_inj]

theorem EngineFrame.key {s t : State} (h : EngineFrame s t) : t.key = s.key := by rw [h]

theorem EngineFrame.iv {s t : State} (h : EngineFrame s t) : t.iv = s.iv := by rw [h]

theorem EngineFrame.len {s t : State} (h : EngineFrame s t) : t.len = s.len := by rw [h]

section
variable {s t v : State} {d : Word} {i : Nat}

theorem ecb_roundTrip_block (ht : exec .ecbEnc s = .next t) (htok : t.err = .ok)
    (hv : exec .ecbDec ((t.setSrc s.dst).setDst d) = .next v) (hvok : v.err = .ok)
    (hi : i < s.len.toNat / 16) :
    v.readBlock (d.toNat + 16 * i) = s.readBlock (s.src.toNat + 16 * i) := by
  have frame := exec_engineFrame ht
  have hdec := ecbDec_block (i := i) hv hvok (by simpa [frame.len] using hi)
  calc v.readBlock (d.toNat + 16 * i)
    _ = Config.dec t.key (t.readBlock (s.dst.toNat + 16 * i)) := by simpa using hdec
    _ = s.readBlock (s.src.toNat + 16 * i) := by rw [ecbEnc_block ht htok hi, frame.key, dec_enc]

/-- The second command XORs with the same starting value and the same previous ciphertext blocks as the first. -/
theorem cbc_roundTrip_block (ht : exec (.cbcEnc true) s = .next t) (htok : t.err = .ok)
    (hv : exec (.cbcDec true) ((t.setSrc s.dst).setDst d) = .next v) (hvok : v.err = .ok)
    (hi : i < s.len.toNat / 16) :
    v.readBlock (d.toNat + 16 * i) = s.readBlock (s.src.toNat + 16 * i) := by
  have frame := exec_engineFrame ht
  have hdec := cbcDec_block (i := i) hv hvok (by simpa [frame.len] using hi)
  calc v.readBlock (d.toNat + 16 * i)
    _ = xorBlock (Config.dec t.key (t.readBlock (s.dst.toNat + 16 * i)))
          (if i = 0 then t.iv else t.readBlock (s.dst.toNat + 16 * (i - 1))) := by
        simpa using hdec
    _ = s.readBlock (s.src.toNat + 16 * i) := by
        rw [cbcEnc_block ht htok hi, frame.key, frame.iv, dec_enc]
        exact xorBlock_xorBlock _ _

end

/-- Settles O26: block by block, Dec undoes Enc and the second XOR undoes the first. -/
theorem ecbCbcRoundTrip : Obligations.EcbCbcRoundTrip := by
  intro s t v d htok hvok h k hk
  have hwhole : s.len.toNat % 16 = 0 := by
    rcases h with ⟨ht, -⟩ | ⟨ht, -⟩
    · exact whole_of_completed (init := true) (by simp [wholeBlockCommands]) ht htok
    · exact whole_of_completed (init := true) (by simp [wholeBlockCommands]) ht htok
  have hblock : v.readBlock (d.toNat + 16 * (k / 16)) = s.readBlock (s.src.toNat + 16 * (k / 16)) := by
    rcases h with ⟨ht, hv⟩ | ⟨ht, hv⟩
    · exact ecb_roundTrip_block ht htok hv hvok (by omega)
    · exact cbc_roundTrip_block ht htok hv hvok (by omega)
  rw [readByte_eq_readBlock_getD v, hblock, ← readByte_eq_readBlock_getD]

end Sys2Proof.Machine
end

section
/-!
PROOFS. A CBC message split in two commands (41_ecb_cbc.md R89). Both CBC commands run the same loop, each over a body
of its own, so the law is argued once for the two: the loop over `m + n` blocks is two loops, and a loop depends only
on the buffer and CHAIN, which the first command hands to the second.
-/

namespace Sys2Proof.Machine

open Sys2Proof

/-! ### The two CBC commands as one loop -/

/-- CBC_ENC or CBC_DEC, by the direction. -/
def cbcCommand (encrypt : Bool) : Bool → Instr := if encrypt then .cbcEnc else .cbcDec

/-- The loop body of the CBC command of a direction, with the configured cipher (R85, R86). -/
def cbcBody (encrypt : Bool) (key : Block) (src dst i : Nat) : State → State :=
  if encrypt then cbcEncStep (Config.enc key) src dst i else cbcDecStep (Config.dec key) src dst i

/-- The loop of the CBC command of a direction over the blocks 0 to n-1. -/
def cbcLoop (encrypt : Bool) (key : Block) (src dst n : Nat) (s : State) : State :=
  n.fold (fun i _ => cbcBody encrypt key src dst i) s

theorem cbcCommand_mem_wholeBlock (encrypt init : Bool) : cbcCommand encrypt init ∈ wholeBlockCommands init := by
  cases encrypt <;> simp [cbcCommand, wholeBlockCommands]

theorem cbcEncLoop_eq_cbcLoop (key : Block) (src dst n : Nat) (s : State) :
    cbcEncLoop (Config.enc key) src dst n s = cbcLoop true key src dst n s := by
  induction n with
  | zero => rfl
  | succ n ih => rw [cbcEncLoop, ih, cbcLoop, cbcLoop, Nat.fold_succ]; rfl

theorem cbcDecLoop_eq_cbcLoop (key : Block) (src dst n : Nat) (s : State) :
    cbcDecLoop (Config.dec key) src dst n s = cbcLoop false key src dst n s := by
  induction n with
  | zero => rfl
  | succ n ih => rw [cbcDecLoop, ih, cbcLoop, cbcLoop, Nat.fold_succ]; rfl

/-- `Perform` of the CBC command of a direction (R85, R86). -/
def performCbc (encrypt init : Bool) (s : State) : State :=
  (cbcLoop encrypt s.key s.src.toNat s.dst.toNat (s.len.toNat / 16) (s.initChain init)).setRlen s.len

theorem performOf_cbcCommand (encrypt init : Bool) (s : State) :
    performOf (cbcCommand encrypt init) s = .ok (performCbc encrypt init s) := by
  rw [performCbc]
  cases encrypt with
  | true => rw [← cbcEncLoop_eq_cbcLoop]; rfl
  | false => rw [← cbcDecLoop_eq_cbcLoop]; rfl

theorem cbcBody_advance (encrypt : Bool) (key : Block) (src dst a i : Nat) :
    cbcBody encrypt key src dst (a + i) = cbcBody encrypt key (src + 16 * a) (dst + 16 * a) i := by
  funext s
  cases encrypt <;> simp [cbcBody, cbcEncStep, cbcDecStep, Nat.mul_add, Nat.add_assoc]

/-- The loop over `m + n` blocks is the loop over the first `m`, then the loop over the next `n`. -/
theorem cbcLoop_add (encrypt : Bool) (key : Block) (src dst m n : Nat) (s : State) :
    cbcLoop encrypt key src dst (m + n) s =
      cbcLoop encrypt key (src + 16 * m) (dst + 16 * m) n (cbcLoop encrypt key src dst m s) := by
  simp only [cbcLoop, Nat.fold_add, cbcBody_advance]

/-- The state that a CBC loop reads and writes: the buffer's bytes and CHAIN. -/
structure SameData (s t : State) : Prop where
  buf : s.buf = t.buf
  powerOns : s.powerOns = t.powerOns
  chain : s.chain = t.chain

theorem SameData.trans {s t u : State} (h : SameData s t) (h' : SameData t u) : SameData s u :=
  ⟨h.buf.trans h'.buf, h.powerOns.trans h'.powerOns, h.chain.trans h'.chain⟩

theorem cbcBody_sameData (encrypt : Bool) (key : Block) (src dst i : Nat) {s t : State} (h : SameData s t) :
    SameData (cbcBody encrypt key src dst i s) (cbcBody encrypt key src dst i t) := by
  obtain ⟨hbuf, hpow, hchain⟩ := h
  have hread : ∀ a, s.readBlock a = t.readBlock a := readBlock_congr hbuf hpow
  cases encrypt <;> constructor <;> simp [cbcBody, cbcEncStep, cbcDecStep, hread, hbuf, hpow, hchain]

theorem cbcLoop_sameData (encrypt : Bool) (key : Block) (src dst n : Nat) {s t : State} (h : SameData s t) :
    SameData (cbcLoop encrypt key src dst n s) (cbcLoop encrypt key src dst n t) := by
  induction n with
  | zero => exact h
  | succ n ih =>
    simp only [cbcLoop, Nat.fold_succ]
    exact cbcBody_sameData encrypt key src dst n ih

/-! ### The two parts of a message -/

theorem toNat_ofNat_word {n : Nat} (h : n < 2 ^ 32) : (BitVec.ofNat 32 n).toNat = n := by
  rw [BitVec.toNat_ofNat, Nat.mod_eq_of_lt h]

/-- The operands of `u` are the `n` blocks from block `a` on of the message that the operands of `s` name, under the
same key. -/
structure PartOf (s u : State) (a n : Nat) : Prop where
  bufBytes : u.bufBytes = s.bufBytes
  key : u.key = s.key
  src : u.src.toNat = s.src.toNat + 16 * a
  dst : u.dst.toNat = s.dst.toNat + 16 * a
  len : u.len.toNat = 16 * n

section
variable {s u : State} {a n : Nat}

theorem PartOf.operandsOk (p : PartOf s u a n) (h : CopyOperandsOk s) (hn : 16 * (a + n) ≤ s.len.toNat) :
    CopyOperandsOk u := by
  obtain ⟨hsize, -, hsrc, hdst, hlen⟩ := p
  unfold CopyOperandsOk Apart at *
  omega

/-- The registers of a part as the host writes them: no advanced offset wraps, since the whole message lies inside the
buffer. -/
theorem partOf_setOperands {v : State} (h : CopyOperandsOk s) (hn : 16 * (a + n) ≤ s.len.toNat)
    (hsize : v.bufBytes = s.bufBytes) (hkey : v.key = s.key) :
    PartOf s (v.setOperands (BitVec.ofNat 32 (s.src.toNat + 16 * a)) (BitVec.ofNat 32 (s.dst.toNat + 16 * a))
      (BitVec.ofNat 32 (16 * n))) a n := by
  obtain ⟨hsrc, hdst, -⟩ := h
  obtain ⟨-, -, hmax⟩ := s.bufBytes_legal
  exact ⟨hsize, hkey, toNat_ofNat_word (by omega), toNat_ofNat_word (by omega),
    toNat_ofNat_word (by omega)⟩

theorem performCbc_sameData_cbcLoop (encrypt init : Bool) (p : PartOf s u a n) {v : State}
    (hv : SameData (u.initChain init) v) :
    SameData (performCbc encrypt init u)
      (cbcLoop encrypt s.key (s.src.toNat + 16 * a) (s.dst.toNat + 16 * a) n v) := by
  have hblocks : u.len.toNat / 16 = n := by rw [p.len]; omega
  rw [performCbc, p.key, p.src, p.dst, hblocks]
  obtain ⟨hbuf, hpow, hchain⟩ := cbcLoop_sameData encrypt s.key (s.src.toNat + 16 * a) (s.dst.toNat + 16 * a) n hv
  exact ⟨hbuf, hpow, hchain⟩

theorem cbcCommand_ok_iff {encrypt init : Bool} {t : State} :
    (exec (cbcCommand encrypt init) s = .next t ∧ t.err = .ok) ↔
      (s.len.toNat % 16 = 0 ∧ CopyOperandsOk s) ∧ completedWith (performCbc encrypt init s) .ok = t :=
  exec_wholeBlock_ok_iff (cbcCommand_mem_wholeBlock encrypt init) (performOf_cbcCommand encrypt init s)

/-- A part of a message whose operands pass the checks passes them too. -/
theorem cbcCommand_part_completes (encrypt init : Bool) (h : CopyOperandsOk s) (p : PartOf s u a n)
    (hn : 16 * (a + n) ≤ s.len.toNat) :
    ∃ t, exec (cbcCommand encrypt init) u = .next t ∧ t.err = .ok ∧ SameData t (performCbc encrypt init u) := by
  have hwhole : u.len.toNat % 16 = 0 := by rw [p.len]; omega
  obtain ⟨hexec, hok⟩ := (cbcCommand_ok_iff (encrypt := encrypt) (init := init)).2 ⟨⟨hwhole, p.operandsOk h hn⟩, rfl⟩
  exact ⟨_, hexec, hok, rfl, rfl, rfl⟩

end

/-- The first part leaves CHAIN as the second one needs it, so the two loops compose to the loop of the whole. -/
theorem performCbc_two_parts (encrypt : Bool) {s s1 s2 : State} {n1 n2 : Nat} (hlen : s.len.toNat = 16 * (n1 + n2))
    (p1 : PartOf s s1 0 n1) (p2 : PartOf s s2 n1 n2) (h1 : SameData (s1.initChain true) (s.initChain true))
    (h2 : SameData s2 (performCbc encrypt true s1)) :
    SameData (performCbc encrypt false s2) (performCbc encrypt true s) := by
  have hfirst := performCbc_sameData_cbcLoop encrypt true p1 h1
  have hsecond := performCbc_sameData_cbcLoop encrypt false p2 (h2.trans hfirst)
  have hblocks : s.len.toNat / 16 = n1 + n2 := by omega
  rw [Nat.mul_zero, Nat.add_zero, Nat.add_zero, ← cbcLoop_add, ← hblocks] at hsecond
  exact ⟨hsecond.buf, hsecond.powerOns, hsecond.chain⟩

theorem cbcCommand_split (encrypt : Bool) {s t : State} {n1 n2 : Nat} (hlen : s.len.toNat = 16 * (n1 + n2))
    (h : exec (cbcCommand encrypt true) s = .next t) (hok : t.err = .ok) :
    ∃ t1 t2, exec (cbcCommand encrypt true) (s.setLen (BitVec.ofNat 32 (16 * n1))) = .next t1 ∧ t1.err = .ok ∧
      exec (cbcCommand encrypt false) (t1.setOperands (BitVec.ofNat 32 (s.src.toNat + 16 * n1))
        (BitVec.ofNat 32 (s.dst.toNat + 16 * n1)) (BitVec.ofNat 32 (16 * n2))) = .next t2 ∧ t2.err = .ok ∧
      SameData t2 t := by
  obtain ⟨⟨-, hops⟩, rfl⟩ := cbcCommand_ok_iff.1 ⟨h, hok⟩
  have p1 : PartOf s (s.setLen (BitVec.ofNat 32 (16 * n1))) 0 n1 :=
    ⟨rfl, rfl, rfl, rfl, toNat_ofNat_word (by omega)⟩
  obtain ⟨t1, ht1, hok1, hdata1⟩ := cbcCommand_part_completes encrypt true hops p1 (by omega)
  have p2 := partOf_setOperands (a := n1) (n := n2) hops (by omega) ((exec_bufBytes ht1).trans p1.bufBytes)
    ((exec_engineFrame ht1).key.trans p1.key)
  obtain ⟨t2, ht2, hok2, hdata2⟩ := cbcCommand_part_completes encrypt false hops p2 (by omega)
  have hwhole := performCbc_two_parts encrypt hlen p1 p2 ⟨rfl, rfl, rfl⟩
    ⟨hdata1.buf, hdata1.powerOns, hdata1.chain⟩
  have ht := hdata2.trans hwhole
  exact ⟨t1, t2, ht1, hok1, ht2, hok2, ht.buf, ht.powerOns, ht.chain⟩

/-- Settles O27: the loop over the blocks of the message is the loops of its two parts, one after the other. -/
theorem cbcChainsAcrossCommands : Obligations.CbcChainsAcrossCommands := by
  intro c hc s t n1 n2 hlen h hok
  have hdir : ∃ encrypt, c = cbcCommand encrypt := hc.elim (fun h => ⟨true, h⟩) (fun h => ⟨false, h⟩)
  obtain ⟨encrypt, rfl⟩ := hdir
  obtain ⟨t1, t2, ht1, hok1, ht2, hok2, hbuf, hpow, hchain⟩ := cbcCommand_split encrypt hlen h hok
  exact ⟨t1, t2, ht1, hok1, ht2, hok2, readByte_congr hbuf hpow, hchain⟩

end Sys2Proof.Machine
end

section
/-!
PROOFS. Changed ciphertext and changed IV under CBC_DEC with INIT = 1 (41_ecb_cbc.md R90): an output byte is a byte of
Dec XOR one byte of the ciphertext or of IV, so a change reaches it through Dec of its own block or through that byte.
-/

namespace Sys2Proof.Machine

open Sys2Proof

/-! ### Output bytes -/

/-- The byte that CBC_DEC with INIT = 1 XORs into its output byte `n`: the ciphertext byte one block before it, or the
byte of IV. -/
def chainByte (s : State) (n : Nat) : Byte :=
  if n < 16 then s.iv.getD n 0 else s.readByte (s.src.toNat + (n - 16))

theorem chainByte_of_lt {n : Nat} (h : n < 16) (s : State) : chainByte s n = s.iv.getD n 0 := if_pos h

theorem chainByte_of_le {n : Nat} (h : 16 ≤ n) (s : State) : chainByte s n = s.readByte (s.src.toNat + (n - 16)) :=
  if_neg (Nat.not_lt.2 h)

/-- Byte `n` of what CBC_DEC gives: byte `n mod 16` of Dec of its ciphertext block, XOR its chain byte. -/
theorem cbcDec_readByte {s t : State} (h : exec (.cbcDec true) s = .next t) (hok : t.err = .ok) {n : Nat}
    (hn : n / 16 < s.len.toNat / 16) :
    t.readByte (s.dst.toNat + n) =
      (Config.dec s.key (s.readBlock (s.src.toNat + 16 * (n / 16)))).getD (n % 16) 0 ^^^ chainByte s n := by
  rw [readByte_eq_readBlock_getD, cbcDec_block h hok hn, xorBlock_getD _ _ (by omega)]
  congr 1
  by_cases hfirst : n < 16
  · rw [if_pos (by omega), chainByte_of_lt hfirst, Nat.mod_eq_of_lt hfirst, if_pos rfl]
  · have hdiv : (n - 16) / 16 = n / 16 - 1 := by omega
    have hmod : (n - 16) % 16 = n % 16 := by omega
    rw [if_neg (by omega), chainByte_of_le (by omega), readByte_eq_readBlock_getD s _ (n - 16), hdiv, hmod]

/-! ### The change and what it reaches -/

/-- Two states give a cipher command the same key and the same operands. -/
structure SameOperands (s s' : State) : Prop where
  key : s'.key = s.key
  src : s'.src = s.src
  dst : s'.dst = s.dst
  len : s'.len = s.len

/-- `s'` reads as `s` with the byte at offset `c` changed by `d`. -/
def ByteChanged (s s' : State) (c : Nat) (d : Byte) : Prop :=
  ∀ o, s'.readByte o = if o = c then s.readByte o ^^^ d else s.readByte o

theorem ByteChanged.readBlock {s s' : State} {c a : Nat} {d : Byte} (h : ByteChanged s s' c d)
    (hc : c < a ∨ a + 16 ≤ c) : s'.readBlock a = s.readBlock a := by
  apply readBlock_ext
  intro m hm
  rw [h, if_neg (by omega)]

section
variable {s s' t t' : State} {i k n : Nat} {d : Byte}

/-- Where Dec sees the same ciphertext block, a change of the chain byte is the change of the output byte. -/
theorem cbcDec_readByte_of_sameBlock {changed : Prop} [Decidable changed] (hsame : SameOperands s s')
    (h : exec (.cbcDec true) s = .next t) (hok : t.err = .ok)
    (h' : exec (.cbcDec true) s' = .next t') (hok' : t'.err = .ok) (hn : n / 16 < s.len.toNat / 16)
    (hblock : s'.readBlock (s.src.toNat + 16 * (n / 16)) = s.readBlock (s.src.toNat + 16 * (n / 16)))
    (hchain : chainByte s' n = if changed then chainByte s n ^^^ d else chainByte s n) :
    t'.readByte (s.dst.toNat + n) =
      if changed then t.readByte (s.dst.toNat + n) ^^^ d else t.readByte (s.dst.toNat + n) := by
  have hbyte' := cbcDec_readByte h' hok' (hsame.len.symm ▸ hn)
  rw [hsame.key, hsame.src, hsame.dst, hblock, hchain] at hbyte'
  rw [hbyte', cbcDec_readByte h hok hn]
  split
  · rw [BitVec.xor_assoc]
  · rfl

theorem chainByte_of_byteChanged (hsrc : s'.src = s.src) (hiv : s'.iv = s.iv)
    (hchg : ByteChanged s s' (s.src.toNat + 16 * i + k) d) :
    chainByte s' n = if n = 16 * (i + 1) + k then chainByte s n ^^^ d else chainByte s n := by
  by_cases hfirst : n < 16
  · rw [chainByte_of_lt hfirst, chainByte_of_lt hfirst, hiv, if_neg (by omega)]
  · have hpos : s.src.toNat + (n - 16) = s.src.toNat + 16 * i + k ↔ n = 16 * (i + 1) + k := by omega
    rw [chainByte_of_le (by omega), chainByte_of_le (by omega), hsrc, hchg]
    simp only [hpos]

theorem chainByte_of_ivChanged (hk : k < 16) (hsrc : s'.src = s.src) (hread : ∀ o, s'.readByte o = s.readByte o)
    (hiv : ∀ m, m < 16 → s'.iv.getD m 0 = if m = k then s.iv.getD m 0 ^^^ d else s.iv.getD m 0) :
    chainByte s' n = if n = k then chainByte s n ^^^ d else chainByte s n := by
  by_cases hfirst : n < 16
  · rw [chainByte_of_lt hfirst, chainByte_of_lt hfirst, hiv n hfirst]
  · rw [chainByte_of_le (by omega), chainByte_of_le (by omega), hsrc, hread, if_neg (by omega)]

/-- The changed block's output: the block before it still holds the ciphertext of `s`. -/
theorem cbcDec_block_of_byteChanged (hsame : SameOperands s s') (hiv : s'.iv = s.iv)
    (hchg : ByteChanged s s' (s.src.toNat + 16 * i + k) d)
    (h' : exec (.cbcDec true) s' = .next t') (hok' : t'.err = .ok) (hi : i < s.len.toNat / 16) :
    t'.readBlock (s.dst.toNat + 16 * i) =
      xorBlock (Config.dec s.key (s'.readBlock (s.src.toNat + 16 * i)))
        (if i = 0 then s.iv else s.readBlock (s.src.toNat + 16 * (i - 1))) := by
  have hblock := cbcDec_block h' hok' (hsame.len.symm ▸ hi)
  rw [hsame.key, hsame.src, hsame.dst, hiv, if_pos rfl] at hblock
  rw [hblock]
  by_cases hfirst : i = 0
  · rw [if_pos hfirst, if_pos hfirst]
  · rw [if_neg hfirst, if_neg hfirst, hchg.readBlock (a := s.src.toNat + 16 * (i - 1)) (by omega)]

end

/-- Settles O28: Dec sees a changed block only in the block itself, and elsewhere the output follows the byte it is
XORed with. -/
theorem cbcMalleability : Obligations.CbcMalleability := by
  constructor
  · intro s s' t t' i k d hi hk hs' hchg h hok h' hok'
    have hsame : SameOperands s s' := by constructor <;> rw [hs']
    have hiv : s'.iv = s.iv := by rw [hs']
    refine ⟨cbcDec_block_of_byteChanged hsame hiv hchg h' hok' hi, fun j m hj hm hji => ?_⟩
    have hpos : 16 * j + m = 16 * (i + 1) + k ↔ j = i + 1 ∧ m = k := by omega
    have hbyte := cbcDec_readByte_of_sameBlock (n := 16 * j + m) hsame h hok h' hok' (by omega)
      (ByteChanged.readBlock hchg (by omega)) (chainByte_of_byteChanged hsame.src hiv hchg)
    simpa only [hpos, ← Nat.add_assoc] using hbyte
  · intro s t t' iv k d hk hiv h hok h' hok' n hn
    have hwhole : s.len.toNat % 16 = 0 :=
      whole_of_completed (cbcCommand_mem_wholeBlock false true) h hok
    have hsame : SameOperands s (s.setIv iv) := ⟨rfl, rfl, rfl, rfl⟩
    exact cbcDec_readByte_of_sameBlock hsame h hok h' hok' (by omega) (readBlock_setIv ..)
      (chainByte_of_ivChanged hk hsame.src (readByte_setIv s iv) hiv)

end Sys2Proof.Machine
end

section
/-!
PROOFS. CTR_XF (42_ctr.md R91 to R96). Output byte `k` is input byte `k` XOR byte `k` of the keystream that starts at
the starting counter, and the keystream from counter `c + q` is the keystream from `c` with its first `q` blocks left
out: the laws of this mode are these two facts.
-/

namespace Sys2Proof.Machine

open Sys2Proof

/-! ### The bytes of the keystream (R91) -/

/-- Byte `k` of the keystream that starts with keystream block `c`. -/
def keystreamByte (key : Block) (nonce : Nonce) (c : BitVec 64) (k : Nat) : Byte :=
  (keystream (Config.enc key) nonce (c + BitVec.ofNat 64 (k / 16))).getD (k % 16) 0

theorem keystreamByte_ofNat (key : Block) (nonce : Nonce) (n k : Nat) :
    keystreamByte key nonce (BitVec.ofNat 64 n) k =
      (Config.enc key (keystreamInput nonce (n + k / 16))).getD (k % 16) 0 := by
  rw [keystreamByte, keystream, ← BitVec.ofNat_add, counterBlock_eq_keystreamInput]

theorem keystreamByte_add_blocks (key : Block) (nonce : Nonce) (c : BitVec 64) (q k : Nat) :
    keystreamByte key nonce (c + BitVec.ofNat 64 q) k = keystreamByte key nonce c (16 * q + k) := by
  have hdiv : (16 * q + k) / 16 = q + k / 16 := by omega
  have hmod : (16 * q + k) % 16 = k % 16 := by omega
  rw [keystreamByte, keystreamByte, hdiv, hmod, BitVec.ofNat_add, BitVec.add_assoc]

/-! ### The state after a completed CTR_XF (R92) -/

theorem EngineFrame.nonce {s t : State} (h : EngineFrame s t) : t.nonce = s.nonce := by rw [h]

section
variable {s t : State} {init : Bool}

/-- CTR_XF completes with OK exactly when its operands pass the buffer checks, and then in the state of its
`Perform`. -/
theorem ctrXf_ok_iff :
    (exec (.ctrXf init) s = .next t ∧ t.err = .ok) ↔
      CopyOperandsOk s ∧ completedWith (performCtr (Config.enc s.key) init s) .ok = t := by
  rw [← bufferCheck_len_eq_ok]
  rcases exec_cases (.ctrXf init) s with ⟨hc, hx⟩ | ⟨hc, u, hu, hx⟩ | ⟨-, e, he, -⟩
  · rw [hx, Host.Outcome.next.injEq]
    exact ⟨fun ⟨h, herr⟩ => absurd herr (h ▸ hc), fun ⟨h, _⟩ => absurd h hc⟩
  · cases hu
    rw [hx, Host.Outcome.next.injEq]
    exact ⟨fun ⟨h, _⟩ => ⟨hc, h⟩, fun ⟨_, h⟩ => ⟨h, h ▸ rfl⟩⟩
  · cases he

theorem ctrXf_completes (init : Bool) (h : CopyOperandsOk s) : ∃ t, exec (.ctrXf init) s = .next t ∧ t.err = .ok :=
  ⟨_, ctrXf_ok_iff.2 ⟨h, rfl⟩⟩

theorem ctrXf_byte (h : exec (.ctrXf init) s = .next t) (hok : t.err = .ok) {k : Nat} (hk : k < s.len.toNat) :
    t.readByte (s.dst.toNat + k) =
      s.readByte (s.src.toNat + k) ^^^ keystreamByte s.key s.nonce (s.initCtr init).ctr k := by
  obtain ⟨⟨-, -, hapart⟩, rfl⟩ := ctrXf_ok_iff.1 ⟨h, hok⟩
  have hbyte := ctrLoop_byte (Config.enc s.key) _ _ _ (ctrBlocks s.lenBytes) (s.initCtr init) hapart k hk
    (by unfold ctrBlocks State.lenBytes; omega)
  rw [readByte_initCtr, State.initCtr_nonce] at hbyte
  exact hbyte

theorem ctrXf_byte_outside (h : exec (.ctrXf init) s = .next t) (hok : t.err = .ok) {o : Nat}
    (ho : Outside s.dst.toNat s.len.toNat o) : t.readByte o = s.readByte o := by
  obtain ⟨-, rfl⟩ := ctrXf_ok_iff.1 ⟨h, hok⟩
  have hbyte := ctrLoop_readByte_outside (Config.enc s.key) s.srcOff s.dstOff s.lenBytes (ctrBlocks s.lenBytes)
    (s.initCtr init) o (by unfold Outside at ho; unfold ctrBlocks State.dstOff State.lenBytes; omega)
  rw [readByte_initCtr] at hbyte
  exact hbyte

theorem ctrXf_ctr (h : exec (.ctrXf init) s = .next t) (hok : t.err = .ok) :
    t.ctr = (s.initCtr init).ctr + BitVec.ofNat 64 ((s.len.toNat + 15) / 16) := by
  obtain ⟨-, rfl⟩ := ctrXf_ok_iff.1 ⟨h, hok⟩
  exact ctrLoop_ctr ..

/-- From counter 0 the keystream blocks are `KS(0)`, `KS(1)`, and so on. -/
theorem ctrXf_byte_of_init (h : exec (.ctrXf true) s = .next t) (hok : t.err = .ok) {k : Nat}
    (hk : k < s.len.toNat) :
    t.readByte (s.dst.toNat + k) = s.readByte (s.src.toNat + k) ^^^
      (Config.enc s.key (keystreamInput s.nonce (k / 16))).getD (k % 16) 0 := by
  have hks := keystreamByte_ofNat s.key s.nonce 0 k
  rw [Nat.zero_add] at hks
  rw [ctrXf_byte h hok hk, ← hks]
  rfl

end

/-! ### Involution and changed input (R93, R95) -/

/-- Settles O29: the second command XORs every byte with the same keystream byte again. -/
theorem ctrInvolution : Obligations.CtrInvolution := by
  intro init s t v d ht htok hv hvok k hk
  have frame := exec_engineFrame ht
  have hsecond := ctrXf_byte (s := ((t.setSrc s.dst).setDst d).setCtr s.ctr) hv hvok (k := k)
    (by simpa [frame.len] using hk)
  calc v.readByte (d.toNat + k)
    _ = t.readByte (s.dst.toNat + k) ^^^ keystreamByte t.key t.nonce (s.initCtr init).ctr k := by
        simpa using hsecond
    _ = s.readByte (s.src.toNat + k) := by
        rw [ctrXf_byte ht htok hk, frame.key, frame.nonce, BitVec.xor_assoc, BitVec.xor_self, BitVec.xor_zero]

/-- Settles O31: the keystream does not depend on the data, so an output byte follows its own input byte alone. -/
theorem ctrMalleability : Obligations.CtrMalleability := by
  intro init s s' t t' k d _ hs' hchg h hok h' hok' m hm
  have hbyte' : t'.readByte (s.dst.toNat + m) =
      s'.readByte (s.src.toNat + m) ^^^ keystreamByte s.key s.nonce (s.initCtr init).ctr m := by
    rw [hs'] at h' ⊢
    simpa using ctrXf_byte h' hok' hm
  have hpos : s.src.toNat + m = s.src.toNat + k ↔ m = k := by omega
  rw [hbyte', ctrXf_byte h hok hm, hchg]
  simp only [hpos]
  split
  · rw [BitVec.xor_assoc, BitVec.xor_assoc, BitVec.xor_comm d]
  · rfl

/-! ### A part of a message by itself (R94, R96) -/

/-- CTR_XF on `u` uses the keystream of CTR_XF on `s`, from its block `q` on. -/
structure KeystreamFrom (init : Bool) (s : State) (init' : Bool) (u : State) (q : Nat) : Prop where
  key : u.key = s.key
  nonce : u.nonce = s.nonce
  ctr : (u.initCtr init').ctr = (s.initCtr init).ctr + BitVec.ofNat 64 q

/-- Where `u` reads the byte of the message that `s` reads `q` blocks further on, and with it the same keystream, the
two commands write the same byte. -/
theorem KeystreamFrom.readByte {s t u v : State} {init init' : Bool} {q k : Nat}
    (hks : KeystreamFrom init s init' u q) (h : exec (.ctrXf init) s = .next t) (hok : t.err = .ok)
    (hv : exec (.ctrXf init') u = .next v) (hvok : v.err = .ok) (hk : k < u.len.toNat)
    (hkq : 16 * q + k < s.len.toNat)
    (hin : u.readByte (u.src.toNat + k) = s.readByte (s.src.toNat + (16 * q + k))) :
    v.readByte (u.dst.toNat + k) = t.readByte (s.dst.toNat + (16 * q + k)) := by
  rw [ctrXf_byte hv hvok hk, ctrXf_byte h hok hkq, hin, hks.key, hks.nonce, hks.ctr, keystreamByte_add_blocks]

/-- Settles O30: from counter `q` the keystream is the one of the whole message from byte `16 * q` on. -/
theorem ctrRandomAccess : Obligations.CtrRandomAccess := by
  intro s t h hok
  refine ⟨fun k hk => ctrXf_byte_of_init h hok hk, ?_⟩
  intro v a l p hl hp hv hvok k hk
  obtain ⟨⟨hrange, -⟩, -⟩ := ctrXf_ok_iff.1 ⟨h, hok⟩
  obtain ⟨-, -, hmax⟩ := s.bufBytes_legal
  have hpos : p.toNat = s.src.toNat + 16 * (a / 16) := by rw [hp, toNat_ofNat_word (by omega)]
  have hks : KeystreamFrom true s false ((s.setOperands p p l).setCtr (BitVec.ofNat 64 (a / 16))) (a / 16) :=
    ⟨rfl, rfl, (BitVec.zero_add _).symm⟩
  have hbyte := hks.readByte (k := k) h hok hv hvok hk (by omega) (by
    change s.readByte (p.toNat + k) = _
    rw [hpos, Nat.add_assoc])
  rw [← hpos, Nat.add_assoc]
  exact hbyte

/-- The operands of `u` are those of `s` for the bytes of its message from byte `a` on, at most to its end. -/
structure RegionOf (s u : State) (a : Nat) : Prop where
  bufBytes : u.bufBytes = s.bufBytes
  src : u.src.toNat = s.src.toNat + a
  dst : u.dst.toNat = s.dst.toNat + a
  len : a + u.len.toNat ≤ s.len.toNat

theorem RegionOf.operandsOk {s u : State} {a : Nat} (r : RegionOf s u a) (h : CopyOperandsOk s) :
    CopyOperandsOk u := by
  obtain ⟨hsize, hsrc, hdst, hlen⟩ := r
  unfold CopyOperandsOk Apart at *
  omega

/-- A byte of the message at or past the end of a first part's output is not in that output. -/
theorem CopyOperandsOk.outside_of_le {s : State} (h : CopyOperandsOk s) {n j : Nat} (hn : n ≤ j)
    (hj : j < s.len.toNat) : Outside s.dst.toNat n (s.src.toNat + j) := by
  unfold CopyOperandsOk Apart at h
  unfold Outside
  omega

/-- CTR after a CTR_XF with INIT = 1: the number of blocks it used, the partial one included. -/
theorem ctrXf_ctr_of_init {s t : State} (h : exec (.ctrXf true) s = .next t) (hok : t.err = .ok) :
    t.ctr = BitVec.ofNat 64 ((s.len.toNat + 15) / 16) :=
  (ctrXf_ctr h hok).trans (BitVec.zero_add _)

/-- `t1` with the operands of the last `l` bytes of the message that the operands of `s` name, from its block `m` on. -/
def lastPart (s t1 : State) (m l : Nat) : State :=
  t1.setOperands (BitVec.ofNat 32 (s.src.toNat + 16 * m)) (BitVec.ofNat 32 (s.dst.toNat + 16 * m)) (BitVec.ofNat 32 l)

@[simp] theorem readByte_lastPart (s t1 : State) (m l o : Nat) : (lastPart s t1 m l).readByte o = t1.readByte o := rfl

section
variable {s t t1 t2 : State} {m l : Nat} {n : Word}

theorem lastPart_len (hlen : s.len.toNat = 16 * m + l) : (lastPart s t1 m l).len.toNat = l :=
  toNat_ofNat_word (by omega)

/-- No advanced offset wraps, since the whole message lies inside the buffer. -/
theorem lastPart_regionOf (h : CopyOperandsOk s) (hsize : t1.bufBytes = s.bufBytes)
    (hlen : s.len.toNat = 16 * m + l) : RegionOf s (lastPart s t1 m l) (16 * m) := by
  obtain ⟨hsrc, hdst, -⟩ := h
  obtain ⟨-, -, hmax⟩ := s.bufBytes_legal
  exact ⟨hsize, toNat_ofNat_word (by omega), toNat_ofNat_word (by omega), by rw [lastPart_len hlen, hlen]⟩

/-- The first part leaves CTR at the block where the second one starts. -/
theorem lastPart_keystreamFrom (hn : n.toNat = 16 * m) (h1 : exec (.ctrXf true) (s.setLen n) = .next t1)
    (hok1 : t1.err = .ok) : KeystreamFrom true s false (lastPart s t1 m l) m := by
  have frame := exec_engineFrame h1
  have hblocks : (16 * m + 15) / 16 = m := by omega
  have hctr : t1.ctr = BitVec.ofNat 64 m := by rw [ctrXf_ctr_of_init h1 hok1, State.setLen_len, hn, hblocks]
  exact ⟨frame.key, frame.nonce, hctr.trans (BitVec.zero_add _).symm⟩

/-- The number of counter blocks of two parts, the first of whole blocks, is that of the whole. -/
theorem ctrXf_two_parts_ctr (hlen : s.len.toNat = 16 * m + l) (hn : n.toNat = 16 * m)
    (h : exec (.ctrXf true) s = .next t) (hok : t.err = .ok)
    (h1 : exec (.ctrXf true) (s.setLen n) = .next t1) (hok1 : t1.err = .ok)
    (h2 : exec (.ctrXf false) (lastPart s t1 m l) = .next t2) (hok2 : t2.err = .ok) : t2.ctr = t.ctr := by
  have hblocks : (s.len.toNat + 15) / 16 = m + (l + 15) / 16 := by omega
  rw [ctrXf_ctr h2 hok2, ctrXf_ctr h hok, (lastPart_keystreamFrom hn h1 hok1).ctr, lastPart_len hlen, hblocks,
    BitVec.ofNat_add, BitVec.add_assoc]

/-- Each part writes its bytes with the keystream of the whole, and the first one leaves the input of the second. -/
theorem ctrXf_two_parts_readByte (hlen : s.len.toNat = 16 * m + l) (hn : n.toNat = 16 * m)
    (h : exec (.ctrXf true) s = .next t) (hok : t.err = .ok)
    (h1 : exec (.ctrXf true) (s.setLen n) = .next t1) (hok1 : t1.err = .ok)
    (h2 : exec (.ctrXf false) (lastPart s t1 m l) = .next t2) (hok2 : t2.err = .ok) (o : Nat) :
    t2.readByte o = t.readByte o := by
  have hops := (ctrXf_ok_iff.1 ⟨h, hok⟩).1
  have hsize1 : t1.bufBytes = (s.setLen n).bufBytes := exec_bufBytes h1
  obtain ⟨-, hsrc2, hdst2, -⟩ := lastPart_regionOf hops hsize1 hlen
  have hlen2 : (lastPart s t1 m l).len.toNat = l := lastPart_len hlen
  have hkeep1 : ∀ o, Outside s.dst.toNat (16 * m) o → t1.readByte o = s.readByte o := fun o ho =>
    ctrXf_byte_outside h1 hok1 (hn ▸ ho)
  have hkeep2 : Outside (s.dst.toNat + 16 * m) l o → t2.readByte o = t1.readByte o := fun ho =>
    ctrXf_byte_outside h2 hok2 (by rwa [hdst2, hlen2])
  by_cases hout : Outside s.dst.toNat s.len.toNat o
  · rw [hkeep2 (by unfold Outside at *; omega), hkeep1 o (by unfold Outside at *; omega),
      ctrXf_byte_outside h hok hout]
  · obtain ⟨k, rfl⟩ : ∃ k, o = s.dst.toNat + k := ⟨o - s.dst.toNat, by unfold Outside at hout; omega⟩
    have hk : k < s.len.toNat := by unfold Outside at hout; omega
    by_cases hfirst : k < 16 * m
    · rw [hkeep2 (.inl (by omega)), ctrXf_byte h hok hk]
      exact ctrXf_byte h1 hok1 (hn ▸ hfirst)
    · obtain ⟨j, rfl⟩ : ∃ j, k = 16 * m + j := ⟨k - 16 * m, by omega⟩
      have hin : t1.readByte (s.src.toNat + (16 * m + j)) = s.readByte (s.src.toNat + (16 * m + j)) :=
        hkeep1 _ (hops.outside_of_le (by omega) hk)
      have hbyte := (lastPart_keystreamFrom hn h1 hok1).readByte (k := j) h hok h2 hok2 (by omega) hk
        (by rwa [readByte_lastPart, hsrc2, Nat.add_assoc])
      rwa [hdst2, Nat.add_assoc] at hbyte

theorem ctrXf_split (hlen : s.len.toNat = 16 * m + l) (h : exec (.ctrXf true) s = .next t) (hok : t.err = .ok) :
    ∃ t1 t2, exec (.ctrXf true) (s.setLen (BitVec.ofNat 32 (16 * m))) = .next t1 ∧ t1.err = .ok ∧
      exec (.ctrXf false) (lastPart s t1 m l) = .next t2 ∧ t2.err = .ok ∧
      (∀ o, t2.readByte o = t.readByte o) ∧ t2.ctr = t.ctr := by
  have hops := (ctrXf_ok_iff.1 ⟨h, hok⟩).1
  have hn : (BitVec.ofNat 32 (16 * m)).toNat = 16 * m := toNat_ofNat_word (by omega)
  have r1 : RegionOf s (s.setLen (BitVec.ofNat 32 (16 * m))) 0 :=
    ⟨rfl, rfl, rfl, by rw [State.setLen_len, hn]; omega⟩
  obtain ⟨t1, h1, hok1⟩ := ctrXf_completes true (r1.operandsOk hops)
  have r2 := lastPart_regionOf hops ((exec_bufBytes h1).trans r1.bufBytes) hlen
  obtain ⟨t2, h2, hok2⟩ := ctrXf_completes false (r2.operandsOk hops)
  exact ⟨t1, t2, h1, hok1, h2, hok2, ctrXf_two_parts_readByte hlen hn h hok h1 hok1 h2 hok2,
    ctrXf_two_parts_ctr hlen hn h hok h1 hok1 h2 hok2⟩

end

/-- Settles O32: the second part starts at the counter the first one leaves, which counts a partial block as one. -/
theorem ctrContinuation : Obligations.CtrContinuation := by
  refine ⟨fun s t m l2 hlen h hok => ctrXf_split hlen h hok, ?_⟩
  intro s t v a b l hpartial h hok hv hvok
  have frame := exec_engineFrame h
  have hblocks : (s.len.toNat + 15) / 16 = s.len.toNat / 16 + 1 := by omega
  have hctr : t.ctr = BitVec.ofNat 64 (s.len.toNat / 16 + 1) := by rw [ctrXf_ctr_of_init h hok, hblocks]
  refine ⟨hctr, fun k hk => ?_⟩
  calc v.readByte (b.toNat + k)
    _ = t.readByte (a.toNat + k) ^^^ keystreamByte t.key t.nonce t.ctr k :=
        ctrXf_byte (s := t.setOperands a b l) hv hvok hk
    _ = _ := by rw [frame.key, frame.nonce, hctr, keystreamByte_ofNat]

end Sys2Proof.Machine
end

section
/-!
PROOFS. PKCS#7 (43_pkcs7.md R97 to R99). PAD leaves the data and then `p` bytes of value `p`, where `p` is at least 1
and fits in a byte; STRIP of a buffer with such a tail gives the length without it.
-/

namespace Sys2Proof.Machine

open Sys2Proof

/-- A command completes with OK exactly when its checks pass and its `Perform` succeeds, and then in the state that
`Perform` answers (40_command_cycle.md R72, R78). -/
theorem exec_ok_iff {i : Instr} {s t : State} :
    (exec i s = .next t ∧ t.err = .ok) ↔
      checkOf i s = .ok ∧ ∃ u, performOf i s = .ok u ∧ completedWith u .ok = t := by
  rcases exec_cases i s with ⟨hc, hx⟩ | ⟨hc, u, hu, hx⟩ | ⟨hc, e, he, hx⟩ <;> rw [hx, Host.Outcome.next.injEq]
  · exact ⟨fun ⟨h, herr⟩ => absurd herr (h ▸ hc), fun ⟨h, _⟩ => absurd h hc⟩
  · simp only [hc, hu, Except.ok.injEq, exists_eq_left', true_and]
    exact and_iff_left_of_imp fun h => h ▸ rfl
  · have hne : e ≠ .ok := by
      rcases performOf_eq_error he with ⟨-, rfl⟩ | ⟨-, rfl⟩ <;> decide
    simp only [he, reduceCtorEq, false_and, exists_false, and_false, iff_false]
    rintro ⟨rfl, herr⟩
    exact hne herr

/-! ### PAD (R97) -/

section
variable {s t : State} {bs k : Nat}

theorem performPad_readByte_data (hk : k < s.len.toNat) :
    (performPad bs s).readByte (s.dst.toNat + k) = s.readByte (s.src.toNat + k) := by
  have hdata : k < (s.memRead s.src.toNat s.len.toNat).length := by rwa [memRead_length]
  simp only [performPad, State.srcOff, State.dstOff, State.lenBytes, readByte_setRlen]
  rw [readByte_memWrite, if_pos (by rw [List.length_append]; omega), Nat.add_sub_cancel_left,
    List.getD_append _ _ _ _ hdata, memRead_getD s _ _ _ hk]

theorem performPad_readByte_padding (hk : k < padValue bs s.len.toNat) :
    (performPad bs s).readByte (s.dst.toNat + s.len.toNat + k) = BitVec.ofNat 8 (padValue bs s.len.toNat) := by
  simp only [performPad, State.srcOff, State.dstOff, State.lenBytes, readByte_setRlen]
  rw [readByte_memWrite, if_pos (by simp only [List.length_append, memRead_length, List.length_replicate]; omega),
    Nat.add_assoc, Nat.add_sub_cancel_left,
    List.getD_append_right _ _ _ _ (by rw [memRead_length]; exact Nat.le_add_right ..), memRead_length,
    Nat.add_sub_cancel_left, List.getD_replicate _ hk]

/-- A PAD that completes with OK passed the range check of its output, and completes in the state of its `Perform`. -/
theorem pad_of_completed (hbs : 0 < bs) (h : exec (.pad bs) s = .next t) (hok : t.err = .ok) :
    s.dst.toNat + (s.len.toNat + padValue bs s.len.toNat) ≤ s.bufBytes ∧ t = completedWith (performPad bs s) .ok := by
  obtain ⟨hcheck, u, hu, rfl⟩ := exec_ok_iff.1 ⟨h, hok⟩
  cases hu
  rw [checkOf_pad hbs, bufferCheck_eq_ok, rangeOk_some] at hcheck
  obtain ⟨⟨-, hdst⟩, -⟩ := hcheck
  exact ⟨hdst, rfl⟩

theorem pad_rlen (hbs : 0 < bs) (h : exec (.pad bs) s = .next t) (hok : t.err = .ok) :
    t.rlen.toNat = s.len.toNat + padValue bs s.len.toNat := by
  obtain ⟨hdst, rfl⟩ := pad_of_completed hbs h hok
  obtain ⟨-, -, hmax⟩ := s.bufBytes_legal
  exact toNat_ofNat_word (n := s.len.toNat + padValue bs s.len.toNat) (by omega)

theorem pad_data (hbs : 0 < bs) (h : exec (.pad bs) s = .next t) (hok : t.err = .ok) (hk : k < s.len.toNat) :
    t.readByte (s.dst.toNat + k) = s.readByte (s.src.toNat + k) := by
  obtain ⟨-, rfl⟩ := pad_of_completed hbs h hok
  exact performPad_readByte_data hk

theorem pad_padding (hbs : 0 < bs) (h : exec (.pad bs) s = .next t) (hok : t.err = .ok)
    (hk : k < padValue bs s.len.toNat) :
    t.readByte (s.dst.toNat + s.len.toNat + k) = BitVec.ofNat 8 (padValue bs s.len.toNat) := by
  obtain ⟨-, rfl⟩ := pad_of_completed hbs h hok
  exact performPad_readByte_padding hk

/-- The padding value of a block size below 256 is the value of one byte. -/
theorem padByte_toNat (hbs : 0 < bs) (hbyte : bs ≤ 255) (len : Nat) :
    (BitVec.ofNat 8 (padValue bs len)).toNat = padValue bs len := by
  obtain ⟨-, hle, -⟩ := padValue_spec hbs len
  rw [BitVec.toNat_ofNat, Nat.mod_eq_of_lt (by omega)]

theorem padValue_of_whole {len : Nat} (h : len % bs = 0) : padValue bs len = bs := by
  rw [padValue, h, Nat.sub_zero]

end

/-! ### STRIP (R98) -/

/-- The last `p` bytes of the input of STRIP are the nonzero byte `p`. -/
structure PaddedWith (s : State) (p : Byte) : Prop where
  pos : 0 < p.toNat
  le_len : p.toNat ≤ s.len.toNat
  tail : ∀ k, 1 ≤ k → k ≤ p.toNat → s.readByte (s.src.toNat + s.len.toNat - k) = p

theorem PaddedWith.last {s : State} {p : Byte} (h : PaddedWith s p) :
    s.readByte (s.src.toNat + s.len.toNat - 1) = p :=
  h.tail 1 le_rfl h.pos

theorem PaddedWith.validPadding {s : State} {p : Byte} (h : PaddedWith s p) :
    ValidPadding s s.src.toNat s.len.toNat := by
  rw [ValidPadding, h.last]
  exact ⟨h.pos.trans_le h.le_len, h.pos, h.le_len, h.tail⟩

theorem PaddedWith.strip {s : State} {p : Byte} (h : PaddedWith s p)
    (hrange : s.src.toNat + s.len.toNat ≤ s.bufBytes) :
    exec .strip s = .next (completedWith (s.setRlen (BitVec.ofNat 32 (s.len.toNat - p.toNat))) .ok) := by
  have hcheck : checkOf .strip s = .ok :=
    (bufferCheck_eq_ok s none).2 ⟨(rangeOk_none s).2 hrange, overlaps_none s⟩
  rcases performStrip_cases s with ⟨-, hp⟩ | ⟨hinvalid, -⟩
  · rw [h.last] at hp
    exact (exec_ok_iff.2 ⟨hcheck, _, hp, rfl⟩).1
  · exact absurd h.validPadding hinvalid

/-! ### STRIP after PAD (R99) -/

/-- The block with the operands of a STRIP over the output of the PAD from `s` to `t`. -/
def stripOperands (s t : State) : State := (t.setSrc s.dst).setLen t.rlen

section
variable {s t : State} {bs : Nat}

theorem pad_paddedWith (hbs : 0 < bs) (hbyte : bs ≤ 255) (h : exec (.pad bs) s = .next t) (hok : t.err = .ok) :
    PaddedWith (stripOperands s t) (BitVec.ofNat 8 (padValue bs s.len.toNat)) := by
  obtain ⟨hpos, -, -⟩ := padValue_spec hbs s.len.toNat
  have hp := padByte_toNat hbs hbyte s.len.toNat
  have hrlen : (stripOperands s t).len.toNat = s.len.toNat + padValue bs s.len.toNat := pad_rlen hbs h hok
  refine ⟨by omega, by omega, fun k hk1 hkp => ?_⟩
  have hoff : s.dst.toNat + (s.len.toNat + padValue bs s.len.toNat) - k =
      s.dst.toNat + s.len.toNat + (padValue bs s.len.toNat - k) := by omega
  calc (stripOperands s t).readByte (s.dst.toNat + (stripOperands s t).len.toNat - k)
    _ = t.readByte (s.dst.toNat + s.len.toNat + (padValue bs s.len.toNat - k)) := by
        rw [hrlen, hoff, stripOperands, readByte_setLen, readByte_setSrc]
    _ = BitVec.ofNat 8 (padValue bs s.len.toNat) := pad_padding hbs h hok (by omega)

/-- STRIP over the output of PAD changes RLEN alone, back to the length of the data. -/
theorem strip_after_pad (hbs : 0 < bs) (hbyte : bs ≤ 255) (h : exec (.pad bs) s = .next t) (hok : t.err = .ok) :
    exec .strip (stripOperands s t) = .next (completedWith ((stripOperands s t).setRlen s.len) .ok) := by
  obtain ⟨hdst, -⟩ := pad_of_completed hbs h hok
  have hrlen : (stripOperands s t).len.toNat = s.len.toNat + padValue bs s.len.toNat := pad_rlen hbs h hok
  have hsize : t.bufBytes = s.bufBytes := exec_bufBytes h
  have hrange : (stripOperands s t).src.toNat + (stripOperands s t).len.toNat ≤ (stripOperands s t).bufBytes := by
    rw [hrlen]
    exact hdst.trans_eq hsize.symm
  rw [(pad_paddedWith hbs hbyte h hok).strip hrange, hrlen, padByte_toNat hbs hbyte, Nat.add_sub_cancel,
    BitVec.ofNat_toNat, BitVec.setWidth_eq]

end

/-- Settles O35: STRIP takes off the tail that PAD put on and writes no byte; with BS = 16 and LEN a multiple of 16
the padding value is 16. -/
theorem padThenStrip : Obligations.PadThenStrip := by
  intro s t bs hbs hbyte h hok
  have hdata := fun k => pad_data (k := k) hbs h hok
  refine ⟨⟨_, strip_after_pad hbs hbyte h hok, rfl, rfl, hdata⟩, ?_⟩
  rintro rfl hwhole
  have hp := padValue_of_whole hwhole
  have hrlen := pad_rlen hbs h hok
  have hpadding := fun k => pad_padding (k := k) hbs h hok
  rw [hp] at hrlen hpadding
  exact ⟨hrlen, hpadding⟩

end Sys2Proof.Machine
end

section
/-!
PROOFS. Tempering (44_mt19937.md R103 to R105). `temper` is four xor-shifts `x ^^^ f x` with `f` linear over XOR.
Stage `n` of an inverse step leaves the error `f^[n+1] x`, which is 0 once the shifts reach the width of a word: this
is the chunk argument of R104.
-/

namespace Sys2Proof.Machine

open Sys2Proof

/-! ### Linearity over XOR -/

/-- `f` maps the XOR of two words to the XOR of their images. -/
def XorLinear (f : Word → Word) : Prop := ∀ x y, f (x ^^^ y) = f x ^^^ f y

theorem xorLinear_shiftRight (s : Nat) : XorLinear (· >>> s) :=
  fun x y => BitVec.ushiftRight_xor_distrib x y s

theorem xorLinear_shiftLeft_and (s : Nat) (m : Word) : XorLinear (fun x => (x <<< s) &&& m) := by
  intro x y
  ext i
  simp [BitVec.shiftLeft_xor_distrib, Bool.and_xor_distrib_right]

theorem XorLinear.comp {f g : Word → Word} (hf : XorLinear f) (hg : XorLinear g) : XorLinear (f ∘ g) :=
  fun x y => (congrArg f (hg x y)).trans (hf _ _)

/-- The xor-shift `x ^^^ f x` of a linear `f`. -/
theorem XorLinear.self_xor {f : Word → Word} (hf : XorLinear f) : XorLinear (fun x => x ^^^ f x) := by
  intro x y
  simp only [hf x y]
  ac_rfl

theorem temper_xorLinear : XorLinear temper :=
  (xorLinear_shiftRight 18).self_xor.comp <| (xorLinear_shiftLeft_and 15 0xEFC60000).self_xor.comp <|
    (xorLinear_shiftLeft_and 7 0x9D2C5680).self_xor.comp (xorLinear_shiftRight 11).self_xor

/-! ### The inverse steps (R104) -/

/-- The stages `r <- y ^ f r` from `r = y = x ^ f x` are off from `x` by an iterate of `f`. -/
theorem XorLinear.stage_eq {f : Word → Word} (hf : XorLinear f) {r : Nat → Word} {x : Word}
    (hzero : r 0 = x ^^^ f x) (hsucc : ∀ n, r (n + 1) = x ^^^ f x ^^^ f (r n)) (n : Nat) :
    r n = x ^^^ f^[n + 1] x := by
  induction n with
  | zero => exact hzero
  | succ n ih =>
    calc r (n + 1)
      _ = x ^^^ f x ^^^ (f x ^^^ f (f^[n + 1] x)) := by rw [hsucc, ih, hf]
      _ = x ^^^ f^[n + 2] x := by
        rw [Function.iterate_succ_apply' f (n + 1), BitVec.xor_assoc, ← BitVec.xor_assoc (f x), BitVec.xor_self,
          BitVec.zero_xor]

theorem iterate_shiftRight (s n : Nat) (x : Word) : (fun y : Word => y >>> s)^[n] x = x >>> (s * n) := by
  induction n with
  | zero => simp
  | succ n ih => rw [Function.iterate_succ_apply', ih, Nat.mul_succ, BitVec.shiftRight_add]

/-- `n` masked left shifts clear the low `s * n` bits. -/
theorem iterate_shiftLeft_and_getLsbD (s : Nat) (m x : Word) (n i : Nat) (hi : i < s * n) :
    ((fun y : Word => (y <<< s) &&& m)^[n] x).getLsbD i = false := by
  induction n generalizing i with
  | zero => omega
  | succ n ih =>
    rw [Function.iterate_succ_apply', BitVec.getLsbD_and, BitVec.getLsbD_shiftLeft]
    rcases Nat.lt_or_ge i s with hlt | hge
    · simp [hlt]
    · have : i - s < s * n := by rw [Nat.mul_succ] at hi; omega
      simp [ih _ this]

/-- The stages of an inverse step shift by the width of a word in total. -/
theorem width_le_mul_invStages {s : Nat} (hs : 0 < s) : 32 ≤ s * (invStages s + 1) := by
  have hpos : 1 ≤ (32 + s - 1) / s := (Nat.one_le_div_iff hs).2 (by omega)
  have := Nat.lt_mul_div_succ (32 + s - 1) hs
  rw [invStages, Nat.sub_add_cancel hpos]
  rw [Nat.mul_succ] at this
  omega

theorem invR_xor_shiftRight {s : Nat} (hs : 0 < s) (x : Word) : invR (x ^^^ x >>> s) s = x := by
  have h := (xorLinear_shiftRight s).stage_eq (r := invRStage (x ^^^ x >>> s) s) rfl (fun _ => rfl) (invStages s)
  rw [invR, h, iterate_shiftRight, BitVec.ushiftRight_eq_zero (width_le_mul_invStages hs), BitVec.xor_zero]

theorem invL_xor_shiftLeft_and {s : Nat} (hs : 0 < s) (m x : Word) :
    invL (x ^^^ ((x <<< s) &&& m)) s m = x := by
  have h := (xorLinear_shiftLeft_and s m).stage_eq (r := invLStage (x ^^^ ((x <<< s) &&& m)) s m) rfl
    (fun _ => rfl) (invStages s)
  have herror : (fun y : Word => (y <<< s) &&& m)^[invStages s + 1] x = 0#32 :=
    BitVec.eq_of_getLsbD_eq fun i hi => by
      rw [iterate_shiftLeft_and_getLsbD s m x _ i (hi.trans_le (width_le_mul_invStages hs)), BitVec.getLsbD_zero]
  rw [invL, h, herror, BitVec.xor_zero]

/-! ### Untemper and Temper (R105) -/

theorem untemper_temper (x : Word) : untemper (temper x) = x := by
  simp only [untemper, temper, invR_xor_shiftRight, invL_xor_shiftLeft_and, Nat.ofNat_pos]

/-- An injective map of the finitely many words to themselves is onto. -/
theorem temper_bijective : Function.Bijective temper :=
  Function.Injective.bijective_of_finite (Function.LeftInverse.injective untemper_temper)

theorem temper_untemper (y : Word) : temper (untemper y) = y :=
  Function.LeftInverse.rightInverse_of_surjective untemper_temper temper_bijective.surjective y

/-- The inverse of a linear bijection is linear. -/
theorem untemper_xorLinear : XorLinear untemper := by
  intro x y
  apply temper_bijective.injective
  rw [temper_xorLinear, temper_untemper, temper_untemper, temper_untemper]

/-- Settles O38: each inverse step undoes its xor-shift, and both maps are linear. -/
theorem untemperInvertsTemper : Obligations.UntemperInvertsTemper :=
  ⟨untemper_temper, temper_untemper, temper_bijective, fun x y =>
    ⟨temper_xorLinear x y, untemper_xorLinear x y⟩⟩

end Sys2Proof.Machine
end

section
/-!
PROOFS. The two recurrences of the MT19937 array (44_mt19937.md R101, R102). Iteration `i` of the twist reads words
that no iteration has written yet, which are old, and words below `i`, which are final.
-/

namespace Sys2Proof.Machine

open Sys2Proof

/-! ### The seeding recurrence (R101) -/

/-- One step of the recurrence on unbounded integers. -/
theorem seedNext_toNat (prev : Word) (i : Nat) :
    (seedNext prev i).toNat = (1812433253 * (prev ^^^ (prev >>> 30)).toNat + i) % 2 ^ 32 := by
  simp only [seedNext, BitVec.toNat_add, BitVec.toNat_mul, BitVec.toNat_ofNat]
  omega

theorem seedWords_getElem_zero (s : Word) : (seedWords s)[0] = s := rfl

/-- Reading past the head of a vector given by its list. Stated for any list, so that no check unfolds the seeding
tail. -/
theorem getElem_succ_mk_cons {n : Nat} (a : Word) (l : List Word) (hsize : (a :: l).toArray.size = n) {i : Nat}
    (h : i + 1 < n) : (⟨⟨a :: l⟩, hsize⟩ : Vector Word n)[i + 1] = l.getD i 0 := by
  have hi : i < l.length := by simpa [← hsize] using h
  exact (List.getD_eq_getElem l 0 hi).symm

/-- The words after word 0 are the seeding tail. -/
theorem seedWords_getElem_succ_eq_getD (s : Word) {i : Nat} (h : i + 1 < 624) :
    (seedWords s)[i + 1] = (seedTail 623 1 s).getD i 0 :=
  getElem_succ_mk_cons s (seedTail 623 1 s) _ h

theorem seedWords_getElem_succ (s : Word) {i : Nat} (h : i + 1 < 624) :
    (seedWords s)[i + 1] = seedNext (seedWords s)[i] (i + 1) := by
  rw [seedWords_getElem_succ_eq_getD s h, seedTail_getElem 623 1 s i (by omega), Nat.add_comm 1]
  cases i with
  | zero => rfl
  | succ i => rw [seedWords_getElem_succ_eq_getD s (by omega), if_neg i.succ_ne_zero, Nat.add_sub_cancel]

/-- Settles O36: the words satisfy the model's recurrence, and that is the recurrence on integers. -/
theorem seedRecurrence : Obligations.SeedRecurrence := by
  refine ⟨fun s => ⟨seedWords_getElem_zero s, fun i h => ?_⟩, ?_⟩
  · rw [seedWords_getElem_succ s h, seedNext_toNat]
  · decide +kernel

/-! ### The twist (R102) -/

/-- The word that iteration `i` of the twist computes from the old word `old`, the next word and the far word. -/
def twistWord (old next far : Word) : Word :=
  let y := (old &&& 0x80000000#32) ||| (next &&& 0x7FFFFFFF#32)
  if y.getLsbD 0 then far ^^^ (y >>> 1) ^^^ 0x9908B0DF#32 else far ^^^ (y >>> 1)

theorem twistStep_getElem_self (mt : MtArray) (i : Nat) (h : i < 624) :
    (twistStep mt i)[i] = twistWord mt[i] (mt.getD ((i + 1) % 624) 0) (mt.getD ((i + 397) % 624) 0) := by
  simp only [twistStep, Vector.getElem_setIfInBounds_self, twistWord, getD_eq_getElem mt i 0 h]

/-- A word already written by the twist is final. -/
theorem twistLoop_getD_of_lt (mt : MtArray) {n k : Nat} (hk : k < n) (hn : n ≤ 624) :
    (twistLoop n mt).getD k 0 = (twist mt).getD k 0 := by
  rw [getD_eq_getElem _ k 0 (hk.trans_le hn), getD_eq_getElem _ k 0 (hk.trans_le hn), twist,
    twistLoop_getElem_behind mt n 624 k (hk.trans_le hn) hk hn]

/-- A word not yet written by the twist is the old one. -/
theorem twistLoop_getD_of_le (mt : MtArray) {n k : Nat} (hn : n ≤ k) (hk : k < 624) :
    (twistLoop n mt).getD k 0 = mt.getD k 0 := by
  rw [getD_eq_getElem _ k 0 hk, getD_eq_getElem _ k 0 hk, twistLoop_getElem_ahead mt n k hk hn]

/-- The next word as iteration `i` reads it. -/
theorem twistLoop_next (mt : MtArray) {i : Nat} (h : i < 624) :
    (twistLoop i mt).getD ((i + 1) % 624) 0 = if i + 1 < 624 then mt.getD (i + 1) 0 else (twist mt)[0] := by
  split
  case isTrue hlt => rw [Nat.mod_eq_of_lt hlt, twistLoop_getD_of_le mt (by omega) hlt]
  case isFalse hge =>
    have hwrap : (i + 1) % 624 = 0 := by omega
    rw [hwrap, twistLoop_getD_of_lt mt (by omega) h.le, getD_eq_getElem]

/-- The word at distance 397 as iteration `i` reads it. -/
theorem twistLoop_far (mt : MtArray) {i : Nat} (h : i < 624) :
    (twistLoop i mt).getD ((i + 397) % 624) 0 =
      if i < 227 then mt.getD (i + 397) 0 else (twist mt).getD (i - 227) 0 := by
  split
  case isTrue hlt => rw [Nat.mod_eq_of_lt (by omega), twistLoop_getD_of_le mt (by omega) (by omega)]
  case isFalse hge =>
    have hwrap : (i + 397) % 624 = i - 227 := by omega
    rw [hwrap, twistLoop_getD_of_lt mt (by omega) h.le]

/-- Word `i` after the twist is the word that iteration `i` computes. -/
theorem twist_getElem_eq_twistWord (mt : MtArray) {i : Nat} (h : i < 624) :
    (twist mt)[i] = twistWord mt[i] (if i + 1 < 624 then mt.getD (i + 1) 0 else (twist mt)[0])
      (if i < 227 then mt.getD (i + 397) 0 else (twist mt).getD (i - 227) 0) := by
  have hfinal : (twist mt)[i] = (twistStep (twistLoop i mt) i)[i] := by
    rw [twist, twistLoop_getElem_behind mt (i + 1) 624 i h i.lt_succ_self h, twistLoop]
  rw [hfinal, twistStep_getElem_self _ i h, twistLoop_getElem_ahead mt i i h le_rfl, twistLoop_next mt h,
    twistLoop_far mt h]

/-- Settles O37: each iteration computes its word from the words it reads, and that word is final. -/
theorem twistRecurrence : Obligations.TwistRecurrence := by
  rintro mt i h next far y rfl rfl rfl
  rw [twist_getElem_eq_twistWord mt h, twistWord]
  simp only [BitVec.getLsbD, Nat.testBit_zero, decide_eq_true_eq]
  rfl

end Sys2Proof.Machine
end

section
/-!
PROOFS. The clone law (44_mt19937.md R111). The outputs of a Seeded generator depend on its array and cursor alone;
from a twist boundary they are the tempered words of the twisted array, and a clone load writes the untempered words
of its inputs.
-/

namespace Sys2Proof.Machine

open Sys2Proof

/-- A command whose checks pass and whose `Perform` succeeds completes in the state that `Perform` answers. -/
theorem afterExec_of_performOf {i : Instr} {s u : State} (hc : checkOf i s = .ok) (hu : performOf i s = .ok u) :
    afterExec i s = completedWith u .ok := by
  rw [afterExec, exec_of_performOf_ok hu, if_pos hc]

/-! ### MT_EXTRACT (R107) -/

section
variable {s : State}

theorem performMtExtract_of_seeded (h : s.mtCursor.val ≤ 624) :
    performMtExtract s =
      .ok ((s.twistIfDue.setMtOut (temper (s.twistIfDue.mt.getD s.twistIfDue.mtCursor.val 0))).setMtCursor
        (s.twistIfDue.mtCursor + 1)) := by
  rcases performMtExtract_cases s with ⟨hlt, -⟩ | ⟨-, hp⟩
  · exact absurd hlt h.not_gt
  · exact hp

/-- MT_EXTRACT of a Seeded generator, after the twist where it is due. -/
theorem afterExec_mtExtract (h : s.mtCursor.val ≤ 624) :
    (afterExec .mtExtract s).mtOut = temper (s.twistIfDue.mt.getD s.twistIfDue.mtCursor.val 0) ∧
    (afterExec .mtExtract s).mt = s.twistIfDue.mt ∧
    (afterExec .mtExtract s).mtCursor = s.twistIfDue.mtCursor + 1 := by
  rw [afterExec_of_performOf (i := .mtExtract) rfl (performMtExtract_of_seeded h)]
  exact ⟨rfl, rfl, rfl⟩

theorem twistIfDue_of_ne (h : s.mtCursor.val ≠ 624) : s.twistIfDue = s := if_neg h

theorem twistIfDue_mt (s : State) : s.twistIfDue.mt = if s.mtCursor.val = 624 then twist s.mt else s.mt := by
  rcases twistIfDue_cases s with ⟨hc, ht⟩ | ⟨hc, ht⟩ <;> simp [hc, ht]

theorem twistIfDue_mtCursor (s : State) :
    s.twistIfDue.mtCursor = if s.mtCursor.val = 624 then 0 else s.mtCursor := by
  rcases twistIfDue_cases s with ⟨hc, ht⟩ | ⟨hc, ht⟩ <;> simp [hc, ht]

theorem twistIfDue_mtCursor_lt (h : s.mtCursor.val ≤ 624) : s.twistIfDue.mtCursor.val < 624 := by
  rcases twistIfDue_cases s with ⟨-, ht⟩ | ⟨hne, ht⟩ <;> rw [ht]
  · exact Nat.zero_lt_succ _
  · exact h.lt_of_ne hne

theorem afterExec_mtExtract_mtCursor (h : s.mtCursor.val ≤ 624) :
    (afterExec .mtExtract s).mtCursor.val = s.twistIfDue.mtCursor.val + 1 := by
  obtain ⟨-, -, hcursor⟩ := afterExec_mtExtract h
  have hlt := twistIfDue_mtCursor_lt h
  rw [hcursor, Fin.val_add_one_of_lt (Fin.lt_def.2 (by rw [Fin.val_last]; omega))]

end

/-! ### The outputs depend on the array and the cursor alone -/

/-- Two blocks whose generators are Seeded and in the same state. -/
structure SameSeeded (s t : State) : Prop where
  mt : s.mt = t.mt
  mtCursor : s.mtCursor = t.mtCursor
  seeded : s.mtCursor.val ≤ 624

theorem SameSeeded.twistIfDue {s t : State} (h : SameSeeded s t) : SameSeeded s.twistIfDue t.twistIfDue where
  mt := by rw [twistIfDue_mt, twistIfDue_mt, h.mt, h.mtCursor]
  mtCursor := by rw [twistIfDue_mtCursor, twistIfDue_mtCursor, h.mtCursor]
  seeded := (twistIfDue_mtCursor_lt h.seeded).le

/-- MT_EXTRACT gives the same output on both, and keeps them the same. -/
theorem SameSeeded.afterExec_mtExtract {s t : State} (h : SameSeeded s t) :
    (afterExec .mtExtract s).mtOut = (afterExec .mtExtract t).mtOut ∧
      SameSeeded (afterExec .mtExtract s) (afterExec .mtExtract t) := by
  obtain ⟨hsOut, hsMt, hsCursor⟩ := Machine.afterExec_mtExtract h.seeded
  obtain ⟨htOut, htMt, htCursor⟩ := Machine.afterExec_mtExtract (h.mtCursor ▸ h.seeded)
  have hdue := h.twistIfDue
  have hseeded : (afterExec .mtExtract s).mtCursor.val ≤ 624 := by
    rw [afterExec_mtExtract_mtCursor h.seeded]
    exact twistIfDue_mtCursor_lt h.seeded
  refine ⟨by rw [hsOut, htOut, hdue.mt, hdue.mtCursor], ?_, ?_, hseeded⟩
  · rw [hsMt, htMt, hdue.mt]
  · rw [hsCursor, htCursor, hdue.mtCursor]

theorem SameSeeded.extractMany {s t : State} (h : SameSeeded s t) (n : Nat) :
    (extractMany n s).1 = (extractMany n t).1 := by
  induction n generalizing s t with
  | zero => rfl
  | succ n ih =>
    obtain ⟨hout, hnext⟩ := h.afterExec_mtExtract
    exact congrArg₂ List.cons hout (ih hnext)

/-! ### The outputs up to the next twist boundary -/

/-- The outputs from a cursor inside the array to its end are the tempered words from there on. -/
theorem extractMany_to_boundary {n : Nat} {s : State} (h : s.mtCursor.val + n = 624) :
    (extractMany n s).1 = (s.mt.toList.drop s.mtCursor.val).map temper ∧
    (extractMany n s).2.mt = s.mt ∧ (extractMany n s).2.mtCursor.val = 624 := by
  induction n generalizing s with
  | zero => exact ⟨by simp [extractMany, ← h], rfl, h⟩
  | succ n ih =>
    have hlt : s.mtCursor.val < 624 := by omega
    obtain ⟨hout, hmt, -⟩ := afterExec_mtExtract hlt.le
    have hcursor := afterExec_mtExtract_mtCursor hlt.le
    rw [twistIfDue_of_ne hlt.ne] at hout hmt hcursor
    rw [getD_eq_getElem _ _ _ hlt] at hout
    obtain ⟨houts, hmts, hcursors⟩ := ih (s := afterExec .mtExtract s) (by omega)
    refine ⟨?_, hmts.trans hmt, hcursors⟩
    rw [List.drop_eq_getElem_cons (by simpa using hlt), List.map_cons, extractMany, houts, hout, hmt, hcursor,
      Vector.getElem_toList]

/-- MT_EXTRACT twists first where that is due, so twisting beforehand makes no difference. -/
theorem afterExec_mtExtract_twistIfDue {s : State} (h : s.mtCursor.val ≤ 624) :
    afterExec .mtExtract s.twistIfDue = afterExec .mtExtract s := by
  have hlt := twistIfDue_mtCursor_lt h
  have ht := performMtExtract_of_seeded hlt.le
  rw [twistIfDue_of_ne hlt.ne] at ht
  rw [afterExec_of_performOf (i := .mtExtract) rfl ht,
    afterExec_of_performOf (i := .mtExtract) rfl (performMtExtract_of_seeded h)]

theorem extractMany_succ_twistIfDue {s : State} (h : s.mtCursor.val ≤ 624) (n : Nat) :
    extractMany (n + 1) s.twistIfDue = extractMany (n + 1) s := by
  simp only [extractMany, afterExec_mtExtract_twistIfDue h]

/-- The 624 outputs from a twist boundary are the tempered words of the twisted array. -/
theorem extractMany_from_boundary {g : State} (h : g.mtCursor = 624) :
    (extractMany 624 g).1 = (twist g.mt).toList.map temper ∧
    (extractMany 624 g).2.mt = twist g.mt ∧ (extractMany 624 g).2.mtCursor = 624 := by
  have hval : g.mtCursor.val = 624 := congrArg Fin.val h
  have hmt : g.twistIfDue.mt = twist g.mt := by rw [twistIfDue_mt, if_pos hval]
  have hcursor : g.twistIfDue.mtCursor = 0 := by rw [twistIfDue_mtCursor, if_pos hval]
  have hfirst : extractMany 624 g.twistIfDue = extractMany 624 g := extractMany_succ_twistIfDue hval.le 623
  obtain ⟨houts, hmts, hcursors⟩ := extractMany_to_boundary (n := 624) (s := g.twistIfDue) (by rw [hcursor]; rfl)
  rw [hfirst, hmt] at hmts
  rw [hfirst, hmt, hcursor, Fin.val_zero, List.drop_zero] at houts
  rw [hfirst] at hcursors
  exact ⟨houts, hmts, Fin.ext hcursors⟩

/-! ### MT_CLONE (R110) -/

theorem afterExec_mtClone (s : State) : afterExec .mtClone s = completedWith (performMtClone s) .ok :=
  afterExec_of_performOf rfl rfl

theorem performMtClone_mt (s : State) :
    (performMtClone s).mt = s.mt.setIfInBounds s.mtCidx.val (untemper s.mtTin) := by
  unfold performMtClone
  split <;> split <;> rfl

/-- The part of the array loaded so far grows by the untempered word. -/
theorem performMtClone_take (s : State) : (performMtClone s).mt.toList.take (s.mtCidx.val + 1) =
    s.mt.toList.take s.mtCidx.val ++ [untemper s.mtTin] := by
  rw [performMtClone_mt, Vector.toList_setIfInBounds, List.take_succ_eq_append_getElem (by simp),
    List.take_set_of_le le_rfl, List.getElem_set_self]

theorem performMtClone_mtCidx_of_ne {s : State} (h : s.mtCidx.val ≠ 623) :
    (performMtClone s).mtCidx.val = s.mtCidx.val + 1 := by
  have hlt : s.mtCidx < Fin.last 623 := Fin.lt_def.2 (by rw [Fin.val_last]; omega)
  rw [← Fin.val_add_one_of_lt hlt]
  simp only [performMtClone, if_neg h]
  split <;> rfl

theorem performMtClone_mtCursor_of_eq {s : State} (h : s.mtCidx.val = 623) : (performMtClone s).mtCursor = 624 := by
  simp only [performMtClone, if_pos h, State.setMtCursor_mtCursor]

/-- The rest of a clone load writes the untempered words from MT_CIDX on, and its end seeds the block. -/
theorem cloneMany_to_end {os : List Word} {s : State} (h : s.mtCidx.val + os.length = 624) :
    (cloneMany os s).mt.toList = s.mt.toList.take s.mtCidx.val ++ os.map untemper ∧
    (cloneMany os s).mtCursor = 624 := by
  induction os generalizing s with
  | nil => exact absurd h s.mtCidx.isLt.ne
  | cons o os ih =>
    rw [List.length_cons] at h
    have htake := performMtClone_take (s.setMtTin o)
    have hnext : cloneMany (o :: os) s = cloneMany os (completedWith (performMtClone (s.setMtTin o)) .ok) :=
      congrArg (cloneMany os) (afterExec_mtClone (s.setMtTin o))
    rw [State.setMtTin_mtCidx, State.setMtTin_mt, State.setMtTin_mtTin] at htake
    rw [hnext, List.map_cons, List.append_cons, ← htake]
    by_cases hlast : s.mtCidx.val = 623
    · obtain rfl : os = [] := List.length_eq_zero_iff.1 (by omega)
      refine ⟨?_, performMtClone_mtCursor_of_eq hlast⟩
      rw [List.map_nil, List.append_nil, List.take_of_length_le (by simp [hlast])]
      rfl
    · have hcidx : (performMtClone (s.setMtTin o)).mtCidx.val = s.mtCidx.val + 1 := performMtClone_mtCidx_of_ne hlast
      rw [← hcidx]
      exact ih (s := completedWith (performMtClone (s.setMtTin o)) .ok) (by rw [completedWith, hcidx]; omega)

/-- Settles O43: untempering the tempered words of the twisted array gives that array back, and the two blocks are
then Seeded in the same state. -/
theorem cloneLaw : Obligations.CloneLaw := by
  intro g c hg hc
  obtain ⟨houts, hmt, hcursor⟩ := extractMany_from_boundary hg
  have hload : c.mtCidx.val + (extractMany 624 g).1.length = 624 := by
    rw [hc, houts, List.length_map, Vector.length_toList, Fin.val_zero]
  obtain ⟨hcloneMt, hcloneCursor⟩ := cloneMany_to_end hload
  have hinverse : untemper ∘ temper = id := funext untemper_temper
  have hclone : (cloneMany (extractMany 624 g).1 c).mt = twist g.mt := by
    rw [← Vector.toList_inj, hcloneMt, hc, houts, List.map_map, hinverse, List.map_id, Fin.val_zero, List.take_zero,
      List.nil_append]
  exact ⟨⟨houts, hmt, hcursor⟩, hclone, hcloneCursor, SameSeeded.extractMany
    ⟨hclone.trans hmt.symm, hcloneCursor.trans hcursor.symm, (congrArg Fin.val hcloneCursor).le⟩⟩

end Sys2Proof.Machine
end

section
/-!
PROOFS. The interrupt (60_exceptions.md R117). DONE has one source, the completion of a command, so `irq` can rise
otherwise only by CTRL.IE while DONE stands; and each clearing event leaves one of the two factors 0.
-/

namespace Sys2Proof.Machine

open Sys2Proof

theorem irq_of_not_done {s : State} (h : s.done = false) : s.irq = false := by simp [State.irq, h]

theorem irq_of_not_ie {s : State} (h : s.ie = false) : s.irq = false := by simp [State.irq, h]

/-! ### Completion -/

theorem exec_done {i : Instr} {s t : State} (h : exec i s = .next t) : t.done = true := by
  rcases exec_cases i s with ⟨-, hs⟩ | ⟨-, u, -, hs⟩ | ⟨-, e, -, hs⟩ <;> cases hs.symm.trans h <;> rfl

/-- A pending command and an illegal word alike end with DONE = 1 (40_command_cycle.md R78). -/
theorem engineStep_done {s t : State} (hbusy : s.busy = true) (h : s.engineStep = .next t) : t.done = true := by
  rcases engineStep_cases s with ⟨hidle, -⟩ | ⟨-, i, -, hs⟩ | ⟨-, e, -, hs⟩
  · exact absurd (hbusy.symm.trans hidle) Bool.noConfusion
  · exact exec_done (hs.symm.trans h)
  · cases hs.symm.trans h
    rfl

theorem EngineFrame.ie {s t : State} (h : EngineFrame s t) : t.ie = s.ie := by rw [h]

theorem engineStep_irq {s t : State} (hbusy : s.busy = true) (h : s.engineStep = .next t) : t.irq = s.ie := by
  rw [State.irq, (engineStep_engineFrame h).ie, engineStep_done hbusy h, Bool.and_true]

/-! ### No other source of DONE -/

@[simp] theorem hostRead_done (s : State) (a : Addr) : (s.hostRead a).done = s.done := by
  rcases hostRead_cases s a with ⟨-, h⟩ | ⟨_, -, -, -, h⟩ | ⟨_, -, -, h⟩ <;> simp [h]

theorem writeStatus_done_of_not_done {s : State} (h : s.done = false) (v : Word) : (s.writeStatus v).done = false := by
  rw [State.writeStatus_done, h, Bool.false_and]

theorem writeCtrl_done_of_not_done {s : State} (h : s.done = false) (v : Word) : (s.writeCtrl v).done = false := by
  unfold State.writeCtrl
  split
  next => rfl
  next => exact h

theorem writeIdle_done_of_not_done {s : State} (h : s.done = false) (v : Word) (t : BusTarget) :
    (s.writeIdle v t).done = false := by
  cases t with
  | cmd => rfl
  | status => exact writeStatus_done_of_not_done h v
  | ctrl => exact writeCtrl_done_of_not_done h v
  | id | version | src | dst | len | rlen | key | iv | chain | nonce | ctrLo | ctrHi | mtSeed | mtOut | mtTin | mtTout
  | mtCursor | mtCidx | buf => exact h

theorem hostWrite_done_of_not_done {s : State} (h : s.done = false) (a : Addr) (v : Word) :
    (s.hostWrite a v).done = false := by
  rcases hostWrite_cases s a v with hw | ⟨-, hw⟩ | ⟨-, hw⟩ | ⟨t, -, -, -, -, -, hw⟩ <;> rw [hw]
  · exact h
  · exact writeStatus_done_of_not_done h v
  · exact writeCtrl_done_of_not_done h v
  · exact writeIdle_done_of_not_done h v t

theorem engineStep_raises_done {s t : State} (h : s.engineStep = .next t) (hs : s.done = false) (ht : t.done = true) :
    s.busy = true := by
  rcases engineStep_cases s with ⟨-, hstay⟩ | ⟨hbusy, -⟩ | ⟨hbusy, -⟩
  · cases hstay.symm.trans h
    exact absurd (ht.symm.trans hs) Bool.noConfusion
  · exact hbusy
  · exact hbusy

/-- An event that raises DONE is the engine's turn of a busy block. -/
theorem applyEvent_raises_done {s t : State} {e : BusEvent} (h : s.applyEvent e = .next t) (hs : s.done = false)
    (ht : t.done = true) : e = .engine ∧ s.busy = true := by
  cases e with
  | read a =>
    cases h
    exact absurd (ht.symm.trans ((hostRead_done s a).trans hs)) Bool.noConfusion
  | write a v =>
    cases h
    exact absurd (ht.symm.trans (hostWrite_done_of_not_done hs a v)) Bool.noConfusion
  | engine => exact ⟨rfl, engineStep_raises_done h hs ht⟩
  | reset =>
    cases h
    exact absurd ht Bool.noConfusion

/-- A step that raises DONE completes a command (R117: the only source of the interrupt). -/
theorem step_raises_done {s t : State} (h : step s = .next t) (hs : s.done = false) (ht : t.done = true) :
    s.busy = true ∧ t.busy = false := by
  cases hi : s.inputs with
  | nil =>
    rw [step_nil hi] at h
    exact ⟨engineStep_raises_done h hs ht, engineStep_busy h⟩
  | cons e rest =>
    rw [step_cons hi] at h
    obtain ⟨rfl, hbusy⟩ := applyEvent_raises_done h hs ht
    exact ⟨hbusy, engineStep_busy h⟩

/-- `irq` rises by its factor DONE, at a completion, or by its factor IE alone. -/
theorem step_raises_irq {s t : State} (h : step s = .next t) (hs : s.irq = false) (ht : t.irq = true) :
    (s.busy = true ∧ t.busy = false) ∨ (s.done = true ∧ s.ie = false ∧ t.ie = true) := by
  obtain ⟨htie, htdone⟩ : t.ie = true ∧ t.done = true := Bool.and_eq_true_iff.1 ht
  cases hdone : s.done with
  | false => exact .inl (step_raises_done h hdone htdone)
  | true =>
    have hie : s.ie = false := by simpa [State.irq, hdone] using hs
    exact .inr ⟨rfl, hie, htie⟩

/-! ### The clearing events -/

theorem hostWrite_status (s : State) (v : Word) : s.hostWrite 0x00C v = s.writeStatus v := by
  rw [State.hostWrite, (busTarget_eq_status_iff s.bufBytes 0x00C).2 rfl]
  rfl

theorem hostWrite_ctrl (s : State) (v : Word) : s.hostWrite 0x008 v = s.writeCtrl v := by
  rw [State.hostWrite, (busTarget_eq_ctrl_iff s.bufBytes 0x008).2 rfl]
  rfl

theorem hostWrite_status_irq (s : State) {v : Word} (hv : v.getLsbD 1 = true) : (s.hostWrite 0x00C v).irq = false := by
  rw [hostWrite_status]
  exact irq_of_not_done (by simp [hv])

/-- The next command clears DONE (40_command_cycle.md R70). -/
theorem hostWrite_cmd_irq {s : State} (hidle : s.busy = false) (v : Word) : (s.hostWrite 0x010 v).irq = false := by
  rw [hostWrite_cmd_of_idle hidle]
  exact irq_of_not_done (State.issue_done s v)

theorem softReset_irq (s : State) : s.softReset.irq = false := irq_of_not_ie rfl

/-- Clearing IE masks the interrupt, and so does SRST in the same write, which drops IE (10_state.md R20). -/
theorem hostWrite_ctrl_irq_of_not_ie (s : State) {v : Word} (hv : v.getLsbD 0 = false) :
    (s.hostWrite 0x008 v).irq = false := by
  rw [hostWrite_ctrl, State.writeCtrl]
  split
  next => exact softReset_irq s
  next => exact irq_of_not_ie hv

theorem hostWrite_ctrl_irq_of_srst (s : State) {v : Word} (hv : v.getLsbD 1 = true) :
    (s.hostWrite 0x008 v).irq = false := by
  rw [hostWrite_ctrl, State.writeCtrl, if_pos hv]
  exact softReset_irq s

theorem hardReset_irq (s : State) : s.hardReset.irq = false := irq_of_not_ie rfl

/-- Settles O51: the level by definition, its one source, and each event that clears it. -/
theorem interruptLevel : Obligations.InterruptLevel :=
  ⟨fun _ => rfl, fun _ _ => engineStep_irq, fun _ _ => step_raises_irq, fun s _ => hostWrite_status_irq s,
    fun _ v hidle => hostWrite_cmd_irq hidle v, fun s _ => hostWrite_ctrl_irq_of_not_ie s,
    fun s _ => hostWrite_ctrl_irq_of_srst s, hardReset_irq⟩

end Sys2Proof.Machine
end

section
/-!
PROOFS. A pending command and its operands (70_reset_and_hazards.md R136, R145). A turn that leaves the command pending
is a host access of the busy block, and such an access writes IE, DONE, BUSERR and the host's own side alone; the
soft reset is the host write that ends it, with no completion.
-/

namespace Sys2Proof.Machine

open Sys2Proof

/-! ### The frame of a pending command -/

/-- `t` differs from `s` at most in what a host access of the busy block may write: IE, DONE, BUSERR and the host
side's own fields. -/
def PendingFrame (s t : State) : Prop :=
  t = { s with
    ie := t.ie, done := t.done, buserr := t.buserr, inputs := t.inputs, rdata := t.rdata, busyReads := t.busyReads }

/-- The schedule is on the host's side, so taking an entry off it does not count. -/
theorem PendingFrame.of_setInputs {s t : State} {l : List BusEvent} (h : PendingFrame (s.setInputs l) t) :
    PendingFrame s t := h

theorem hostRead_pendingFrame (s : State) (a : Addr) : PendingFrame s (s.hostRead a) := by
  rcases hostRead_cases s a with ⟨-, h⟩ | ⟨_, -, -, -, h⟩ | ⟨_, -, -, h⟩ <;> rw [h] <;> rfl

/-- SRST would end the command, so a CTRL write that leaves it pending stores IE only. -/
theorem writeCtrl_pendingFrame {s : State} {v : Word} (h : (s.writeCtrl v).busy = true) :
    PendingFrame s (s.writeCtrl v) := by
  unfold State.writeCtrl at h ⊢
  split at h
  next => exact absurd h Bool.noConfusion
  next hsrst =>
    rw [if_neg hsrst]
    rfl

theorem hostWrite_pendingFrame {s : State} {a : Addr} {v : Word} (hbusy : s.busy = true)
    (h : (s.hostWrite a v).busy = true) : PendingFrame s (s.hostWrite a v) := by
  rcases hostWrite_cases s a v with hw | ⟨-, hw⟩ | ⟨-, hw⟩ | ⟨_, -, hidle, -⟩
  · rw [hw]
    rfl
  · rw [hw]
    rfl
  · rw [hw] at h ⊢
    exact writeCtrl_pendingFrame h
  · exact absurd (hbusy.symm.trans hidle) Bool.noConfusion

/-- The engine's turn and the RESET pulse end the command; only the host's accesses can leave it pending. -/
theorem applyEvent_pendingFrame {s t : State} {e : BusEvent} (h : s.applyEvent e = .next t) (hbusy : s.busy = true)
    (hpending : t.busy = true) : PendingFrame s t := by
  cases e with
  | read a =>
    cases h
    exact hostRead_pendingFrame s a
  | write a v =>
    cases h
    exact hostWrite_pendingFrame hbusy hpending
  | engine => exact absurd (hpending.symm.trans (engineStep_busy h)) Bool.noConfusion
  | reset =>
    cases h
    exact absurd hpending Bool.noConfusion

/-- Settles O14: the engine's turn would end the command, and the entry taken instead keeps the pending frame. -/
theorem operandsFrozenWhileBusy : Obligations.OperandsFrozenWhileBusy := by
  intro s t hbusy h hpending
  cases hi : s.inputs with
  | nil =>
    rw [step_nil hi] at h
    exact absurd (hpending.symm.trans (engineStep_busy h)) Bool.noConfusion
  | cons e rest =>
    rw [step_cons hi] at h
    exact (applyEvent_pendingFrame h hbusy hpending).of_setInputs

/-! ### The soft reset of a busy block -/

theorem hostWrite_ctrl_of_srst (s : State) {v : Word} (hv : v.getLsbD 1 = true) :
    s.hostWrite 0x008 v = s.softReset := by
  rw [hostWrite_ctrl, State.writeCtrl, if_pos hv]

theorem engineStep_of_idle {s : State} (hidle : s.busy = false) : s.engineStep = .next s := by
  rcases engineStep_cases s with ⟨-, hs⟩ | ⟨hbusy, -⟩ | ⟨hbusy, -⟩
  · exact hs
  · exact absurd (hbusy.symm.trans hidle) Bool.noConfusion
  · exact absurd (hbusy.symm.trans hidle) Bool.noConfusion

/-- A step whose entry is an SRST write is the soft reset, in the busy and in the idle block. -/
theorem step_srst {s : State} {v : Word} {rest : List BusEvent} (hi : s.inputs = .write 0x008 v :: rest)
    (hv : v.getLsbD 1 = true) : step s = .next (s.setInputs rest).softReset :=
  (step_cons hi).trans (congrArg Host.Outcome.next (hostWrite_ctrl_of_srst _ hv))

/-- Settles O53: the soft reset leaves the block idle with DONE, ERR and IE 0, so the engine has no command left. -/
theorem softResetAbandonsCommand : Obligations.SoftResetAbandonsCommand := by
  intro s v rest _ hi hv
  have hidle : (s.setInputs rest).softReset.busy = false := rfl
  exact ⟨_, step_srst hi hv, hidle, rfl, rfl, softReset_irq _, rfl, engineStep_of_idle hidle⟩

end Sys2Proof.Machine
end

section
/-!
PROOFS. The command words (30_encoding.md R61 to R65). A word whose reserved bits are 0 is its three fields, and the
encoder builds the word of its fields; each row of the opcode map then says which fields it takes.
-/

namespace Sys2Proof

/-! ### A word and its fields -/

/-- OPC, INIT and BS stand in disjoint bits, so the word is their weighted sum. -/
theorem encodeFields_toNat {opc bs : Nat} (hopc : opc < 256) (hbs : bs < 256) (init : Bool) :
    (encodeFields opc init bs).toNat = opc + 2 ^ 8 * init.toNat + 2 ^ 16 * bs := by
  have hinit := init.toNat_lt
  have hlow : opc ||| init.toNat <<< 8 = init.toNat <<< 8 + opc := by
    rw [Nat.or_comm, Nat.shiftLeft_add_eq_or_of_lt hopc]
  have hlt : init.toNat <<< 8 + opc < 2 ^ 16 := by
    rw [Nat.shiftLeft_eq]
    omega
  have hword : opc ||| init.toNat <<< 8 ||| bs <<< 16 = bs <<< 16 + (init.toNat <<< 8 + opc) := by
    rw [hlow, Nat.or_comm, Nat.shiftLeft_add_eq_or_of_lt hlt]
  have hopc' : opc % 2 ^ 32 = opc := Nat.mod_eq_of_lt (by omega)
  have hinit' : init.toNat % 2 ^ 32 = init.toNat := Nat.mod_eq_of_lt (by omega)
  have hbs' : bs % 2 ^ 32 = bs := Nat.mod_eq_of_lt (by omega)
  simp only [encodeFields, BitVec.toNat_or, BitVec.toNat_shiftLeft, BitVec.toNat_ofNat, hopc', hinit', hbs',
    Nat.shiftLeft_eq] at hword ⊢
  rw [Nat.mod_eq_of_lt (by omega), Nat.mod_eq_of_lt (by omega), hword]
  omega

section
variable {opc bs : Nat} (hopc : opc < 256) (hbs : bs < 256) (init : Bool)
include hopc hbs

@[simp] theorem opcField_encodeFields : opcField (encodeFields opc init bs) = opc := by
  have hinit := init.toNat_lt
  rw [opcField_eq_mod, encodeFields_toNat hopc hbs]
  omega

@[simp] theorem bsField_encodeFields : bsField (encodeFields opc init bs) = bs := by
  have hinit := init.toNat_lt
  rw [bsField_eq_div_mod, encodeFields_toNat hopc hbs]
  omega

@[simp] theorem initField_encodeFields : initField (encodeFields opc init bs) = init := by
  rw [Bool.eq_iff_iff, initField_eq_true_iff, encodeFields_toNat hopc hbs]
  cases init <;> simp <;> omega

@[simp] theorem reservedZero_encodeFields : reservedZero (encodeFields opc init bs) = true := by
  have hinit := init.toNat_lt
  rw [reservedZero_eq_true_iff, encodeFields_toNat hopc hbs]
  omega

end

/-- A word whose reserved bits are 0 has no bits but its fields. -/
theorem encodeFields_fields {w : Word} (hres : reservedZero w = true) :
    encodeFields (opcField w) (initField w) (bsField w) = w := by
  have hinit := initField_eq_true_iff w
  rw [reservedZero_eq_true_iff] at hres
  apply BitVec.eq_of_toNat_eq
  rw [encodeFields_toNat (by rw [opcField_eq_mod]; omega) (by rw [bsField_eq_div_mod]; omega), opcField_eq_mod,
    bsField_eq_div_mod]
  cases hi : initField w <;> simp [hi] at hinit ⊢ <;> omega

/-! ### The rows of the opcode map (R65) -/

theorem decodePlain_eq_ok_iff (w : Word) (i j : Instr) :
    decodePlain w i = .ok j ↔ initField w = false ∧ bsField w = 0 ∧ i = j := by
  unfold decodePlain
  split
  next hinit => simp [hinit]
  next hinit => split <;> simp_all

theorem decodeInit_eq_ok_iff (w : Word) (i : Bool → Instr) (j : Instr) :
    decodeInit w i = .ok j ↔ bsField w = 0 ∧ i (initField w) = j := by
  unfold decodeInit
  split <;> simp_all

theorem decodeBs_eq_ok_iff (w : Word) (i : Nat → Instr) (j : Instr) :
    decodeBs w i = .ok j ↔ initField w = false ∧ i (bsField w) = j := by
  unfold decodeBs
  split <;> simp_all

/-! ### Decoding undoes encoding -/

/-- The decoder on the word of given fields goes by its row. -/
theorem decode_encode {i : Instr} (hwf : i.wf = true) : decode (encode i) = .ok i := by
  cases i with
  | pad bs =>
    have hbs : bs < 256 := of_decide_eq_true hwf
    simp [encode, decode, decodeBs_eq_ok_iff, hbs]
  | cbcEnc | cbcDec | ctrXf => simp [encode, decode, decodeInit_eq_ok_iff]
  | nop | ecbEnc | ecbDec | strip | mtSeed | mtExtract | mtTemper | mtUntemper | mtClone =>
    simp [encode, decode, decodePlain_eq_ok_iff]

/-- Settles O1: the fields of the encoded word are the command's own, and its row takes them. -/
theorem decodeOfEncode : Obligations.DecodeOfEncode := fun _ => decode_encode

/-! ### Encoding undoes decoding -/

/-- BS is a byte. -/
theorem bsField_lt (w : Word) : bsField w < 256 := by
  rw [bsField_eq_div_mod]
  omega

theorem decode_reservedZero {w : Word} {i : Instr} (h : decode w = .ok i) : reservedZero w = true := by
  by_contra hres
  simp [decode, hres] at h

/-- Settles O2: the row of the word fixes the fields that the encoder puts back. -/
theorem encodeOfDecode : Obligations.EncodeOfDecode := by
  intro w i h
  have hfields := encodeFields_fields (decode_reservedZero h)
  have hbs := bsField_lt w
  rw [decode, if_pos (decode_reservedZero h)] at h
  split at h
  case h_14 => cases h
  case h_7 hopc =>
    obtain ⟨hinit, rfl⟩ := (decodeBs_eq_ok_iff w _ _).1 h
    rw [hopc, hinit] at hfields
    exact ⟨decide_eq_true hbs, hfields⟩
  case h_4 hopc | h_5 hopc | h_6 hopc =>
    obtain ⟨hbs0, rfl⟩ := (decodeInit_eq_ok_iff w _ _).1 h
    rw [hopc, hbs0] at hfields
    exact ⟨rfl, hfields⟩
  all_goals
    rename_i hopc
    obtain ⟨hinit, hbs0, rfl⟩ := (decodePlain_eq_ok_iff w _ _).1 h
    rw [hopc, hinit, hbs0] at hfields
    exact ⟨rfl, hfields⟩

/-- Settles O4: each word is the encoding of a well-formed command. -/
theorem tableWordsDecode : Obligations.TableWordsDecode :=
  ⟨decode_encode (i := .nop) rfl, decode_encode (i := .ecbEnc) rfl, decode_encode (i := .ecbDec) rfl,
    decode_encode (i := .cbcEnc false) rfl, decode_encode (i := .cbcEnc true) rfl,
    decode_encode (i := .cbcDec true) rfl, decode_encode (i := .ctrXf true) rfl, decode_encode (i := .pad 16) rfl,
    decode_encode (i := .pad 0) rfl, decode_encode (i := .strip) rfl, decode_encode (i := .mtSeed) rfl,
    decode_encode (i := .mtExtract) rfl, decode_encode (i := .mtTemper) rfl, decode_encode (i := .mtUntemper) rfl,
    decode_encode (i := .mtClone) rfl⟩

end Sys2Proof
end

section
/-!
PROOFS. What each command writes (30_encoding.md R65) and what it leaves in it. First the write set of every command,
then the results of the commands that complete with OK, in the order of the opcode map.
-/

namespace Sys2Proof.Machine

open Sys2Proof

/-! ### The write set of a command (30_encoding.md R65) -/

/-- `s` with the state that command `i` may write taken from `t`; the completion is not counted. -/
def withWrites : Instr → State → State → State
  | .nop, s, _ => s
  | .ecbEnc, s, t | .ecbDec, s, t | .pad _, s, t => { s with buf := t.buf, rlen := t.rlen }
  | .cbcEnc _, s, t | .cbcDec _, s, t => { s with buf := t.buf, rlen := t.rlen, chain := t.chain }
  | .ctrXf _, s, t => { s with buf := t.buf, rlen := t.rlen, ctr := t.ctr }
  | .strip, s, t => { s with rlen := t.rlen }
  | .mtSeed, s, t => { s with mt := t.mt, mtCursor := t.mtCursor, mtCidx := t.mtCidx }
  | .mtExtract, s, t => { s with mt := t.mt, mtCursor := t.mtCursor, mtOut := t.mtOut }
  | .mtTemper, s, t | .mtUntemper, s, t => { s with mtTout := t.mtTout }
  | .mtClone, s, t => { s with mt := t.mt, mtCursor := t.mtCursor, mtCidx := t.mtCidx, mtTout := t.mtTout }

theorem withWrites_self (i : Instr) (s : State) : withWrites i s s = s := by cases i <;> rfl

theorem withWrites_completedWith (i : Instr) (s t : State) (e : ErrCode) :
    withWrites i s (completedWith t e) = withWrites i s t := by cases i <;> rfl

/-- `Perform` writes nothing outside the command's write set. -/
theorem performOf_eq_withWrites {i : Instr} {s u : State} (h : performOf i s = .ok u) : u = withWrites i s u := by
  cases i with
  | strip =>
    rcases performStrip_cases s with ⟨-, hs⟩ | ⟨-, hs⟩ <;> cases hs.symm.trans h
    rfl
  | mtExtract =>
    rcases performMtExtract_cases s with ⟨-, hs⟩ | ⟨-, hs⟩ <;> cases hs.symm.trans h
    rcases twistIfDue_cases s with ⟨-, hd⟩ | ⟨-, hd⟩ <;> simp [hd, withWrites, State.ext_iff]
  | mtClone =>
    cases h
    unfold performMtClone
    split <;> split <;> simp [withWrites, State.ext_iff]
  | mtSeed =>
    cases h
    simp [withWrites, State.ext_iff, performMtSeed]
  | nop | mtTemper | mtUntemper | pad =>
    cases h
    rfl
  | ecbEnc | ecbDec =>
    cases h
    simp [withWrites, State.ext_iff, performEcb]
  | cbcEnc =>
    cases h
    simp [withWrites, State.ext_iff, performCbcEnc]
  | cbcDec =>
    cases h
    simp [withWrites, State.ext_iff, performCbcDec]
  | ctrXf =>
    cases h
    simp [withWrites, State.ext_iff, performCtr]

/-- However a command ends, it writes its write set and the completion. -/
theorem exec_eq_withWrites {i : Instr} {s t : State} (h : exec i s = .next t) :
    t = completedWith (withWrites i s t) t.err := by
  rcases exec_cases i s with ⟨-, hs⟩ | ⟨-, u, hu, hs⟩ | ⟨-, e, -, hs⟩ <;> cases hs.symm.trans h <;>
    rw [withWrites_completedWith]
  · rw [withWrites_self]
    rfl
  · rw [← performOf_eq_withWrites hu]
    rfl
  · rw [withWrites_self]
    rfl

/-- The commands with no buffer byte in their write set. -/
theorem exec_readByte_of_noStore {i : Instr} {s t : State} (h : exec i s = .next t)
    (hi : i ∈ [Instr.nop, .strip, .mtSeed, .mtExtract, .mtTemper, .mtUntemper, .mtClone]) (o : Nat) :
    t.readByte o = s.readByte o := by
  simp only [List.mem_cons, List.not_mem_nil, or_false] at hi
  rw [exec_eq_withWrites h]
  rcases hi with rfl | rfl | rfl | rfl | rfl | rfl | rfl <;> rfl

theorem notMem_of_exec_readByte_ne {i : Instr} {s t : State} (h : exec i s = .next t)
    (hne : ∃ o, t.readByte o ≠ s.readByte o) :
    i ∉ [.nop, .strip, .mtSeed, .mtExtract, .mtTemper, .mtUntemper, .mtClone] := by
  obtain ⟨o, hne⟩ := hne
  exact fun hi => hne (exec_readByte_of_noStore h hi o)

/-- Settles O12: the engine's frame, and register by register the write sets that hold it. -/
theorem commandFrame : Obligations.CommandFrame := by
  intro i s t h
  have hframe : t = _ := exec_engineFrame h
  have hwrites := exec_eq_withWrites h
  refine ⟨?_, ?_, ?_, ?_, ?_, ?_, ?_, ?_, notMem_of_exec_readByte_ne h⟩
  · rw [hframe]
    simp
  all_goals
    rw [hwrites]
    cases i <;> simp [withWrites, completedWith]

end Sys2Proof.Machine
end

section
/-!
PROOFS. The results of the commands (40_command_cycle.md R76, R80; 41_ecb_cbc.md R83 to R86; 42_ctr.md R92;
43_pkcs7.md R97, R98; 44_mt19937.md R106 to R110). A command whose checks pass completes in the state of its `Perform`;
what stands in the output comes from the loops' lemmas, and the rest of the state from the write set.
-/

namespace Sys2Proof.Machine

open Sys2Proof

/-! ### OVERLAP (40_command_cycle.md R76) -/

theorem bufferCheck_eq_overlap_iff (s : State) (out : Option Nat) :
    s.bufferCheck out = .overlap ↔ s.rangeOk out = true ∧ s.overlaps out = true := by
  rcases bufferCheck_cases s out with ⟨hr, h⟩ | ⟨hr, ho, h⟩ | ⟨hr, ho, h⟩ <;> simp [*]

section
variable {s t : State} {i : Instr} {out : Option Nat}

theorem exec_of_overlap (hcheck : checkOf i s = s.bufferCheck out) (hrange : s.rangeOk out = true)
    (hoverlap : s.overlaps out = true) : exec i s = .next (completedWith s .overlap) :=
  exec_of_check (hcheck.trans ((bufferCheck_eq_overlap_iff s out).2 ⟨hrange, hoverlap⟩)) (by decide)

theorem err_ne_overlap (hcheck : checkOf i s = s.bufferCheck out) (hapart : ¬ s.overlaps out = true)
    (h : exec i s = .next t) : t.err ≠ .overlap := by
  refine err_ne_of_check_ne h ?_ (by decide) (by decide)
  rw [hcheck, ne_eq, bufferCheck_eq_overlap_iff]
  exact fun ho => hapart ho.2

end

/-- With output length LEN the ranges overlap exactly when they are not apart. -/
theorem overlaps_len_iff (s : State) :
    s.overlaps (some s.lenBytes) = true ↔ ¬ Apart s.src.toNat s.dst.toNat s.len.toNat := by
  rw [overlaps_some]
  unfold Apart State.lenBytes
  omega

/-- PAD's output is never empty. -/
theorem overlaps_pad_iff {bs : Nat} (hbs : 0 < bs) (s : State) :
    s.overlaps (some (s.lenBytes + padValue bs s.lenBytes)) = true ↔
      s.src.toNat ≠ s.dst.toNat ∧ 0 < s.len.toNat ∧
        s.src.toNat < s.dst.toNat + (s.len.toNat + padValue bs s.len.toNat) ∧
        s.dst.toNat < s.src.toNat + s.len.toNat := by
  obtain ⟨hpos, -, -⟩ := padValue_spec hbs s.len.toNat
  rw [overlaps_some]
  unfold State.lenBytes
  omega

/-- Settles O17: `Overlaps` on integers for the three output lengths, LEN, LEN + p and none. -/
theorem overlapError : Obligations.OverlapError := by
  intro s init bs
  refine ⟨fun i hi hlen hsrc hdst => ⟨fun hover => ?_, fun hapart _ => ?_⟩, ?_, fun _ => err_ne_overlap rfl (by simp)⟩
  · exact exec_of_overlap (checkOf_mode hi hlen) ((rangeOk_some s _).2 ⟨hsrc, hdst⟩) ((overlaps_len_iff s).2 hover)
  · exact err_ne_overlap (checkOf_mode hi hlen) fun ho => (overlaps_len_iff s).1 ho hapart
  · rintro n hbs rfl hsrc hdst
    refine ⟨fun hover => ?_, fun hapart _ => ?_⟩
    · exact exec_of_overlap (checkOf_pad hbs s) ((rangeOk_some s _).2 ⟨hsrc, hdst⟩) ((overlaps_pad_iff hbs s).2 hover)
    · refine err_ne_overlap (checkOf_pad hbs s) fun ho => ?_
      rw [overlaps_pad_iff hbs, padValue] at ho
      omega

/-! ### NOP (40_command_cycle.md R80) -/

/-- A command whose checks pass and whose `Perform` succeeds completes in the state that `Perform` answers. -/
theorem exec_of_performOf {i : Instr} {s u : State} (hc : checkOf i s = .ok) (hu : performOf i s = .ok u) :
    exec i s = .next (completedWith u .ok) := by
  rw [exec_of_performOf_ok hu, if_pos hc]

/-- A `Perform` that fails reports its error. -/
theorem exec_of_performOf_error {i : Instr} {s : State} {e : ErrCode} (hc : checkOf i s = .ok)
    (he : performOf i s = .error e) : exec i s = .next (completedWith s e) := by
  rw [exec_eq_finish, State.finish, if_pos hc, he]
  rfl

/-- Settles O19: NOP has no check and its `Perform` changes nothing. -/
theorem nopCompletes : Obligations.NopCompletes := fun _ => exec_of_performOf rfl rfl

/-! ### ECB (41_ecb_cbc.md R83, R84) -/

section
variable {s : State} (hlen : s.len.toNat % 16 = 0) (hops : CopyOperandsOk s)
include hlen hops

theorem exec_wholeBlock_of_ok {init : Bool} {i : Instr} {u : State} (hi : i ∈ wholeBlockCommands init)
    (hu : performOf i s = .ok u) : exec i s = .next (completedWith u .ok) :=
  exec_of_performOf ((checkOf_wholeBlock hi s).trans ((blockCheck_eq_ok s).2 ⟨hlen, hops⟩)) hu

/-- ECB for either block function. -/
theorem ecb_result {i : Instr} {f : Block → Block} (hi : i ∈ wholeBlockCommands true)
    (hu : performOf i s = .ok (performEcb f s)) :
    ∃ t, exec i s = .next t ∧
      (∀ j, j < s.len.toNat / 16 → t.readBlock (s.dst.toNat + 16 * j) = f (s.readBlock (s.src.toNat + 16 * j))) ∧
      (∀ o, Outside s.dst.toNat s.len.toNat o → t.readByte o = s.readByte o) ∧
      t = completedWith { s with buf := t.buf, rlen := s.len } .ok := by
  refine ⟨_, exec_wholeBlock_of_ok hlen hops hi hu, fun j hj => performEcb_block f hops hj, fun o ho => ?_, ?_⟩
  · have hbyte := ecbLoop_readByte_outside f s.srcOff s.dstOff (s.lenBytes / 16) s o
      (by unfold Outside at ho; unfold State.dstOff State.lenBytes; omega)
    exact hbyte
  · simp [completedWith, performEcb]

end

/-- Settles O20: ECB with Enc under KEY. -/
theorem ecbEncResult : Obligations.EcbEncResult := fun _ hlen hops =>
  ecb_result hlen hops (by simp [wholeBlockCommands]) rfl

/-- Settles O21: ECB with Dec under KEY. -/
theorem ecbDecResult : Obligations.EcbDecResult := fun _ hlen hops =>
  ecb_result hlen hops (by simp [wholeBlockCommands]) rfl

/-! ### CBC (41_ecb_cbc.md R85, R86) -/

section
variable {s : State} {o : Nat} (init : Bool)

theorem performCbcEnc_readByte_outside (e : Block → Block) (ho : Outside s.dst.toNat s.len.toNat o) :
    (performCbcEnc e init s).readByte o = s.readByte o := by
  rw [performCbcEnc, readByte_setRlen, cbcEncLoop_readByte_outside, readByte_initChain]
  unfold Outside at ho
  unfold State.dstOff State.lenBytes
  omega

theorem performCbcDec_readByte_outside (d : Block → Block) (ho : Outside s.dst.toNat s.len.toNat o) :
    (performCbcDec d init s).readByte o = s.readByte o := by
  rw [performCbcDec, readByte_setRlen, cbcDecLoop_readByte_outside, readByte_initChain]
  unfold Outside at ho
  unfold State.dstOff State.lenBytes
  omega

/-- The offset of the last block of a message of whole blocks. -/
theorem lastBlock_offset {n : Nat} (hn : n % 16 = 0) : 16 * (n / 16 - 1) = n - 16 := by omega

theorem performCbcEnc_chain (e : Block → Block) (hlen : s.len.toNat % 16 = 0) :
    (performCbcEnc e init s).chain = if s.len.toNat = 0 then (if init then s.iv else s.chain)
      else (performCbcEnc e init s).readBlock (s.dst.toNat + (s.len.toNat - 16)) := by
  have hchain := cbcEncLoop_chain e s.srcOff s.dstOff (s.lenBytes / 16) (s.initChain init)
  have hzero : s.len.toNat / 16 = 0 ↔ s.len.toNat = 0 := by omega
  rw [State.initChain_chain, State.lenBytes, State.dstOff, lastBlock_offset hlen] at hchain
  simp only [hzero] at hchain
  exact hchain

theorem performCbcDec_chain (d : Block → Block) (hlen : s.len.toNat % 16 = 0) (hops : CopyOperandsOk s) :
    (performCbcDec d init s).chain = if s.len.toNat = 0 then (if init then s.iv else s.chain)
      else s.readBlock (s.src.toNat + (s.len.toNat - 16)) := by
  have hchain := cbcDecLoop_chain d _ _ _ (s.initChain init) hops.apart_blocks
  have hzero : s.len.toNat / 16 = 0 ↔ s.len.toNat = 0 := by omega
  rw [State.initChain_chain, readBlock_initChain, lastBlock_offset hlen] at hchain
  simp only [hzero] at hchain
  exact hchain

end

/-- Settles O22: the CBC_ENC loop's blocks, CHAIN and frame. -/
theorem cbcEncResult : Obligations.CbcEncResult := fun init s hlen hops =>
  ⟨_, exec_wholeBlock_of_ok (init := init) hlen hops (by simp [wholeBlockCommands]) rfl,
    fun _ => performCbcEnc_block _ init hops, performCbcEnc_chain init _ hlen,
    fun _ => performCbcEnc_readByte_outside init _, by simp [completedWith, performCbcEnc]⟩

/-- Settles O23: the CBC_DEC loop's blocks, CHAIN and frame. -/
theorem cbcDecResult : Obligations.CbcDecResult := fun init s hlen hops =>
  ⟨_, exec_wholeBlock_of_ok (init := init) hlen hops (by simp [wholeBlockCommands]) rfl,
    fun _ => performCbcDec_block _ init hops, performCbcDec_chain init _ hlen hops,
    fun _ => performCbcDec_readByte_outside init _, by simp [completedWith, performCbcDec]⟩

/-! ### CTR (42_ctr.md R92) -/

theorem initCtr_ctr_eq_ofNat (s : State) (init : Bool) :
    (s.initCtr init).ctr = BitVec.ofNat 64 (if init then 0 else s.ctr.toNat) := by
  cases init <;> simp

/-- Settles O24: the bytes, CTR and frame of a CTR_XF that completes with OK. -/
theorem ctrXfResult : Obligations.CtrXfResult := by
  intro init s hops
  obtain ⟨t, h, hok⟩ := ctrXf_completes init hops
  refine ⟨t, h, fun k hk => ?_, ?_, fun o => ctrXf_byte_outside h hok, ?_⟩
  · rw [ctrXf_byte h hok hk, initCtr_ctr_eq_ofNat, keystreamByte_ofNat]
  · rw [ctrXf_ctr h hok, State.initCtr_ctr]
  · obtain ⟨-, rfl⟩ := ctrXf_ok_iff.1 ⟨h, hok⟩
    simp [completedWith, performCtr]

/-! ### PAD and STRIP (43_pkcs7.md R97, R98) -/

theorem performPad_readByte_outside {s : State} {bs o : Nat}
    (ho : Outside s.dst.toNat (s.len.toNat + padValue bs s.len.toNat) o) :
    (performPad bs s).readByte o = s.readByte o := by
  simp only [performPad, State.dstOff, State.lenBytes, readByte_setRlen]
  rw [readByte_memWrite, if_neg]
  simp only [List.length_append, memRead_length, List.length_replicate]
  unfold Outside at ho
  omega

/-- Settles O33: the range and overlap premises pass PAD's checks. -/
theorem padResult : Obligations.PadResult := by
  rintro s bs p hbs - rfl hsrc hdst hapart
  change s.dst.toNat + (s.len.toNat + padValue bs s.len.toNat) ≤ s.bufBytes at hdst
  change _ ∨ _ ∨ _ ∨ s.dst.toNat + (s.len.toNat + padValue bs s.len.toNat) ≤ s.src.toNat at hapart
  obtain ⟨hpos, hle, -⟩ := padValue_spec hbs s.len.toNat
  have hrange := (rangeOk_some s (s.lenBytes + padValue bs s.lenBytes)).2 ⟨hsrc, hdst⟩
  have hnoOverlap : s.overlaps (some (s.lenBytes + padValue bs s.lenBytes)) = false := by
    rw [← Bool.not_eq_true, overlaps_pad_iff hbs]
    omega
  have hcheck : checkOf (.pad bs) s = .ok :=
    (checkOf_pad hbs s).trans ((bufferCheck_eq_ok s _).2 ⟨hrange, hnoOverlap⟩)
  exact ⟨hpos, hle, _, exec_of_performOf hcheck rfl, fun _ => performPad_readByte_data,
    fun _ => performPad_readByte_padding, fun _ => performPad_readByte_outside, rfl⟩

/-- Settles O34: with the input inside the buffer, STRIP completes as its `Perform` answers. -/
theorem stripResult : Obligations.StripResult := by
  intro s hsrc
  have hcheck : checkOf .strip s = .ok := (bufferCheck_eq_ok s none).2 ⟨(rangeOk_none s).2 hsrc, overlaps_none s⟩
  rcases performStrip_cases s with ⟨hvalid, hp⟩ | ⟨hinvalid, hp⟩
  · exact ⟨fun _ => exec_of_performOf hcheck hp, fun hn => absurd hvalid hn⟩
  · exact ⟨fun hv => absurd hv hinvalid, fun _ => exec_of_performOf_error hcheck hp⟩

/-! ### The MT commands (44_mt19937.md R106 to R110) -/

/-- Settles O39: MT_SEED has no check and its `Perform` cannot fail. -/
theorem mtSeedResult : Obligations.MtSeedResult := fun _ => exec_of_performOf (i := .mtSeed) rfl rfl

/-- Settles O41: these two commands have no check; the examples are the spec's. -/
theorem mtTemperUntemperResult : Obligations.MtTemperUntemperResult :=
  ⟨fun _ => exec_of_performOf (i := .mtTemper) rfl rfl, fun _ => exec_of_performOf (i := .mtUntemper) rfl rfl,
    by decide, by decide, by decide⟩

theorem performMtExtract_of_unseeded {s : State} (h : s.mtCursor.val = 625) :
    performMtExtract s = .error .notSeeded :=
  if_pos (by omega)

/-- Settles O40: with the cursor inside the array there is no twist to make, at 624 the twist sets it to 0, and at 625
`Perform` fails. -/
theorem mtExtractResult : Obligations.MtExtractResult := by
  intro s
  refine ⟨fun hlt => ?_, fun hdue => ?_, fun hunseeded => ?_⟩
  · have hp := performMtExtract_of_seeded hlt.le
    rw [twistIfDue_of_ne hlt.ne, getD_eq_getElem _ _ _ hlt] at hp
    exact exec_of_performOf (i := .mtExtract) rfl hp
  · have hp := performMtExtract_of_seeded hdue.le
    have htwist : s.twistIfDue = (s.setMt (twist s.mt)).setMtCursor 0 := if_pos hdue
    rw [htwist, State.setMtCursor_mt, State.setMt_mt, State.setMtCursor_mtCursor, Fin.val_zero,
      getD_eq_getElem _ _ _ (Nat.zero_lt_succ _)] at hp
    generalize twist s.mt = twisted at hp ⊢
    exact exec_of_performOf (i := .mtExtract) rfl hp
  · exact exec_of_performOf_error (i := .mtExtract) rfl (performMtExtract_of_unseeded hunseeded)

/-- An index in range is set. -/
theorem setIfInBounds_eq_set {α : Type} {n : Nat} (v : Vector α n) (i : Nat) (h : i < n) (x : α) :
    v.setIfInBounds i x = v.set i x h := by
  ext j hj
  rw [Vector.getElem_setIfInBounds hj, Vector.getElem_set]

/-- `Perform_MT_CLONE` register by register. -/
theorem performMtClone_eq (s : State) : performMtClone s = { s with
    mt := s.mt.set s.mtCidx.val (untemper s.mtTin)
    mtTout := untemper s.mtTin
    mtCidx := if s.mtCidx = 623 then 0 else s.mtCidx + 1
    mtCursor := if s.mtCidx = 623 then 624 else if s.mtCidx = 0 then 625 else s.mtCursor } := by
  have hfirst : s.mtCidx.val = 0 ↔ s.mtCidx = 0 := Fin.val_eq_zero_iff
  have hlast : s.mtCidx.val = 623 ↔ s.mtCidx = 623 := by rw [Fin.ext_iff]; rfl
  simp only [← setIfInBounds_eq_set, performMtClone, hfirst, hlast]
  by_cases h0 : s.mtCidx = 0 <;> by_cases h1 : s.mtCidx = 623 <;> simp [State.ext_iff, h0, h1]

/-- Settles O42: MT_CLONE has no check and its `Perform` cannot fail. -/
theorem mtCloneResult : Obligations.MtCloneResult := fun s =>
  exec_of_performOf (i := .mtClone) rfl (congrArg Except.ok (performMtClone_eq s))

end Sys2Proof.Machine
end

section
/-!
PROOFS. The host's accesses (20_memory.md R42 to R52) and the STATUS word (10_state.md R21). The address map is a
list of registers and the buffer; what an access does at a mapped address is the model's `busValue` or `writeIdle` of
its target, and these are the sums and bytes that the spec's registers are made of.
-/

namespace Sys2Proof.Machine

open Sys2Proof

/-! ### The targets of the map -/

theorem busTarget_of_registerAt {a : Addr} {t : BusTarget} (h : registerAt a.toNat = some t) (size : Nat) :
    busTarget size a = some t := by
  obtain ⟨haligned, hwindow⟩ := registerAt_eq_some_bounds h
  rcases busTarget_cases size a with ⟨hmod, -⟩ | ⟨-, hlo, -⟩ | ⟨-, -, hreg⟩
  · exact absurd haligned hmod
  · omega
  · rw [hreg, h]

theorem busTarget_of_buffer {size : Nat} {a : Addr} (haligned : a.toNat % 4 = 0) (hlo : 0x1000 ≤ a.toNat)
    (hhi : a.toNat < 0x1000 + size) : busTarget size a = some (.buf (a.toNat - 0x1000)) := by
  rw [busTarget, if_pos haligned, if_pos ⟨hlo, hhi⟩]

/-- The addresses that answer with their value while BUSY = 1 (20_memory.md R47, R50). -/
def readableBusyAddrs : List Addr := [0x000, 0x004, 0x008, 0x00C, 0x010, 0x030, 0x034, 0x038, 0x03C]

theorem readableBusy_registerAt_iff {n : Nat} {t : BusTarget} (h : registerAt n = some t) :
    t.readableBusy = true ↔ n ∈ readableBusyAddrs.map BitVec.toNat := by
  unfold registerAt at h
  split at h <;> cases h <;> decide

theorem readableBusy_busTarget_iff {size : Nat} {a : Addr} {t : BusTarget} (ht : busTarget size a = some t) :
    t.readableBusy = true ↔ a ∈ readableBusyAddrs := by
  rcases busTarget_cases size a with ⟨-, h⟩ | ⟨-, hlo, -, h⟩ | ⟨-, -, h⟩ <;> rw [h] at ht
  · cases ht
  · cases ht
    have hbelow : ∀ b ∈ readableBusyAddrs, b.toNat < 0x1000 := by simp [readableBusyAddrs]
    exact iff_of_false Bool.false_ne_true fun ha => absurd hlo (Nat.not_le.2 (hbelow a ha))
  · rw [readableBusy_registerAt_iff ht, List.mem_map_of_injective BitVec.toNat_injective]

/-! ### Reads by target (R47, R50) -/

theorem hostRead_of_readable {s : State} {a : Addr} {t : BusTarget} (ht : busTarget s.bufBytes a = some t)
    (h : s.busy = false ∨ t.readableBusy = true) : s.hostRead a = s.setRdata (s.busValue t) := by
  have hshown : (s.busy && !t.readableBusy) = false := by simpa [or_iff_not_imp_left] using h
  simp [State.hostRead, ht, hshown]

theorem hostRead_of_hidden {s : State} {a : Addr} (hbusy : s.busy = true)
    (hlegal : ¬ (a.toNat % 4 ≠ 0 ∨ Unmapped s.bufBytes a)) (ha : a ∉ readableBusyAddrs) :
    s.hostRead a = s.drawRead := by
  rw [← busTarget_eq_none_iff] at hlegal
  obtain ⟨t, ht⟩ := Option.ne_none_iff_exists'.1 hlegal
  rw [← readableBusy_busTarget_iff ht] at ha
  simp [State.hostRead, ht, hbusy, ha]

/-! ### The words of the registers (R42) -/

theorem wordOfBytes_eq_wordSum {n : Nat} (r : Vector Byte n) (w : Nat) (h : 4 * w + 3 < n) :
    wordOfBytes r w = wordSum r[4 * w] r[4 * w + 1] r[4 * w + 2] r[4 * w + 3] := by
  rw [wordSum_eq_w32, wordOfBytes, getD_eq_getElem, getD_eq_getElem, getD_eq_getElem, getD_eq_getElem]

theorem ctrLo_eq_ofNat (c : BitVec 64) : c.extractLsb' 0 32 = BitVec.ofNat 32 (c.toNat % 2 ^ 32) := by
  apply BitVec.eq_of_toNat_eq
  simp [BitVec.extractLsb'_toNat]

theorem ctrHi_eq_ofNat (c : BitVec 64) : c.extractLsb' 32 32 = BitVec.ofNat 32 (c.toNat / 2 ^ 32) := by
  apply BitVec.eq_of_toNat_eq
  simp [BitVec.extractLsb'_toNat, Nat.shiftRight_eq_div_pow]

theorem ctrlWord_eq_ite (s : State) : s.ctrlWord = if s.ie then 1 else 0 := by
  unfold State.ctrlWord
  cases s.ie <;> rfl

/-- The registers by address (10_state.md R15). -/
def registerMap : List (Addr × BusTarget) :=
  [(0x000, .id), (0x004, .version), (0x008, .ctrl), (0x00C, .status), (0x010, .cmd), (0x014, .src), (0x018, .dst),
   (0x01C, .len), (0x020, .rlen), (0x030, .key 0), (0x034, .key 1), (0x038, .key 2), (0x03C, .key 3),
   (0x040, .iv 0), (0x044, .iv 1), (0x048, .iv 2), (0x04C, .iv 3), (0x050, .chain 0), (0x054, .chain 1),
   (0x058, .chain 2), (0x05C, .chain 3), (0x060, .nonce 0), (0x064, .nonce 1), (0x068, .ctrLo), (0x06C, .ctrHi),
   (0x070, .mtSeed), (0x074, .mtOut), (0x078, .mtTin), (0x07C, .mtTout), (0x080, .mtCursor), (0x084, .mtCidx)]

theorem registerAt_of_mem_registerMap : ∀ p ∈ registerMap, registerAt p.1.toNat = some p.2 := by decide

/-- The spec's table of register reads is the value of each register's target. -/
theorem registerReads_eq_map (s : State) : registerReads s = registerMap.map fun p => (p.1, s.busValue p.2) := by
  simp [registerReads, registerMap, State.busValue, wordOfBytes_eq_wordSum, ctrLo_eq_ofNat, ctrHi_eq_ofNat,
    ctrlWord_eq_ite, Config.idValue, Config.versionValue]

theorem hostRead_of_mem_registerReads {s : State} {a : Addr} {v : Word} (h : (a, v) ∈ registerReads s)
    (hread : s.busy = false ∨ a ∈ readableBusyAddrs) : s.hostRead a = s.setRdata v := by
  rw [registerReads_eq_map, List.mem_map] at h
  obtain ⟨⟨b, t⟩, hmem, heq⟩ := h
  cases heq
  have ht := busTarget_of_registerAt (registerAt_of_mem_registerMap _ hmem) s.bufBytes
  exact hostRead_of_readable ht (hread.imp_right (readableBusy_busTarget_iff ht).2)

theorem keyWord_mem_registerReads {a : Addr} (h : a ∈ ([0x030, 0x034, 0x038, 0x03C] : List Addr)) (s : State) :
    (a, 0) ∈ registerReads s := by
  simp only [List.mem_cons, List.not_mem_nil, or_false] at h
  rcases h with rfl | rfl | rfl | rfl <;> simp [registerReads]

/-- Settles O45: the illegal address, the KEY words, the hidden address, the register and the buffer word. -/
theorem hostReadAnswers : Obligations.HostReadAnswers := by
  intro s a
  have hkey : ([0x030, 0x034, 0x038, 0x03C] : List Addr) ⊆ readableBusyAddrs := by simp [readableBusyAddrs]
  have hstatus : ([0x000, 0x004, 0x008, 0x00C, 0x010] : List Addr) ⊆ readableBusyAddrs := by
    simp [readableBusyAddrs]
  refine ⟨hostRead_of_illegal, fun ha => ?_, fun hbusy haligned hmapped ha => ?_, fun v hv hread => ?_,
    fun hidle haligned hlo hhi => ?_⟩
  · exact hostRead_of_mem_registerReads (keyWord_mem_registerReads ha s) (.inr (hkey ha))
  · exact hostRead_of_hidden hbusy (fun h => h.elim (absurd haligned) hmapped) ha
  · exact hostRead_of_mem_registerReads hv (hread.imp_right (@hstatus a))
  · rw [hostRead_of_readable (busTarget_of_buffer haligned hlo hhi) (.inl hidle), wordSum_eq_w32]
    rfl

/-! ### Writes by target (R48) -/

theorem hostWrite_of_idle {s : State} {a : Addr} {t : BusTarget} (ht : busTarget s.bufBytes a = some t)
    (hro : t.readOnly = false) (hidle : s.busy = false) (v : Word) : s.hostWrite a v = s.writeIdle v t := by
  simp only [State.hostWrite, ht, hro, hidle, Bool.false_eq_true, if_false]
  split
  next h => rw [h]; rfl
  next =>
    split
    next h => rw [h]; rfl
    next => rfl

/-- A word of a wide register written byte by byte. -/
theorem setWordOfBytes_eq_bytesWritten {n : Nat} (r : Vector Byte n) (w : Nat) (v : Word) :
    setWordOfBytes r w v = registerWrites.bytesWritten r (4 * w) v := by
  apply Vector.ext
  intro i hi
  simp only [setWordOfBytes, registerWrites.bytesWritten, byteDigit_toNat, Vector.getElem_ofFn, Fin.getElem_fin,
    Vector.getElem_setIfInBounds]
  by_cases hw : i / 4 = w
  · have h0 : 4 * w = i ↔ i % 4 = 0 := by omega
    have h1 : 4 * w + 1 = i ↔ i % 4 = 1 := by omega
    have h2 : 4 * w + 2 = i ↔ i % 4 = 2 := by omega
    have h3 : 4 * w + 3 = i ↔ i % 4 = 3 := by omega
    have hcases : i % 4 = 0 ∨ i % 4 = 1 ∨ i % 4 = 2 ∨ i % 4 = 3 := by omega
    rw [if_pos hw]
    rcases hcases with h | h | h | h <;> simp [h0, h1, h2, h3, h]
  · rw [if_neg hw, if_neg (by omega), if_neg (by omega), if_neg (by omega), if_neg (by omega)]

theorem setCtrLo_eq_ofNat (c : BitVec 64) (v : Word) :
    c.extractLsb' 32 32 ++ v = BitVec.ofNat 64 (c.toNat / 2 ^ 32 * 2 ^ 32 + v.toNat) := by
  apply BitVec.eq_of_toNat_eq
  rw [BitVec.toNat_append, ← Nat.shiftLeft_add_eq_or_of_lt v.isLt, ctrHi_eq_ofNat]
  simp only [BitVec.toNat_ofNat, Nat.shiftLeft_eq]
  omega

theorem setCtrHi_eq_ofNat (c : BitVec 64) (v : Word) :
    v ++ c.extractLsb' 0 32 = BitVec.ofNat 64 (v.toNat * 2 ^ 32 + c.toNat % 2 ^ 32) := by
  apply BitVec.eq_of_toNat_eq
  rw [BitVec.toNat_append, ← Nat.shiftLeft_add_eq_or_of_lt (c.extractLsb' 0 32).isLt, ctrLo_eq_ofNat]
  simp only [BitVec.toNat_ofNat, Nat.shiftLeft_eq]
  omega

/-- The registers that the host writes, but for CTRL and STATUS (10_state.md R15). -/
def writableRegisters : List (Addr × BusTarget) :=
  registerMap.filter fun p => !p.2.readOnly && p.2 != .ctrl && p.2 != .status

/-- The spec's table of register writes is what each writable register's target does. -/
theorem registerWrites_eq_map (s : State) (v : Word) :
    registerWrites s v = writableRegisters.map fun p => (p.1, s.writeIdle v p.2) := by
  simp [registerWrites, writableRegisters, registerMap, State.writeIdle, setWordOfBytes_eq_bytesWritten,
    setCtrLo_eq_ofNat, setCtrHi_eq_ofNat, BusTarget.readOnly, State.issue, State.setSrc, State.setDst, State.setLen,
    State.setKey, State.setIv, State.setChain, State.setNonce, State.setCtr, State.setMtSeed, State.setMtTin]

theorem hostWrite_of_mem_registerWrites {s t : State} {a : Addr} {v : Word} (h : (a, t) ∈ registerWrites s v)
    (hidle : s.busy = false) : s.hostWrite a v = t := by
  rw [registerWrites_eq_map, List.mem_map] at h
  obtain ⟨⟨b, target⟩, hmem, heq⟩ := h
  cases heq
  simp only [writableRegisters, List.mem_filter, Bool.and_eq_true, Bool.not_eq_true'] at hmem
  obtain ⟨hmem, ⟨hro, -⟩, -⟩ := hmem
  exact hostWrite_of_idle (busTarget_of_registerAt (registerAt_of_mem_registerMap _ hmem) s.bufBytes) hro hidle v

/-- The bytes of a stored bus word, lowest first. -/
theorem le32_getD (v : Word) {i : Nat} (h : i < 4) : (le32 v).getD i 0 = BitVec.ofNat 8 (v.toNat / 2 ^ (8 * i)) := by
  rw [← byteDigit, byteDigit_toNat]
  interval_cases i <;> rfl

/-- Settles O46: the illegal write, STATUS, CTRL, the other registers and the buffer word. -/
theorem hostWriteEffects : Obligations.HostWriteEffects := by
  intro s a v
  refine ⟨hostWrite_of_illegal, ?_, ?_, fun t => hostWrite_of_mem_registerWrites, fun hidle haligned hlo hhi => ?_⟩
  · rintro rfl
    exact hostWrite_status s v
  · rintro rfl hsrst
    rw [hostWrite_ctrl, State.writeCtrl, hsrst]
    rfl
  · have hwrite : s.hostWrite a v = s.memWrite (a.toNat - 0x1000) (le32 v) :=
      hostWrite_of_idle (busTarget_of_buffer haligned hlo hhi) rfl hidle v
    refine ⟨by rw [hwrite]; rfl, fun o => ?_⟩
    have hlen : (le32 v).length = 4 := rfl
    rw [hwrite, readByte_memWrite, hlen]
    by_cases hin : a.toNat - 0x1000 ≤ o ∧ o < a.toNat - 0x1000 + 4
    · rw [if_pos hin, if_pos hin, le32_getD v (by omega)]
    · rw [if_neg hin, if_neg hin]

/-! ### Repeated reads (R52) -/

/-- The values of the addresses do not depend on what the host has read. -/
theorem busValue_setRdata (s : State) (w : Word) (t : BusTarget) : (s.setRdata w).busValue t = s.busValue t := by
  cases t <;> rfl

theorem hostRead_twice_of_illegal {s : State} {a : Addr} (h : IllegalAccess s (.read a)) :
    ((s.hostRead a).hostRead a).rdata = (s.hostRead a).rdata := by
  have hagain : IllegalAccess (s.busError.setRdata 0) (.read a) := h
  rw [hostRead_of_illegal h, hostRead_of_illegal hagain]
  rfl

theorem hostRead_twice_of_readable {s : State} {a : Addr} {t : BusTarget} (ht : busTarget s.bufBytes a = some t)
    (h : s.busy = false ∨ t.readableBusy = true) :
    ((s.hostRead a).hostRead a).rdata = (s.hostRead a).rdata := by
  have hagain : (s.setRdata (s.busValue t)).hostRead a = _ := hostRead_of_readable ht h
  rw [hostRead_of_readable ht h, hagain, busValue_setRdata]
  rfl

/-- Settles O49: the frame of a read, its flag, and its answer for each kind of address. -/
theorem readsHaveNoSideEffect : Obligations.ReadsHaveNoSideEffect := by
  intro s a
  refine ⟨?_, fun haligned hmapped => ?_, fun h => ?_⟩
  · rcases hostRead_cases s a with ⟨-, hr⟩ | ⟨_, -, -, -, hr⟩ | ⟨_, -, -, hr⟩ <;> rw [hr] <;> rfl
  · have hflag := hostRead_buserr s a
    have hlegal : ¬ IllegalAccess s (.read a) := fun hill => hill.elim (absurd haligned) hmapped
    rwa [or_iff_right hlegal, ← Bool.eq_iff_iff] at hflag
  · cases ht : busTarget s.bufBytes a with
    | none => exact hostRead_twice_of_illegal ((illegalAccess_read_iff s a).2 ht)
    | some t =>
      refine hostRead_twice_of_readable ht (h.imp_right fun ha => (readableBusy_busTarget_iff ht).2 ?_)
      have hlegal : ¬ (a.toNat % 4 ≠ 0 ∨ Unmapped s.bufBytes a) := by
        rw [← busTarget_eq_none_iff, ht]
        exact Option.some_ne_none t
      rw [← or_assoc] at ha
      exact ha.resolve_left hlegal

/-! ### The STATUS word (10_state.md R21) -/

theorem ErrCode.code_lt (e : ErrCode) : e.code < 8 := by cases e <;> decide

/-- No field of STATUS reaches into the next one. -/
theorem statusWord_toNat (s : State) : s.statusWord.toNat =
    s.busy.toNat + 2 * s.done.toNat + 4 * s.buserr.toNat + 8 * s.mtSeeded.toNat + 256 * s.err.code := by
  have hbusy := s.busy.toNat_lt
  have hdone := s.done.toNat_lt
  have hbuserr := s.buserr.toNat_lt
  have hseeded := s.mtSeeded.toNat_lt
  have herr := s.err.code_lt
  exact toNat_ofNat_word (by omega)

/-- A bit of a word as a digit of its number. -/
theorem getLsbD_eq_of_digit {w : Word} {k : Nat} {b : Bool} (h : w.toNat / 2 ^ k % 2 = b.toNat) : w.getLsbD k = b := by
  rw [BitVec.getLsbD, Nat.testBit_eq_decide_div_mod_eq, h]
  cases b <;> rfl

/-- Settles O50: the codes by definition, the fields as digits of the word's sum. -/
theorem statusWordFields : Obligations.StatusWordFields := by
  refine ⟨⟨rfl, rfl, rfl, rfl, rfl, rfl, rfl, rfl⟩, fun s => ?_⟩
  have hsum := statusWord_toNat s
  have hbusy := s.busy.toNat_lt
  have hdone := s.done.toNat_lt
  have hbuserr := s.buserr.toNat_lt
  have hseeded := s.mtSeeded.toNat_lt
  have herr := s.err.code_lt
  refine ⟨getLsbD_eq_of_digit ?_, getLsbD_eq_of_digit ?_, getLsbD_eq_of_digit ?_,
    getLsbD_eq_of_digit (b := s.mtSeeded) ?_, ?_, ?_, ?_⟩ <;> rw [hsum] <;> omega

end Sys2Proof.Machine
end

section
/-!
PROOFS. The step and the resets (40_command_cycle.md R71, R78; 70_reset_and_hazards.md R129 to R133, R146). Every turn
answers a next state; the schedule gets shorter with every entry, so that the engine's turn comes; a reset puts every
register at one value.
-/

namespace Sys2Proof.Machine

open Sys2Proof

/-! ### What a step runs -/

theorem engineStep_of_decode {s : State} {i : Instr} (hbusy : s.busy = true) (hd : decode s.cmd = .ok i) :
    s.engineStep = exec i s := by
  rw [State.engineStep, if_pos hbusy, hd]

/-- Settles O5: both forms of the engine's turn run the decoded command. -/
theorem stepRunsDecodedCommand : Obligations.StepRunsDecodedCommand := fun s _ hbusy hd =>
  ⟨fun hi => (step_nil hi).trans (engineStep_of_decode hbusy hd),
    fun rest hi => (step_cons hi).trans (engineStep_of_decode (s := s.setInputs rest) hbusy hd)⟩

/-- Settles O56: the entry is consumed and applied; the engine's turn is that of an illegal word or of the idle
block. -/
theorem stepRunsHostEntry : Obligations.StepRunsHostEntry := fun s rest =>
  ⟨fun _ => step_cons, fun _ _ => step_cons, step_cons,
    fun _ hbusy hd => ⟨fun hi => (step_nil hi).trans (engineStep_of_illegal hbusy hd),
      fun hi => (step_cons hi).trans (engineStep_of_illegal (s := s.setInputs rest) hbusy hd)⟩,
    fun hidle => ⟨fun hi => (step_nil hi).trans (engineStep_of_idle hidle),
      fun hi => (step_cons hi).trans (engineStep_of_idle (s := s.setInputs rest) hidle)⟩⟩

/-! ### Every step answers (00_scope.md R11) -/

theorem engineStep_next (s : State) : ∃ t, s.engineStep = .next t := by
  rcases engineStep_cases s with ⟨-, h⟩ | ⟨-, i, -, h⟩ | ⟨-, -, -, h⟩
  · exact ⟨_, h⟩
  · exact ⟨_, h.trans (exec_next i s)⟩
  · exact ⟨_, h⟩

theorem applyEvent_next (s : State) (e : BusEvent) : ∃ t, s.applyEvent e = .next t := by
  cases e with
  | engine => exact engineStep_next s
  | read | write | reset => exact ⟨_, rfl⟩

/-- Settles O8: the turn of each agent answers a next state. -/
theorem everyStepAnswersNext : Obligations.EveryStepAnswersNext := by
  intro s
  cases hi : s.inputs with
  | nil => exact (step_nil hi) ▸ engineStep_next s
  | cons e rest => exact (step_cons hi) ▸ applyEvent_next _ e

/-! ### A pending command ends (70_reset_and_hazards.md R146) -/

/-- A run that starts with a step goes on from its next state. -/
theorem run_succ_of_next {M : Host.Core} {s t : M.State} (h : M.step s = .next t) (k : Nat) :
    M.run (k + 1) s = M.run k t := by
  rw [Host.Core.run, h]

theorem Runs.cons {s t u : State} {k : Nat} (h : step s = .next t) (hr : Runs t k u) : Runs s (k + 1) u :=
  (run_succ_of_next (M := Sys2Proof.core) h k).trans hr

theorem runs_one {s t : State} (h : step s = .next t) : Runs s 1 t := Runs.cons h rfl

@[simp] theorem hostRead_inputs (s : State) (a : Addr) : (s.hostRead a).inputs = s.inputs := by
  rcases hostRead_cases s a with ⟨-, h⟩ | ⟨_, -, -, -, h⟩ | ⟨_, -, -, h⟩ <;> simp [h]

@[simp] theorem writeCtrl_inputs (s : State) (v : Word) : (s.writeCtrl v).inputs = s.inputs := by
  unfold State.writeCtrl
  split <;> rfl

@[simp] theorem hostWrite_inputs (s : State) (a : Addr) (v : Word) : (s.hostWrite a v).inputs = s.inputs := by
  rcases hostWrite_cases s a v with h | ⟨-, h⟩ | ⟨-, h⟩ | ⟨t, -, -, -, -, -, h⟩ <;> rw [h]
  · rfl
  · rfl
  · exact writeCtrl_inputs s v
  · cases t with
    | ctrl => exact writeCtrl_inputs s v
    | id | version | status | cmd | src | dst | len | rlen | key | iv | chain | nonce | ctrLo | ctrHi | mtSeed | mtOut
    | mtTin | mtTout | mtCursor | mtCidx | buf => rfl

theorem EngineFrame.inputs {s t : State} (h : EngineFrame s t) : t.inputs = s.inputs := by rw [h]

theorem applyEvent_inputs {s t : State} {e : BusEvent} (h : s.applyEvent e = .next t) : t.inputs = s.inputs := by
  cases e with
  | read a => cases h; exact hostRead_inputs s a
  | write a v => cases h; exact hostWrite_inputs s a v
  | engine => exact (engineStep_engineFrame h).inputs
  | reset => cases h; rfl

/-- A step consumes the entry it takes. -/
theorem step_cons_inputs {s t : State} {e : BusEvent} {rest : List BusEvent} (hi : s.inputs = e :: rest)
    (h : step s = .next t) : t.inputs = rest := by
  rw [step_cons hi] at h
  exact (applyEvent_inputs h).trans (State.setInputs_inputs ..)

/-- By induction on the schedule: an entry ends the command or leaves a shorter schedule, and the empty schedule
gives the engine its turn. -/
theorem exists_runs_idle {n : Nat} {s : State} (hn : s.inputs.length = n) :
    ∃ k t, 1 ≤ k ∧ k ≤ n + 1 ∧ Runs s k t ∧ t.busy = false := by
  obtain ⟨t, ht⟩ := everyStepAnswersNext s
  induction n generalizing s t with
  | zero =>
    rw [List.length_eq_zero_iff] at hn
    exact ⟨1, t, le_rfl, le_rfl, runs_one ht, engineStep_busy ((step_nil hn).symm.trans ht)⟩
  | succ n ih =>
    obtain ⟨e, rest, hi⟩ := List.exists_cons_of_length_eq_add_one hn
    have hshorter : t.inputs.length = n := by
      rw [step_cons_inputs hi ht]
      simpa [hi] using hn
    obtain ⟨u, hu⟩ := everyStepAnswersNext t
    obtain ⟨k, v, -, hk, hruns, hidle⟩ := ih hshorter u hu
    exact ⟨k + 1, v, by omega, by omega, hruns.cons ht, hidle⟩

/-- Settles O9: the schedule is finite, whatever stands in it. -/
theorem pendingCommandEnds : Obligations.PendingCommandEnds := fun _ _ => exists_runs_idle rfl

/-! ### Completion (40_command_cycle.md R78) -/

theorem step_raises_done_by_engine {s t : State} (h : step s = .next t) (hs : s.done = false) (ht : t.done = true) :
    s.busy = true ∧ (s.inputs = [] ∨ ∃ rest, s.inputs = .engine :: rest) := by
  refine ⟨(step_raises_done h hs ht).1, ?_⟩
  cases hi : s.inputs with
  | nil => exact .inl rfl
  | cons e rest =>
    rw [step_cons hi] at h
    obtain ⟨rfl, -⟩ := applyEvent_raises_done h hs ht
    exact .inr ⟨rest, rfl⟩

/-- Settles O10: what the engine's turn of a busy block leaves, and that DONE has no other source. -/
theorem completionSetsDone : Obligations.CompletionSetsDone :=
  ⟨fun _ _ hbusy h => ⟨engineStep_busy h, engineStep_done hbusy h, engineStep_irq hbusy h⟩,
    fun _ _ => step_raises_done_by_engine⟩

/-! ### The reset values (70_reset_and_hazards.md R129 to R133) -/

/-- Every register of `t` is at its reset value; the buffer, its size and the model's own fields may be any. -/
def AtReset (t : State) : Prop :=
  t = { State.resetWith t.bufSize with
    buf := t.buf, inputs := t.inputs, rdata := t.rdata, busyReads := t.busyReads, powerOns := t.powerOns }

theorem getD_replicate_zero (n i : Nat) : (Vector.replicate n (0 : Byte)).getD i 0 = 0 := by
  by_cases h : i < n
  · rw [getD_eq_getElem _ _ _ h, Vector.getElem_replicate]
  · simp [Vector.getD, h]

section
variable {t : State} (h : AtReset t)
include h

theorem AtReset.flags : t.ie = false ∧ t.busy = false ∧ t.done = false ∧ t.buserr = false ∧ t.err = .ok := by
  rw [h]
  exact ⟨rfl, rfl, rfl, rfl, rfl⟩

theorem AtReset.command : t.cmd = 0 ∧ t.src = 0 ∧ t.dst = 0 ∧ t.len = 0 ∧ t.rlen = 0 := by
  rw [h]
  exact ⟨rfl, rfl, rfl, rfl, rfl⟩

theorem AtReset.wideRegisters (i : Nat) :
    t.key.getD i 0 = 0 ∧ t.iv.getD i 0 = 0 ∧ t.chain.getD i 0 = 0 ∧ t.nonce.getD i 0 = 0 := by
  rw [h]
  exact ⟨getD_replicate_zero 16 i, getD_replicate_zero 16 i, getD_replicate_zero 16 i, getD_replicate_zero 8 i⟩

theorem AtReset.generator : t.ctr = 0 ∧ t.mtSeed = 0 ∧ t.mtOut = 0 ∧ t.mtTin = 0 ∧ t.mtTout = 0 ∧ t.mtCursor = 625 ∧
    t.mtCidx = 0 := by
  rw [h]
  exact ⟨rfl, rfl, rfl, rfl, rfl, rfl, rfl⟩

theorem AtReset.statusWord : t.statusWord = 0 := by
  rw [h]
  rfl

theorem AtReset.irq : t.irq = false := irq_of_not_ie h.flags.1

end

theorem softReset_atReset (s : State) : AtReset s.softReset := rfl

/-- Settles O54: SRST is the soft reset whatever the other bits are. -/
theorem softResetValues : Obligations.SoftResetValues := by
  rintro s t v hsrst rfl
  rw [hostWrite_ctrl_of_srst s hsrst]
  have h := softReset_atReset s
  exact ⟨h.flags, h.command, h.wideRegisters, h.generator, State.softReset_bufBytes s, readByte_softReset s⟩

/-- Settles O55: the three reset states are at the reset values and have no byte written. -/
theorem hardResetValues : Obligations.HardResetValues := by
  intro s t ht
  have hreset : AtReset t ∧ t.buf = [] := by
    rcases ht with rfl | ⟨n, rfl⟩ | rfl <;> exact ⟨rfl, rfl⟩
  obtain ⟨h, hbuf⟩ := hreset
  obtain ⟨hie, hbusy, hdone, hbuserr, herr⟩ := h.flags
  obtain ⟨hctr, hseed, hout, htin, htout, hcursor, hcidx⟩ := h.generator
  refine ⟨?_, ⟨hie, hbusy, hdone, hbuserr, herr, h.irq⟩, h.command, h.wideRegisters,
    ⟨hctr, hseed, hout, htin, htout, hcursor, hcidx, h.statusWord⟩, fun o => ?_⟩
  · rintro rfl
    exact State.hardReset_bufBytes s
  · rw [State.readByte, hbuf]
    rfl

end Sys2Proof.Machine
end

section
/-!
PROOFS. What a command can see and touch (20_memory.md R54, 40_command_cycle.md R75). Past its checks a command reads
and writes the buffer inside BUF_BYTES only. This is said once, for any relation between two states that the engine's
operations keep, and the laws of noninterference and the invariants of the buffer follow from it.
-/

namespace Sys2Proof.Machine

open Sys2Proof

/-! ### Relations and invariants that the engine keeps -/

/-- States that `R` relates look the same to a buffer command, and the operations of the buffer commands, with every
buffer write inside the buffer, keep `R`. The key is left out: see `SameCipher`. -/
structure BufferSimulation (R : State → State → Prop) : Prop where
  src {s v : State} : R s v → v.src = s.src
  dst {s v : State} : R s v → v.dst = s.dst
  len {s v : State} : R s v → v.len = s.len
  bufBytes {s v : State} : R s v → v.bufBytes = s.bufBytes
  iv {s v : State} : R s v → v.iv = s.iv
  chain {s v : State} : R s v → v.chain = s.chain
  nonce {s v : State} : R s v → v.nonce = s.nonce
  ctr {s v : State} : R s v → v.ctr = s.ctr
  readByte {s v : State} {o : Nat} : R s v → o < s.bufBytes → v.readByte o = s.readByte o
  memWrite {s v : State} {a : Nat} {xs : List Byte} :
    R s v → a + xs.length ≤ s.bufBytes → R (s.memWrite a xs) (v.memWrite a xs)
  setChain {s v : State} (x : Block) : R s v → R (s.setChain x) (v.setChain x)
  setCtr {s v : State} (c : BitVec 64) : R s v → R (s.setCtr c) (v.setCtr c)
  setRlen {s v : State} (n : Word) : R s v → R (s.setRlen n) (v.setRlen n)
  complete {s v : State} (e : ErrCode) : R s v → R (s.complete e) (v.complete e)

/-- States that `R` relates look the same to the MT commands too, and the operations of these commands keep `R`. -/
structure CommandSimulation (R : State → State → Prop) : Prop extends BufferSimulation R where
  mtSeed {s v : State} : R s v → v.mtSeed = s.mtSeed
  mtTin {s v : State} : R s v → v.mtTin = s.mtTin
  mt {s v : State} : R s v → v.mt = s.mt
  mtCursor {s v : State} : R s v → v.mtCursor = s.mtCursor
  mtCidx {s v : State} : R s v → v.mtCidx = s.mtCidx
  setMt {s v : State} (m : MtArray) : R s v → R (s.setMt m) (v.setMt m)
  setMtCursor {s v : State} (c : Fin 626) : R s v → R (s.setMtCursor c) (v.setMtCursor c)
  setMtCidx {s v : State} (c : Fin 624) : R s v → R (s.setMtCidx c) (v.setMtCidx c)
  setMtOut {s v : State} (w : Word) : R s v → R (s.setMtOut w) (v.setMtOut w)
  setMtTout {s v : State} (w : Word) : R s v → R (s.setMtTout w) (v.setMtTout w)

/-- The cipher function that command `i` applies is the same under the keys of `s` and `v`. -/
def SameCipher : Instr → State → State → Prop
  | .ecbEnc, s, v | .cbcEnc _, s, v | .ctrXf _, s, v => Config.enc v.key = Config.enc s.key
  | .ecbDec, s, v | .cbcDec _, s, v => Config.dec v.key = Config.dec s.key
  | _, _, _ => True

theorem sameCipher_of_key_eq {s v : State} (h : v.key = s.key) (i : Instr) : SameCipher i s v := by
  cases i <;> simp [SameCipher, h]

/-- A property of the buffer that a write inside the buffer keeps. -/
structure BufferInvariant (P : State → Prop) : Prop where
  memWrite {s : State} {a : Nat} {xs : List Byte} : P s → a + xs.length ≤ s.bufBytes → P (s.memWrite a xs)
  congr {s t : State} : P s → t.buf = s.buf → t.bufSize = s.bufSize → t.powerOns = s.powerOns → P t

/-- An invariant as a relation of equal states. -/
theorem BufferInvariant.simulation {P : State → Prop} (hP : BufferInvariant P) :
    CommandSimulation fun s v => v = s ∧ P s where
  src h := by rw [h.1]
  dst h := by rw [h.1]
  len h := by rw [h.1]
  bufBytes h := by rw [h.1]
  iv h := by rw [h.1]
  chain h := by rw [h.1]
  nonce h := by rw [h.1]
  ctr h := by rw [h.1]
  readByte h _ := by rw [h.1]
  memWrite h ha := ⟨by rw [h.1], hP.memWrite h.2 ha⟩
  setChain _ h := ⟨by rw [h.1], hP.congr h.2 rfl rfl rfl⟩
  setCtr _ h := ⟨by rw [h.1], hP.congr h.2 rfl rfl rfl⟩
  setRlen _ h := ⟨by rw [h.1], hP.congr h.2 rfl rfl rfl⟩
  complete _ h := ⟨by rw [h.1], hP.congr h.2 rfl rfl rfl⟩
  mtSeed h := by rw [h.1]
  mtTin h := by rw [h.1]
  mt h := by rw [h.1]
  mtCursor h := by rw [h.1]
  mtCidx h := by rw [h.1]
  setMt _ h := ⟨by rw [h.1], hP.congr h.2 rfl rfl rfl⟩
  setMtCursor _ h := ⟨by rw [h.1], hP.congr h.2 rfl rfl rfl⟩
  setMtCidx _ h := ⟨by rw [h.1], hP.congr h.2 rfl rfl rfl⟩
  setMtOut _ h := ⟨by rw [h.1], hP.congr h.2 rfl rfl rfl⟩
  setMtTout _ h := ⟨by rw [h.1], hP.congr h.2 rfl rfl rfl⟩

/-! ### The loops of the modes -/

namespace BufferSimulation

variable {R : State → State → Prop} (hR : BufferSimulation R) {s v : State} (h : R s v)
include hR h

theorem memRead {a n : Nat} (ha : a + n ≤ s.bufBytes) : v.memRead a n = s.memRead a n := by
  induction n generalizing a with
  | zero => rfl
  | succ n ih => rw [State.memRead, State.memRead, hR.readByte h (by omega), ih (by omega)]

theorem readBlock {a : Nat} (ha : a + 16 ≤ s.bufBytes) : v.readBlock a = s.readBlock a :=
  readBlock_ext fun _ _ => hR.readByte h (by omega)

theorem writeBlock {a : Nat} (x : Block) (ha : a + 16 ≤ s.bufBytes) : R (s.writeBlock a x) (v.writeBlock a x) :=
  hR.memWrite h (by rwa [Vector.length_toList])

theorem initChain (init : Bool) : R (s.initChain init) (v.initChain init) := by
  cases init with
  | false => exact h
  | true =>
    have hset := hR.setChain s.iv h
    rw [State.initChain, State.initChain, hR.iv h]
    exact hset

theorem initCtr (init : Bool) : R (s.initCtr init) (v.initCtr init) := by
  cases init with
  | false => exact h
  | true => exact hR.setCtr 0 h

theorem ecbLoop (f : Block → Block) {src dst n : Nat} (hsrc : src + 16 * n ≤ s.bufBytes)
    (hdst : dst + 16 * n ≤ s.bufBytes) : R (ecbLoop f src dst n s) (ecbLoop f src dst n v) := by
  induction n with
  | zero => exact h
  | succ n ih =>
    have hn := ih (by omega) (by omega)
    rw [Machine.ecbLoop, Machine.ecbLoop, ecbStep, ecbStep,
      hR.readBlock hn (by rw [ecbLoop_bufBytes]; omega)]
    exact hR.writeBlock hn _ (by rw [ecbLoop_bufBytes]; omega)

theorem cbcEncLoop (e : Block → Block) {src dst n : Nat} (hsrc : src + 16 * n ≤ s.bufBytes)
    (hdst : dst + 16 * n ≤ s.bufBytes) : R (cbcEncLoop e src dst n s) (cbcEncLoop e src dst n v) := by
  induction n with
  | zero => exact h
  | succ n ih =>
    have hn := ih (by omega) (by omega)
    simp only [Machine.cbcEncLoop, cbcEncStep]
    rw [hR.readBlock hn (by rw [cbcEncLoop_bufBytes]; omega), hR.chain hn]
    exact hR.setChain _ (hR.writeBlock hn _ (by rw [cbcEncLoop_bufBytes]; omega))

theorem cbcDecLoop (d : Block → Block) {src dst n : Nat} (hsrc : src + 16 * n ≤ s.bufBytes)
    (hdst : dst + 16 * n ≤ s.bufBytes) : R (cbcDecLoop d src dst n s) (cbcDecLoop d src dst n v) := by
  induction n with
  | zero => exact h
  | succ n ih =>
    have hn := ih (by omega) (by omega)
    simp only [Machine.cbcDecLoop, cbcDecStep]
    rw [hR.readBlock hn (by rw [cbcDecLoop_bufBytes]; omega), hR.chain hn]
    exact hR.setChain _ (hR.writeBlock hn _ (by rw [cbcDecLoop_bufBytes]; omega))

/-- Each block of a CTR message, the partial one included, ends inside the message. -/
theorem ctrLoop (e : Block → Block) {src dst len n : Nat} (hsrc : src + len ≤ s.bufBytes)
    (hdst : dst + len ≤ s.bufBytes) (hn : 16 * n ≤ len + 15) :
    R (ctrLoop e src dst len n s) (ctrLoop e src dst len n v) := by
  induction n with
  | zero => exact h
  | succ n ih =>
    have hprev := ih (by omega)
    simp only [Machine.ctrLoop, ctrStep]
    rw [hR.memRead hprev (by rw [ctrLoop_bufBytes]; omega), hR.nonce hprev, hR.ctr hprev]
    refine hR.setCtr _ (hR.memWrite hprev ?_)
    rw [xorBytes_length, memRead_length, ctrLoop_bufBytes]
    omega

/-! ### The buffer commands -/

theorem bufferCheck (out : Option Nat) : v.bufferCheck out = s.bufferCheck out := by
  unfold State.bufferCheck State.rangeOk State.overlaps State.srcOff State.dstOff State.lenBytes
  rw [hR.src h, hR.dst h, hR.len h, hR.bufBytes h]

theorem blockCheck : v.blockCheck = s.blockCheck := by
  unfold State.blockCheck State.lenBytes
  rw [hR.len h, hR.bufferCheck h]

theorem checkOf_eq (i : Instr) : checkOf i v = checkOf i s := by
  cases i with
  | ecbEnc | ecbDec | cbcEnc | cbcDec => exact hR.blockCheck h
  | ctrXf =>
    simp only [checkOf, State.lenBytes]
    rw [hR.len h, hR.bufferCheck h]
  | pad =>
    simp only [checkOf, State.padCheck, State.lenBytes]
    rw [hR.len h, hR.bufferCheck h]
  | strip => exact hR.bufferCheck h none
  | nop | mtSeed | mtExtract | mtTemper | mtUntemper | mtClone => rfl

theorem performEcb (f : Block → Block) (hops : CopyOperandsOk s) : R (performEcb f s) (performEcb f v) := by
  obtain ⟨hsrc, hdst, -⟩ := hops
  simp only [Machine.performEcb, State.srcOff, State.dstOff, State.lenBytes, hR.src h, hR.dst h, hR.len h]
  exact hR.setRlen _ (hR.ecbLoop h f (by omega) (by omega))

theorem performCbcEnc (e : Block → Block) (init : Bool) (hops : CopyOperandsOk s) :
    R (performCbcEnc e init s) (performCbcEnc e init v) := by
  obtain ⟨hsrc, hdst, -⟩ := hops
  simp only [Machine.performCbcEnc, State.srcOff, State.dstOff, State.lenBytes, hR.src h, hR.dst h, hR.len h]
  exact hR.setRlen _ (hR.cbcEncLoop (hR.initChain h init) e (by rw [State.initChain_bufBytes]; omega)
    (by rw [State.initChain_bufBytes]; omega))

theorem performCbcDec (d : Block → Block) (init : Bool) (hops : CopyOperandsOk s) :
    R (performCbcDec d init s) (performCbcDec d init v) := by
  obtain ⟨hsrc, hdst, -⟩ := hops
  simp only [Machine.performCbcDec, State.srcOff, State.dstOff, State.lenBytes, hR.src h, hR.dst h, hR.len h]
  exact hR.setRlen _ (hR.cbcDecLoop (hR.initChain h init) d (by rw [State.initChain_bufBytes]; omega)
    (by rw [State.initChain_bufBytes]; omega))

theorem performCtr (e : Block → Block) (init : Bool) (hops : CopyOperandsOk s) :
    R (performCtr e init s) (performCtr e init v) := by
  obtain ⟨hsrc, hdst, -⟩ := hops
  simp only [Machine.performCtr, State.srcOff, State.dstOff, State.lenBytes, hR.src h, hR.dst h, hR.len h]
  exact hR.setRlen _ (hR.ctrLoop (hR.initCtr h init) e (by rw [State.initCtr_bufBytes]; exact hsrc)
    (by rw [State.initCtr_bufBytes]; exact hdst) (by unfold ctrBlocks; omega))

theorem performPad {bs : Nat} (hsrc : s.src.toNat + s.len.toNat ≤ s.bufBytes)
    (hdst : s.dst.toNat + (s.len.toNat + padValue bs s.len.toNat) ≤ s.bufBytes) :
    R (performPad bs s) (performPad bs v) := by
  simp only [Machine.performPad, State.srcOff, State.dstOff, State.lenBytes, hR.src h, hR.dst h, hR.len h,
    hR.memRead h hsrc]
  refine hR.setRlen _ (hR.memWrite h ?_)
  rwa [List.length_append, memRead_length, List.length_replicate]

/-- The padding that STRIP tests lies in its input. -/
theorem validPadding_iff {src len : Nat} (hin : src + len ≤ s.bufBytes) :
    ValidPadding v src len ↔ ValidPadding s src len := by
  have hback : ∀ k, 1 ≤ k → 0 < len → v.readByte (src + len - k) = s.readByte (src + len - k) := fun k hk hlen =>
    hR.readByte h (by omega)
  unfold ValidPadding
  refine and_congr_right fun hlen => ?_
  rw [hback 1 le_rfl hlen]
  refine and_congr_right fun _ => and_congr_right fun _ => forall_congr' fun k => ?_
  exact imp_congr_right fun hk => by rw [hback k hk hlen]

end BufferSimulation

/-! ### Every command -/

/-- Two `Perform`s succeed in related states, or report the same error. -/
def AgreeUpTo (R : State → State → Prop) (p q : Except ErrCode State) : Prop :=
  (∃ u w, p = .ok u ∧ q = .ok w ∧ R u w) ∨ ∃ e, p = .error e ∧ q = .error e

theorem AgreeUpTo.ok {R : State → State → Prop} {u w : State} (h : R u w) : AgreeUpTo R (.ok u) (.ok w) :=
  .inl ⟨u, w, rfl, rfl, h⟩

section
variable {R : State → State → Prop} {s v : State}

theorem BufferSimulation.performStrip (hR : BufferSimulation R) (h : R s v)
    (hin : s.src.toNat + s.len.toNat ≤ s.bufBytes) : AgreeUpTo R (performStrip s) (performStrip v) := by
  have hvalid := hR.validPadding_iff h hin
  rcases performStrip_cases s with ⟨hs, hps⟩ | ⟨hs, hps⟩ <;>
    rcases performStrip_cases v with ⟨hv, hpv⟩ | ⟨hv, hpv⟩ <;>
    rw [hR.src h, hR.len h] at hv
  · have hlast : v.readByte (s.src.toNat + s.len.toNat - 1) = s.readByte (s.src.toNat + s.len.toNat - 1) :=
      hR.readByte h (by have := hs.1; omega)
    rw [hps, hpv, hR.src h, hR.len h, hlast]
    exact .ok (hR.setRlen _ h)
  · exact absurd (hvalid.2 hs) hv
  · exact absurd (hvalid.1 hv) hs
  · exact .inr ⟨_, hps, hpv⟩

/-- Past its checks, the accesses of a buffer command stay inside the buffer. -/
theorem BufferSimulation.performOf_agreeUpTo (hR : BufferSimulation R) (h : R s v) {i : Instr}
    (hi : i ∉ operandlessCommands) (hc : checkOf i s = .ok) (hcipher : SameCipher i s v) :
    AgreeUpTo R (performOf i s) (performOf i v) := by
  have hwhole : s.blockCheck = .ok → CopyOperandsOk s := fun hb => ((blockCheck_eq_ok s).1 hb).2
  cases i with
  | nop | mtSeed | mtExtract | mtTemper | mtUntemper | mtClone => exact absurd (by simp [operandlessCommands]) hi
  | ecbEnc | ecbDec =>
    simp only [performOf, show _ = _ from hcipher]
    exact .ok (hR.performEcb h _ (hwhole hc))
  | cbcEnc init =>
    simp only [performOf, show _ = _ from hcipher]
    exact .ok (hR.performCbcEnc h _ init (hwhole hc))
  | cbcDec init =>
    simp only [performOf, show _ = _ from hcipher]
    exact .ok (hR.performCbcDec h _ init (hwhole hc))
  | ctrXf init =>
    simp only [performOf, show _ = _ from hcipher]
    exact .ok (hR.performCtr h _ init ((bufferCheck_len_eq_ok s).1 hc))
  | pad bs =>
    have hbs : 0 < bs := Nat.pos_of_ne_zero fun h0 => by simp [checkOf, State.padCheck, h0] at hc
    rw [checkOf_pad hbs, bufferCheck_eq_ok, rangeOk_some] at hc
    obtain ⟨⟨hsrc, hdst⟩, -⟩ := hc
    exact .ok (hR.performPad h hsrc hdst)
  | strip =>
    obtain ⟨hrange, -⟩ := (bufferCheck_eq_ok s none).1 hc
    exact hR.performStrip h ((rangeOk_none s).1 hrange)

theorem CommandSimulation.twistIfDue (hR : CommandSimulation R) (h : R s v) : R s.twistIfDue v.twistIfDue := by
  unfold State.twistIfDue
  rw [hR.mtCursor h, hR.mt h]
  split
  next => exact hR.setMtCursor _ (hR.setMt _ h)
  next => exact h

theorem CommandSimulation.performMtExtract (hR : CommandSimulation R) (h : R s v) :
    AgreeUpTo R (performMtExtract s) (performMtExtract v) := by
  have ht := hR.twistIfDue h
  simp only [Machine.performMtExtract, hR.mtCursor h, hR.mt ht, hR.mtCursor ht]
  split
  next => exact .inr ⟨_, rfl, rfl⟩
  next => exact .ok (hR.setMtCursor _ (hR.setMtOut _ ht))

/-- The load of one word: a relation that the load begins with holds after it. -/
theorem CommandSimulation.loadWord (hR : CommandSimulation R) (h : R s v) (w : Word) :
    R ((s.setMt (s.mt.setIfInBounds s.mtCidx.val w)).setMtTout w)
      ((v.setMt (v.mt.setIfInBounds v.mtCidx.val w)).setMtTout w) := by
  rw [hR.mt h, hR.mtCidx h]
  exact hR.setMtTout _ (hR.setMt _ h)

theorem CommandSimulation.performMtClone (hR : CommandSimulation R) (h : R s v) :
    R (performMtClone s) (performMtClone v) := by
  have hbegin : R (if s.mtCidx.val = 0 then s.setMtCursor 625 else s)
      (if s.mtCidx.val = 0 then v.setMtCursor 625 else v) := by
    split
    next => exact hR.setMtCursor _ h
    next => exact h
  have hload := hR.loadWord hbegin (untemper s.mtTin)
  simp only [Machine.performMtClone]
  rw [hR.mtTin h, hR.mtCidx h, hR.mtCidx hload]
  split
  next => exact hR.setMtCursor _ (hR.setMtCidx _ hload)
  next => exact hR.setMtCidx _ hload

theorem CommandSimulation.performOf_agreeUpTo (hR : CommandSimulation R) (h : R s v) {i : Instr}
    (hc : checkOf i s = .ok) (hcipher : SameCipher i s v) : AgreeUpTo R (performOf i s) (performOf i v) := by
  by_cases hi : i ∈ operandlessCommands
  · simp only [operandlessCommands, List.mem_cons, List.not_mem_nil, or_false] at hi
    rcases hi with rfl | rfl | rfl | rfl | rfl | rfl
    case inl => exact .ok h
    case inr.inl =>
      simp only [performOf, performMtSeed, hR.mtSeed h]
      exact .ok (hR.setMtCidx _ (hR.setMtCursor _ (hR.setMt _ h)))
    case inr.inr.inl => exact hR.performMtExtract h
    case inr.inr.inr.inl =>
      simp only [performOf, hR.mtTin h]
      exact .ok (hR.setMtTout _ h)
    case inr.inr.inr.inr.inl =>
      simp only [performOf, hR.mtTin h]
      exact .ok (hR.setMtTout _ h)
    case inr.inr.inr.inr.inr => exact .ok (hR.performMtClone h)
  · exact hR.toBufferSimulation.performOf_agreeUpTo h hi hc hcipher

/-- A command whose `Perform`s agree completes in related states. -/
theorem BufferSimulation.exec_of_agreeUpTo (hR : BufferSimulation R) (h : R s v) {i : Instr}
    (hp : checkOf i s = .ok → AgreeUpTo R (performOf i s) (performOf i v)) {t : State} (ht : exec i s = .next t) :
    ∃ u, exec i v = .next u ∧ R t u := by
  have hcv := hR.checkOf_eq h i
  by_cases hc : checkOf i s = .ok
  · rw [hc] at hcv
    rcases hp hc with ⟨x, y, hx, hy, hxy⟩ | ⟨e, hx, hy⟩
    · cases (exec_of_performOf hc hx).symm.trans ht
      exact ⟨_, exec_of_performOf hcv hy, hR.complete .ok hxy⟩
    · cases (exec_of_performOf_error hc hx).symm.trans ht
      exact ⟨_, exec_of_performOf_error hcv hy, hR.complete e h⟩
  · cases (exec_of_check rfl hc).symm.trans ht
    exact ⟨_, exec_of_check hcv hc, hR.complete _ h⟩

theorem BufferSimulation.exec_related (hR : BufferSimulation R) (h : R s v) {i : Instr} (hi : i ∉ operandlessCommands)
    (hcipher : SameCipher i s v) {t : State} (ht : exec i s = .next t) : ∃ u, exec i v = .next u ∧ R t u :=
  hR.exec_of_agreeUpTo h (fun hc => hR.performOf_agreeUpTo h hi hc hcipher) ht

theorem CommandSimulation.exec_related (hR : CommandSimulation R) (h : R s v) {i : Instr} (hcipher : SameCipher i s v)
    {t : State} (ht : exec i s = .next t) : ∃ u, exec i v = .next u ∧ R t u :=
  hR.toBufferSimulation.exec_of_agreeUpTo h (fun hc => hR.performOf_agreeUpTo h hc hcipher) ht

/-- Every command keeps an invariant of the buffer. -/
theorem BufferInvariant.exec_keeps {P : State → Prop} (hP : BufferInvariant P) {i : Instr} {t : State} (h : P s)
    (ht : exec i s = .next t) : P t := by
  obtain ⟨u, -, -, hu⟩ := hP.simulation.exec_related ⟨rfl, h⟩ (sameCipher_of_key_eq rfl i) ht
  exact hu

end

/-! ### The engine stays inside the buffer (20_memory.md R54) -/

/-- No byte at an offset of BUF_BYTES or more differs from the state `s`. -/
theorem bufferInvariant_bytesBeyond (s : State) :
    BufferInvariant fun t => t.bufBytes = s.bufBytes ∧ ∀ o, s.bufBytes ≤ o → t.readByte o = s.readByte o where
  memWrite := by
    rintro t a xs ⟨hsize, hbytes⟩ ha
    refine ⟨hsize, fun o ho => ?_⟩
    rw [readByte_memWrite, if_neg (by omega), hbytes o ho]
  congr := by
    rintro t u ⟨hsize, hbytes⟩ hbuf hbufSize hpow
    refine ⟨?_, fun o ho => (readByte_congr hbuf hpow o).trans (hbytes o ho)⟩
    rw [← hsize, State.bufBytes, State.bufBytes, hbufSize]

/-- `v` differs from `s` in the buffer alone, and in no byte inside it. -/
structure BufferTwin (s v : State) : Prop where
  frame : v = { s with buf := v.buf }
  bytes : ∀ o, o < s.bufBytes → v.readByte o = s.readByte o

theorem commandSimulation_bufferTwin : CommandSimulation BufferTwin where
  src h := by rw [h.frame]
  dst h := by rw [h.frame]
  len h := by rw [h.frame]
  bufBytes h := by rw [h.frame]; rfl
  iv h := by rw [h.frame]
  chain h := by rw [h.frame]
  nonce h := by rw [h.frame]
  ctr h := by rw [h.frame]
  readByte h ho := h.bytes _ ho
  memWrite h ha := ⟨by rw [h.frame]; rfl, fun o ho => by
    rw [readByte_memWrite, readByte_memWrite, h.bytes o ho]⟩
  setChain _ h := ⟨by rw [h.frame]; rfl, h.bytes⟩
  setCtr _ h := ⟨by rw [h.frame]; rfl, h.bytes⟩
  setRlen _ h := ⟨by rw [h.frame]; rfl, h.bytes⟩
  complete _ h := ⟨by rw [h.frame]; rfl, h.bytes⟩
  mtSeed h := by rw [h.frame]
  mtTin h := by rw [h.frame]
  mt h := by rw [h.frame]
  mtCursor h := by rw [h.frame]
  mtCidx h := by rw [h.frame]
  setMt _ h := ⟨by rw [h.frame]; rfl, h.bytes⟩
  setMtCursor _ h := ⟨by rw [h.frame]; rfl, h.bytes⟩
  setMtCidx _ h := ⟨by rw [h.frame]; rfl, h.bytes⟩
  setMtOut _ h := ⟨by rw [h.frame]; rfl, h.bytes⟩
  setMtTout _ h := ⟨by rw [h.frame]; rfl, h.bytes⟩

/-- Settles O13: the bytes beyond the buffer are an invariant of it, and the bytes inside are all that a command sees
of it. -/
theorem engineStaysInsideBuffer : Obligations.EngineStaysInsideBuffer := by
  intro i s t ht
  refine ⟨((bufferInvariant_bytesBeyond s).exec_keeps ⟨rfl, fun _ _ => rfl⟩ ht).2, fun v hv hbytes => ?_⟩
  have hkey : v.key = s.key := by rw [hv]
  obtain ⟨u, hu, hframe, hsame⟩ :=
    commandSimulation_bufferTwin.exec_related ⟨hv, hbytes⟩ (sameCipher_of_key_eq hkey i) ht
  exact ⟨u, hu, hframe, fun o ho => hsame o ((exec_bufBytes ht).symm ▸ ho)⟩

/-! ### Key isolation (60_exceptions.md R123) -/

theorem busValue_setKey (s : State) (k : Block) (t : BusTarget) : (s.setKey k).busValue t = s.busValue t := by
  cases t <;> rfl

theorem hostRead_setKey (s : State) (k : Block) (a : Addr) : (s.setKey k).hostRead a = (s.hostRead a).setKey k := by
  rcases hostRead_cases s a with ⟨ht, h⟩ | ⟨t, ht, hbusy, hhidden, h⟩ | ⟨t, ht, hshown, h⟩ <;> rw [h]
  · simp [State.hostRead, ht]
    rfl
  · simp [State.hostRead, ht, hbusy, hhidden]
    rfl
  · rw [hostRead_of_readable (s := s.setKey k) ht hshown, busValue_setKey]
    rfl

/-- With another key the block looks the same to every command, but for the cipher: no operation of the engine
reads or writes KEY. -/
theorem commandSimulation_setKey (k : Block) : CommandSimulation fun s v => v = s.setKey k := by
  constructor
  case toBufferSimulation => constructor <;> intros <;> subst_vars <;> rfl
  all_goals intros; subst_vars; rfl

theorem sameCipher_setKey {i : Instr} {s : State} {k : Block}
    (h : (∀ x, Config.enc k x = Config.enc s.key x ∧ Config.dec k x = Config.dec s.key x) ∨
      i ∈ [Instr.nop, .strip, .mtSeed, .mtExtract, .mtTemper, .mtUntemper, .mtClone] ∨ ∃ bs, i = .pad bs) :
    SameCipher i s (s.setKey k) := by
  rcases h with hsame | hi | ⟨bs, rfl⟩
  · have henc : Config.enc k = Config.enc s.key := funext fun x => (hsame x).1
    have hdec : Config.dec k = Config.dec s.key := funext fun x => (hsame x).2
    cases i <;> simp [SameCipher, henc, hdec]
  · simp only [List.mem_cons, List.not_mem_nil, or_false] at hi
    rcases hi with rfl | rfl | rfl | rfl | rfl | rfl | rfl <;> trivial
  · trivial

/-- Settles O52: no bus value holds KEY, and a command applies only the cipher to it. -/
theorem keyIsolation : Obligations.KeyIsolation := by
  refine ⟨hostRead_setKey, fun i s t k ht hcipher => ?_⟩
  obtain ⟨u, hu, rfl⟩ := (commandSimulation_setKey k).exec_related rfl (sameCipher_setKey hcipher) ht
  exact hu

end Sys2Proof.Machine
end

section
/-!
PROOFS. The unseeded array and the state invariant (70_reset_and_hazards.md R133; 20_memory.md R41, R54;
44_mt19937.md R110; 40_command_cycle.md R70). Both are laws of a step over every turn: the engine's by what a command
can see and touch, the host's by the target of its access.
-/

namespace Sys2Proof.Machine

open Sys2Proof

/-! ### The unseeded array (70_reset_and_hazards.md R133) -/

/-- `u` is `t`, or differs from it at most in hidden words of `mt`. -/
def MtTwin (t u : State) : Prop := ∃ m, u = t.setMt m ∧ (m = t.mt ∨ MtHidden t m)

theorem MtTwin.refl (t : State) : MtTwin t t := ⟨t.mt, rfl, .inl rfl⟩

/-- What is hidden depends on the array, the cursor and the clone index alone. -/
theorem MtHidden.twin {s t : State} {m : MtArray} (h : MtHidden s m) (hmt : t.mt = s.mt)
    (hcursor : t.mtCursor = s.mtCursor) (hcidx : t.mtCidx = s.mtCidx) : MtTwin t (t.setMt m) := by
  refine ⟨m, rfl, .inr ⟨hcursor.trans h.1, fun j hj hlt => ?_⟩⟩
  rw [hcidx] at hlt
  rw [h.2 j hj hlt]
  simp only [hmt]

/-! #### The host's accesses -/

theorem busValue_setMt (s : State) (m : MtArray) (t : BusTarget) : (s.setMt m).busValue t = s.busValue t := by
  cases t <;> rfl

theorem hostRead_setMt (s : State) (m : MtArray) (a : Addr) : (s.setMt m).hostRead a = (s.hostRead a).setMt m := by
  rcases hostRead_cases s a with ⟨ht, h⟩ | ⟨t, ht, hbusy, hhidden, h⟩ | ⟨t, ht, hshown, h⟩ <;> rw [h]
  · simp [State.hostRead, ht]
    rfl
  · simp [State.hostRead, ht, hbusy, hhidden]
    rfl
  · rw [hostRead_of_readable (s := s.setMt m) ht hshown, busValue_setMt]
    rfl

theorem writeCtrl_mtTwin {s : State} {m : MtArray} (h : MtHidden s m) (v : Word) :
    MtTwin (s.writeCtrl v) ((s.setMt m).writeCtrl v) := by
  unfold State.writeCtrl
  split
  next => exact .refl s.softReset
  next => exact h.twin rfl rfl rfl

theorem writeIdle_setMt {t : BusTarget} (ht : t ≠ .ctrl) (s : State) (m : MtArray) (v : Word) :
    (s.setMt m).writeIdle v t = (s.writeIdle v t).setMt m := by
  cases t with
  | ctrl => exact absurd rfl ht
  | id | version | status | cmd | src | dst | len | rlen | key | iv | chain | nonce | ctrLo | ctrHi | mtSeed | mtOut
  | mtTin | mtTout | mtCursor | mtCidx | buf => rfl

theorem writeIdle_generator {t : BusTarget} (ht : t ≠ .ctrl) (s : State) (v : Word) :
    (s.writeIdle v t).mt = s.mt ∧ (s.writeIdle v t).mtCursor = s.mtCursor ∧
      (s.writeIdle v t).mtCidx = s.mtCidx := by
  cases t with
  | ctrl => exact absurd rfl ht
  | id | version | status | cmd | src | dst | len | rlen | key | iv | chain | nonce | ctrLo | ctrHi | mtSeed | mtOut
  | mtTin | mtTout | mtCursor | mtCidx | buf => simp [State.writeIdle]

theorem hostWrite_mtTwin {s : State} {m : MtArray} (h : MtHidden s m) (a : Addr) (v : Word) :
    MtTwin (s.hostWrite a v) ((s.setMt m).hostWrite a v) := by
  by_cases hill : IllegalAccess s (.write a v)
  · have hill' : IllegalAccess (s.setMt m) (.write a v) := hill
    rw [hostWrite_of_illegal hill, hostWrite_of_illegal hill']
    exact h.twin rfl rfl rfl
  · rcases hostWrite_of_legal hill with ⟨rfl, -⟩ | ⟨rfl, -⟩ | ⟨-, -, hidle, t, ht, hro, -, hctrl, hw⟩
    · rw [hostWrite_status, hostWrite_status]
      exact h.twin rfl rfl rfl
    · rw [hostWrite_ctrl, hostWrite_ctrl]
      exact writeCtrl_mtTwin h v
    · obtain ⟨hmt, hcursor, hcidx⟩ := writeIdle_generator hctrl s v
      rw [hw, hostWrite_of_idle (s := s.setMt m) ht hro hidle, writeIdle_setMt hctrl]
      exact h.twin hmt hcursor hcidx

/-! #### The engine -/

/-- Another array makes no difference to the commands that read the buffer. -/
theorem bufferSimulation_setMt (m : MtArray) : BufferSimulation fun s v => v = s.setMt m := by
  constructor <;> intros <;> subst_vars <;> rfl

/-- The commands that load or tick the generator. -/
def generatorCommands : List Instr := [.mtSeed, .mtExtract, .mtClone]

/-- The other commands neither read nor write the generator. -/
theorem exec_setMt {i : Instr} (hi : i ∉ generatorCommands) {s t : State} (m : MtArray) (h : exec i s = .next t) :
    exec i (s.setMt m) = .next (t.setMt m) := by
  have hR := bufferSimulation_setMt m
  have hagree : checkOf i s = .ok →
      AgreeUpTo (fun s v => v = s.setMt m) (performOf i s) (performOf i (s.setMt m)) := fun hc => by
    by_cases hop : i ∈ operandlessCommands
    · cases i with
      | nop | mtTemper | mtUntemper => exact .ok rfl
      | mtSeed | mtExtract | mtClone => exact absurd (by simp [generatorCommands]) hi
      | ecbEnc | ecbDec | cbcEnc | cbcDec | ctrXf | pad | strip => exact absurd hop (by simp [operandlessCommands])
    · exact hR.performOf_agreeUpTo rfl hop hc (sameCipher_of_key_eq (s := s) (State.setMt_key s m) i)
  obtain ⟨u, hu, rfl⟩ := hR.exec_of_agreeUpTo rfl hagree h
  exact hu

theorem exec_generator_frame {i : Instr} (hi : i ∉ generatorCommands) {s t : State} (h : exec i s = .next t) :
    t.mt = s.mt ∧ t.mtCursor = s.mtCursor ∧ t.mtCidx = s.mtCidx := by
  rw [exec_eq_withWrites h]
  cases i with
  | mtSeed | mtExtract | mtClone => exact absurd (by simp [generatorCommands]) hi
  | nop | ecbEnc | ecbDec | cbcEnc | cbcDec | ctrXf | pad | strip | mtTemper | mtUntemper => exact ⟨rfl, rfl, rfl⟩

/-- The loaded words grow by one, and after the last one none is hidden. -/
theorem performMtClone_mtTwin {s : State} {m : MtArray} (h : MtHidden s m) :
    MtTwin (performMtClone s) (performMtClone (s.setMt m)) := by
  obtain ⟨hcursor, hloaded⟩ := h
  have hset : ∀ j (hj : j < 624), j ≤ s.mtCidx.val →
      (m.set s.mtCidx.val (untemper s.mtTin))[j] = (s.mt.set s.mtCidx.val (untemper s.mtTin))[j] := by
    intro j hj hle
    rw [Vector.getElem_set, Vector.getElem_set]
    split
    next => rfl
    next hne => exact hloaded j hj (by omega)
  rw [performMtClone_eq, performMtClone_eq]
  refine ⟨m.set s.mtCidx.val (untemper s.mtTin), rfl, ?_⟩
  by_cases hlast : s.mtCidx = 623
  · left
    apply Vector.ext
    intro j hj
    exact hset j hj (by rw [hlast]; omega)
  · right
    refine ⟨?_, fun j hj hlt => hset j hj ?_⟩
    · simp only [if_neg hlast, hcursor, ite_self]
    · simp only [if_neg hlast] at hlt
      rw [Fin.val_add_one_of_lt (Fin.lt_def.2 (by rw [Fin.val_last]; omega))] at hlt
      omega

theorem exec_mtTwin {i : Instr} {s t : State} {m : MtArray} (h : MtHidden s m) (ht : exec i s = .next t) :
    ∃ u, exec i (s.setMt m) = .next u ∧ MtTwin t u := by
  by_cases hi : i ∈ generatorCommands
  · simp only [generatorCommands, List.mem_cons, List.not_mem_nil, or_false] at hi
    rcases hi with rfl | rfl | rfl
    · cases (mtSeedResult s).symm.trans ht
      exact ⟨_, mtSeedResult (s.setMt m), .refl _⟩
    · obtain ⟨-, -, hunseeded⟩ := mtExtractResult s
      obtain ⟨-, -, hunseeded'⟩ := mtExtractResult (s.setMt m)
      have hcursor : s.mtCursor.val = 625 := congrArg Fin.val h.1
      cases (hunseeded hcursor).symm.trans ht
      exact ⟨_, hunseeded' hcursor, h.twin rfl rfl rfl⟩
    · have hclone : ∀ s, exec .mtClone s = .next (completedWith (performMtClone s) .ok) := fun s =>
        exec_of_performOf (i := .mtClone) rfl rfl
      cases (hclone s).symm.trans ht
      obtain ⟨m', hm', hhidden⟩ := performMtClone_mtTwin h
      exact ⟨_, hclone _, m', by rw [hm']; rfl, hhidden⟩
  · obtain ⟨hmt, hcursor, hcidx⟩ := exec_generator_frame hi ht
    exact ⟨_, exec_setMt hi m ht, h.twin hmt hcursor hcidx⟩

theorem engineStep_mtTwin {s t : State} {m : MtArray} (h : MtHidden s m) (ht : s.engineStep = .next t) :
    ∃ u, (s.setMt m).engineStep = .next u ∧ MtTwin t u := by
  rcases engineStep_cases s with ⟨hidle, hs⟩ | ⟨hbusy, i, hd, hs⟩ | ⟨hbusy, e, hd, hs⟩
  · cases hs.symm.trans ht
    exact ⟨_, engineStep_of_idle hidle, h.twin rfl rfl rfl⟩
  · obtain ⟨u, hu, htwin⟩ := exec_mtTwin h (hs.symm.trans ht)
    exact ⟨u, (engineStep_of_decode (s := s.setMt m) hbusy hd).trans hu, htwin⟩
  · cases hs.symm.trans ht
    exact ⟨_, engineStep_of_illegal (s := s.setMt m) hbusy hd, h.twin rfl rfl rfl⟩

theorem applyEvent_mtTwin {s t : State} {m : MtArray} {e : BusEvent} (h : MtHidden s m)
    (ht : s.applyEvent e = .next t) : ∃ u, (s.setMt m).applyEvent e = .next u ∧ MtTwin t u := by
  cases e with
  | read a =>
    cases ht
    obtain ⟨hmt, hcursor, hcidx⟩ : (s.hostRead a).mt = s.mt ∧ (s.hostRead a).mtCursor = s.mtCursor ∧
        (s.hostRead a).mtCidx = s.mtCidx := by
      rw [(readsHaveNoSideEffect s a).1]
      exact ⟨rfl, rfl, rfl⟩
    exact ⟨_, congrArg Host.Outcome.next (hostRead_setMt s m a), h.twin hmt hcursor hcidx⟩
  | write a v =>
    cases ht
    exact ⟨_, rfl, hostWrite_mtTwin h a v⟩
  | engine => exact engineStep_mtTwin h ht
  | reset =>
    cases ht
    exact ⟨_, rfl, .refl s.hardReset⟩

/-- Settles O44: no turn shows a hidden word; a reset, MT_SEED and the end of a load make the states equal. -/
theorem unseededStateUnobservable : Obligations.UnseededStateUnobservable := by
  intro s t m h ht
  have htwin : ∃ u, step (s.setMt m) = .next u ∧ MtTwin t u := by
    cases hi : s.inputs with
    | nil =>
      rw [step_nil hi] at ht
      rw [step_nil (s := s.setMt m) hi]
      exact engineStep_mtTwin h ht
    | cons e rest =>
      rw [step_cons hi] at ht
      rw [step_cons (s := s.setMt m) hi]
      exact applyEvent_mtTwin (s := s.setInputs rest) h ht
  obtain ⟨u, hu, m', rfl, hhidden⟩ := htwin
  exact ⟨m', hu, hhidden⟩

end Sys2Proof.Machine
end

section
/-!
PROOFS. The state invariant (20_memory.md R41, R54; 44_mt19937.md R110; 40_command_cycle.md R70). The engine keeps the
buffer part as it keeps every invariant of the buffer and ends the pending command; a host write reaches the buffer
inside it only, and the resets put every part at its reset value.
-/

namespace Sys2Proof.Machine

open Sys2Proof

/-! ### The reset state -/

/-- Settles O7: nothing is written, loaded or pending after a reset. -/
theorem resetMeetsStateInv : Obligations.ResetMeetsStateInv := by
  have hreset : ∀ n, StateInv (State.resetWith n) := fun n =>
    ⟨List.Pairwise.nil, fun _ hc => absurd hc List.not_mem_nil, fun _ => rfl, fun hbusy => Bool.noConfusion hbusy⟩
  exact ⟨hreset _, hreset⟩

/-! ### What the invariant rests on -/

/-- The fields that the invariant speaks of. -/
def invariantFields (s : State) : (Memory × Config.BufSize) × (Fin 624 × Fin 626) × Bool × Bool × ErrCode :=
  ((s.buf, s.bufSize), (s.mtCidx, s.mtCursor), s.busy, s.done, s.err)

theorem StateInv.congr {s t : State} (hs : StateInv s) (h : invariantFields t = invariantFields s) : StateInv t := by
  simp only [invariantFields, Prod.mk.injEq] at h
  obtain ⟨⟨hbuf, hsize⟩, ⟨hcidx, hcursor⟩, hbusy, hdone, herr⟩ := h
  obtain ⟨hcanonical, hinside, hclone, hpending⟩ := hs
  constructor
  · rwa [hbuf]
  · rwa [hbuf, State.bufBytes, hsize]
  · rwa [hcidx, hcursor]
  · rwa [hbusy, hdone, herr]

/-! ### The engine's turn -/

/-- The buffer part of the invariant. -/
theorem bufferInvariant_stateInv :
    BufferInvariant fun s => s.buf.wf ∧ ∀ c ∈ s.buf, c.1 < s.bufBytes where
  memWrite := fun ⟨hcanonical, hinside⟩ ha => ⟨memWrite_wf hcanonical _ _, memWrite_inside hinside ha⟩
  congr := by
    rintro s t ⟨hcanonical, hinside⟩ hbuf hsize -
    rw [hbuf, State.bufBytes, hsize]
    exact ⟨hcanonical, hinside⟩

/-- MT_SEED ends a load, MT_EXTRACT fails during one, and MT_CLONE unseeds at its first word and seeds at its last. -/
theorem exec_cloneUnseeded {i : Instr} {s t : State} (hs : s.mtCidx ≠ 0 → s.mtCursor = 625) (h : exec i s = .next t)
    (ht : t.mtCidx ≠ 0) : t.mtCursor = 625 := by
  by_cases hi : i ∈ generatorCommands
  · simp only [generatorCommands, List.mem_cons, List.not_mem_nil, or_false] at hi
    rcases hi with rfl | rfl | rfl
    · cases (mtSeedResult s).symm.trans h
      exact absurd rfl ht
    · have hcidx : t.mtCidx = s.mtCidx := by rw [exec_eq_withWrites h]; rfl
      obtain ⟨-, -, hunseeded⟩ := mtExtractResult s
      have hcursor := hs (hcidx ▸ ht)
      cases (hunseeded (congrArg Fin.val hcursor)).symm.trans h
      exact hcursor
    · cases (mtCloneResult s).symm.trans h
      have hlast : s.mtCidx ≠ 623 := fun hl => ht (if_pos hl)
      change (if s.mtCidx = 623 then 624 else if s.mtCidx = 0 then 625 else s.mtCursor) = 625
      rw [if_neg hlast]
      split
      next => rfl
      next hfirst => exact hs hfirst
  · obtain ⟨-, hcursor, hcidx⟩ := exec_generator_frame hi h
    rw [hcursor]
    exact hs (hcidx ▸ ht)

theorem exec_stateInv {i : Instr} {s t : State} (hs : StateInv s) (h : exec i s = .next t) : StateInv t := by
  obtain ⟨hcanonical, hinside⟩ := bufferInvariant_stateInv.exec_keeps ⟨hs.bufCanonical, hs.bufInside⟩ h
  exact ⟨hcanonical, hinside, exec_cloneUnseeded hs.cloneUnseeded h,
    fun hbusy => absurd (hbusy.symm.trans (exec_busy h)) Bool.noConfusion⟩

theorem engineStep_stateInv {s t : State} (hs : StateInv s) (h : s.engineStep = .next t) : StateInv t := by
  rcases engineStep_cases s with ⟨-, hstep⟩ | ⟨-, i, -, hstep⟩ | ⟨-, e, -, hstep⟩
  · cases hstep.symm.trans h
    exact hs
  · exact exec_stateInv hs (hstep.symm.trans h)
  · cases hstep.symm.trans h
    exact ⟨hs.bufCanonical, hs.bufInside, hs.cloneUnseeded, fun hbusy => Bool.noConfusion hbusy⟩

/-! ### The host's accesses -/

theorem hostRead_stateInv {s : State} (hs : StateInv s) (a : Addr) : StateInv (s.hostRead a) := by
  rw [(readsHaveNoSideEffect s a).1]
  exact hs.congr rfl

theorem softReset_stateInv {s : State} (hs : StateInv s) : StateInv s.softReset :=
  ⟨hs.bufCanonical, hs.bufInside, fun _ => rfl, fun hbusy => Bool.noConfusion hbusy⟩

theorem writeCtrl_stateInv {s : State} (hs : StateInv s) (v : Word) : StateInv (s.writeCtrl v) := by
  unfold State.writeCtrl
  split
  next => exact softReset_stateInv hs
  next => exact hs.congr rfl

/-- Clearing DONE leaves a pending command as clean as it was. -/
theorem writeStatus_stateInv {s : State} (hs : StateInv s) (v : Word) : StateInv (s.writeStatus v) := by
  refine ⟨hs.bufCanonical, hs.bufInside, hs.cloneUnseeded, fun hbusy => ?_⟩
  obtain ⟨hdone, herr⟩ := hs.pendingClean hbusy
  exact ⟨writeStatus_done_of_not_done hdone v, herr⟩

theorem issue_stateInv {s : State} (hs : StateInv s) (v : Word) : StateInv (s.issue v) :=
  ⟨hs.bufCanonical, hs.bufInside, hs.cloneUnseeded, fun _ => ⟨rfl, rfl⟩⟩

theorem memWrite_stateInv {s : State} (hs : StateInv s) {a : Nat} {xs : List Byte} (ha : a + xs.length ≤ s.bufBytes) :
    StateInv (s.memWrite a xs) :=
  ⟨memWrite_wf hs.bufCanonical a xs, memWrite_inside hs.bufInside ha, hs.cloneUnseeded, hs.pendingClean⟩

theorem writeIdle_stateInv {s : State} (hs : StateInv s) {a : Addr} {t : BusTarget}
    (ht : busTarget s.bufBytes a = some t) (v : Word) : StateInv (s.writeIdle v t) := by
  cases t with
  | ctrl => exact writeCtrl_stateInv hs v
  | status => exact writeStatus_stateInv hs v
  | cmd => exact issue_stateInv hs v
  | buf o => exact memWrite_stateInv hs (busTarget_buf ht).1
  | id | version | src | dst | len | rlen | key | iv | chain | nonce | ctrLo | ctrHi | mtSeed | mtOut | mtTin | mtTout
  | mtCursor | mtCidx => exact hs.congr (by simp [invariantFields, State.writeIdle])

theorem hostWrite_stateInv {s : State} (hs : StateInv s) (a : Addr) (v : Word) : StateInv (s.hostWrite a v) := by
  rcases hostWrite_cases s a v with h | ⟨-, h⟩ | ⟨-, h⟩ | ⟨t, ht, -, -, -, -, h⟩ <;> rw [h]
  · exact hs.congr rfl
  · exact writeStatus_stateInv hs v
  · exact writeCtrl_stateInv hs v
  · exact writeIdle_stateInv hs ht v

theorem hardReset_stateInv (s : State) : StateInv s.hardReset :=
  ⟨List.Pairwise.nil, fun _ hc => absurd hc List.not_mem_nil, fun _ => rfl, fun hbusy => Bool.noConfusion hbusy⟩

/-! ### The step -/

theorem applyEvent_stateInv {s t : State} {e : BusEvent} (hs : StateInv s) (h : s.applyEvent e = .next t) :
    StateInv t := by
  cases e with
  | read a => cases h; exact hostRead_stateInv hs a
  | write a v => cases h; exact hostWrite_stateInv hs a v
  | engine => exact engineStep_stateInv hs h
  | reset => cases h; exact hardReset_stateInv s

/-- Settles O6: the turn of every agent keeps the invariant. -/
theorem stepKeepsStateInv : Obligations.StepKeepsStateInv := by
  intro s t hs h
  cases hi : s.inputs with
  | nil => exact engineStep_stateInv hs ((step_nil hi).symm.trans h)
  | cons e rest =>
    have hs' : StateInv (s.setInputs rest) := hs.congr rfl
    exact applyEvent_stateInv hs' ((step_cons hi).symm.trans h)

end Sys2Proof.Machine
end
